-- ==== Sys2Proof/Word.lean ====
section
/-! DEFINITION. The word types of spec/00_scope.md R10: u8, u16, u32. -/

namespace Sys2Proof

/-- `u8` (00_scope.md R10). -/
abbrev Byte := BitVec 8

/-- `u16` (00_scope.md R10). -/
abbrev Half := BitVec 16

/-- `u32` (00_scope.md R10). -/
abbrev Word := BitVec 32

end Sys2Proof
end

