-- ==== Sys2Proof/Syntax.lean ====
section
/-! DEFINITION. The syntax: payloads, the instructions (one constructor per row of spec/opcode_table.json), messages, and the
turns of the agents. -/

namespace Sys2Proof

/-- A payload delivered with a command word: a list of units of one type, bytes, half-words or words
(30_encoding.md R71, R72). The empty list of any of the three is the spec's one empty list. -/
inductive Payload where
  | bytes (l : List Byte)
  | halves (l : List Half)
  | words (l : List Word)
  deriving DecidableEq, Repr, Inhabited

/-- The unit size of a message body: 1, 2 or 4 bytes (10_state.md R33). -/
inductive UnitSize where
  | one
  | two
  | four
  deriving DecidableEq, Repr, Inhabited

/-- The four messages that have a body (30_encoding.md R77): AsciiText, HexArray(1), HexArray(2), HexArray(4). -/
inductive BodyKind where
  | ascii
  | hex1
  | hex2
  | hex4
  deriving DecidableEq, Repr, Inhabited

/-- The instructions: one constructor per row of spec/opcode_table.json. The first sixteen are command words
(30_encoding.md R73), then the six header words of the channel (R77), then the two forms of the FIFO's byte stream (R81, R82).
Operands are as R72 assembles them. -/
inductive Instr where
  /-- op 0x0, reserved; the 28 bits above the opcode are free. -/
  | reserved0 (rest : BitVec 28)
  | free
  | enqf (n : Half) (p : Payload)
  | enqc (c : Byte)
  | putc (c : Byte)
  | putb (n : Half) (p : Payload)
  | deq
  | sendword (v : Word)
  | etrace (id : BitVec 24)
  | eascii (n : Half) (p : Payload)
  | ehex1 (n : Half) (p : Payload)
  | ehex2 (n : Half) (p : Payload)
  | ehex4 (n : Half) (p : Payload)
  | echar (c : Byte)
  /-- op 0xE, reserved; the 28 bits above the opcode are free. -/
  | reservedE (rest : BitVec 28)
  | init (n : Half)
  | hdrTrace (id : BitVec 24)
  | hdrAscii (n : Half)
  | hdrHex1 (n : Half)
  | hdrHex2 (n : Half)
  | hdrHex4 (n : Half)
  | hdrChar (c : Byte)
  /-- A framed message in the FIFO, by its length byte. -/
  | qfFrame (len : Byte)
  /-- A raw character in the FIFO: the byte 0, then the character. -/
  | qfChar (c : Byte)
  deriving DecidableEq, Repr, Inhabited

/-- A direct command as the latch holds it: its opcode, count and payload list (10_state.md R35); the units are
zero-extended to 32 bits, as 41_frame_encoder.md R124 reads them. -/
inductive DirectCmd where
  | trace (id : BitVec 24)
  | body (kind : BodyKind) (n : Half) (units : List Word)
  | char (c : Byte)
  deriving DecidableEq, Repr, Inhabited

/-- A message on the host channel (30_encoding.md R76, R79), its units zero-extended to 32 bits. -/
inductive Message where
  | trace (id : BitVec 24)
  | body (kind : BodyKind) (units : List Word)
  | char (c : Byte)
  deriving DecidableEq, Repr, Inhabited

/-- A unit of the FIFO's byte stream (30_encoding.md R81, R82): a framed message or a raw character. -/
inductive FifoUnit where
  | frame (payload : List Byte)
  | char (c : Byte)
  deriving DecidableEq, Repr, Inhabited

/-- Who issues a command or an operation (00_scope.md R8, 60_exceptions.md R211, R219). The consumer sequencer and its
encoder are one agent. -/
inductive Agent where
  | producer (i : Nat)
  | client
  | sequencer
  | interruptHandler (i : Nat)
  deriving DecidableEq, Repr, Inhabited

/-- Where a command arrives (30_encoding.md R70): the producer write port or the direct-encoder port. -/
inductive Port where
  | producer
  | direct
  deriving DecidableEq, Repr, Inhabited

/-- The agent of the command now executed and the port it came on; no port for an operation issued inside the block. -/
structure Issuer where
  agent : Agent
  port : Option Port
  deriving DecidableEq, Repr, Inhabited

/-- One command transaction: a command word and its payload, presented by an agent on a port (30_encoding.md R71). -/
structure Transaction where
  agent : Agent
  port : Port
  word : Word
  payload : Payload
  deriving DecidableEq, Repr, Inhabited

/-- A turn: which agent acts next (00_scope.md R8, 60_exceptions.md R217). -/
inductive Turn where
  /-- An agent presents a command on a port. -/
  | command (t : Transaction)
  /-- The consumer sequencer; at a boundary where the FIFO and the direct latch are both ready, `preferDirect` is the open
  choice of 43_consumer.md R175. -/
  | sequencer (preferDirect : Bool)
  /-- The word-transfer controller polls the channel. -/
  | controller
  /-- The direct client takes its completion. -/
  | client
  /-- The host takes the channel's value. -/
  | host
  /-- The tick source. -/
  | tick
  deriving DecidableEq, Repr, Inhabited

end Sys2Proof
end

