-- ==== Sys2Proof/Config.lean ====
section
/-! DEFINITION. The parameters of 00_scope.md R9, and the free values: constants with no body, of which nothing can be proved. -/

namespace Sys2Proof

/-- The two build-time variants of the word-transfer controller (00_scope.md R3). -/
inductive Variant where
  | modern
  | legacy
  deriving DecidableEq, Repr, Inhabited

/-- `CH_REG_WIDTH`: the MODERN channel register has 16 or 32 bits (00_scope.md R9). -/
inductive RegWidth where
  | w16
  | w32
  deriving DecidableEq, Repr, Inhabited

/-- The register width in bits. -/
def RegWidth.bits : RegWidth → Nat
  | .w16 => 16
  | .w32 => 32

/-- The parameters (00_scope.md R9), each under the spec's name. They are fixed for a run: no step writes them. `CAP` is the
INIT operand (State.cap); `MAX_FRAME`, `MAX_COUNT`, `TRACE_SHIFT` and `CHAR_SHIFT` have their values in the spec and stand
where the encodings are; `BUSY_AT_RESET` is the draw `Config.busyAtReset`. -/
structure Params where
  /-- `VARIANT`. -/
  variant : Variant
  /-- `CAPMAX`: physical FIFO storage in bytes, 2 to 65535. -/
  capmax : Nat
  /-- `NPROD`: the number of producer agents, at least 1. -/
  nprod : Nat
  /-- `CH_ADDR`: the channel register's address. -/
  chAddr : Nat
  /-- `CH_REG_WIDTH`. -/
  chRegWidth : RegWidth
  /-- `M_BUSY_BIT`. -/
  mBusyBit : Fin 32
  /-- `M_DATA_LSB`. -/
  mDataLsb : Fin 32
  /-- `L_BUSY_BIT`. DESIGN CHOICE (log 29): no rule gives the width of the LEGACY status register `CHS`; it has 32 bits here,
  so the bit's place is 0 to 31. -/
  lBusyBit : Fin 32
  /-- `SPIN_TICKS`. -/
  spinTicks : Nat
  /-- `SLEEP_TICKS`: only decides when polls come (log 12). -/
  sleepTicks : Nat
  /-- `TICK_HZ`: only decides when ticks come (log 12). -/
  tickHz : Nat
  /-- `EMPTY_ASCII_BEFORE_CHAR` (43_consumer.md R173). -/
  emptyAsciiBeforeChar : Bool
  deriving DecidableEq, Repr

/-- The legal ranges of 00_scope.md R9 and 20_memory.md R56: the storage size, at least one producer, the channel address
naturally aligned, and the MODERN data lane and busy bit inside the register and apart from each other. -/
def Params.legal (p : Params) : Bool :=
  decide (2 ≤ p.capmax) && decide (p.capmax ≤ 65535) && decide (1 ≤ p.nprod) &&
  decide (p.chAddr % (p.chRegWidth.bits / 8) = 0) &&
  decide (p.mDataLsb.val + 8 ≤ p.chRegWidth.bits) && decide (p.mBusyBit.val < p.chRegWidth.bits) &&
  (decide (p.mBusyBit.val < p.mDataLsb.val) || decide (p.mDataLsb.val + 8 ≤ p.mBusyBit.val))

/-- The parameters of the reset state (log 9). DESIGN CHOICE where R9 leaves a parameter OPEN; the register layout and the
address are the general-knowledge defaults of 93_implementation_defined.md I1 to I3 (PRESUMED). -/
def Params.default : Params where
  variant := .modern
  capmax := 65535
  nprod := 1
  chAddr := 0xE000EDF8
  chRegWidth := .w16
  mBusyBit := 0
  mDataLsb := 8
  lBusyBit := 1
  spinTicks := 3
  sleepTicks := 200
  tickHz := 1000
  emptyAsciiBeforeChar := false

/-- The byte of the FIFO storage at an index that nothing has written since INIT: unspecified, any value (10_state.md R22, R43,
93_implementation_defined.md U1; log 7). -/
opaque Config.bufAtInit : Nat → Byte

/-- `BUSY_AT_RESET` (10_state.md R43, 93_implementation_defined.md U2): a draw, any value. -/
opaque Config.busyAtReset : Nat → Bool

/-- `S.ch_data` when INIT completes: unspecified (10_state.md R43, 93_implementation_defined.md U3). -/
opaque Config.chDataAtReset : Nat → Word

/-- The channel register's other bits when INIT completes: unspecified (10_state.md R42, 93_implementation_defined.md U4). -/
opaque Config.chOtherAtReset : Nat → Word

/-- Which agent acts when no turn is scheduled (60_exceptions.md R217: the order is left open; log 2). -/
opaque Config.freeTurn : Nat → Turn

end Sys2Proof
end

