-- ==== Sys2Proof/Machine/State.lean ====
section
/-! DEFINITION. The machine's state, as spec/10_state.md lists it, and what a step can stop with. -/

namespace Sys2Proof.Machine

/-- The consumer sequencer's phase (10_state.md R30). -/
inductive Phase where
  | awaitLength
  | streamFrame
  | streamChar
  | direct
  deriving DecidableEq, Repr, Inhabited

/-- The status of the direct-encoder latch (10_state.md R35). -/
inductive DState where
  | none
  | pending
  | active
  | done
  deriving DecidableEq, Repr, Inhabited

/-- The polling tier (10_state.md R37). -/
inductive Tier where
  | fast
  | slow
  deriving DecidableEq, Repr, Inhabited

/-- Why a command is refused (60_exceptions.md R206 to R211, 70_reset_and_hazards.md R231). -/
inductive Reason where
  | notInitialised
  | interruptContext
  | reservedOpcode
  | wrongAgent
  | operandRange
  | payloadLength
  | reInit
  deriving DecidableEq, Repr, Inhabited

/-- What stops the machine with a fault. The block itself raises no fault (60_exceptions.md R200); this one is the model's,
raised only in states that no run from INIT reaches. -/
inductive Fault where
  /-- Raised by the FIFO primitives when an index lies outside the storage that is used, `cap` bytes of at most `CAPMAX`
  (10_state.md R22 to R24). Safe (log 8). -/
  | fifoIndex
  deriving DecidableEq, Repr

/-- What the machine gives no meaning. -/
inductive Refusal where
  /-- Raised by `exec`'s arm of an instruction that has no meaning yet; no arm does. Safe. -/
  | notModelled (mnemonic : String)
  /-- Raised by `step` once a refused command has set the mark: a run with the mark set satisfies no claim
  (60_exceptions.md R205). Safe (log 4). -/
  | markedRun (r : Reason)
  /-- Raised by `step` for a command from a producer agent that is none of P1..PNPROD (00_scope.md R8). Safe (log 27). -/
  | noSuchAgent
  deriving DecidableEq, Repr

/-- The FIFO storage's contents: the bytes written since INIT, as (index, byte) pairs with strictly rising indices
(10_state.md R22). An index with no pair holds what INIT left there, a free value (log 7). -/
abbrev Memory := List Host.Cell

/-- The block's state (10_state.md R20), and the model's own fields `issuer`, `inbox`, `draws` and `params`. The spec's
`S.ch_busy`, `S.ch_data` are `chBusy`, `chData`. -/
structure State where
  /-- `S.buf` (R22). -/
  buf : Memory
  /-- `S.rd` (R23), a u16. -/
  rd : Nat
  /-- `S.wr` (R24), a u16. -/
  wr : Nat
  /-- `S.cnt` (R25), a u16. -/
  cnt : Nat
  /-- `S.nin` (R27), ghost. -/
  nin : Nat
  /-- `S.nout` (R27), ghost. -/
  nout : Nat
  /-- `S.cap` (R28), a u16. -/
  cap : Nat
  /-- `S.inited` (R28). -/
  inited : Bool
  /-- `S.phase` (R30). -/
  phase : Phase
  /-- `S.rem` (R31), a u16. -/
  rem : Nat
  /-- `S.acc` (R32). -/
  acc : Word
  /-- `S.k` (R32), 0 to 3. -/
  k : Nat
  /-- `S.unit` (R33). -/
  unit : UnitSize
  /-- `S.cwait` (R34). -/
  cwait : Bool
  /-- `S.dreq` (R35). -/
  dreq : Option DirectCmd
  /-- `S.dstate` (R35). -/
  dstate : DState
  /-- `S.dpay` (R35): the units not yet packed, zero-extended to 32 bits. -/
  dpay : List Word
  /-- `S.tbusy` (R36). -/
  tbusy : Bool
  /-- `S.tword` (R36). -/
  tword : Word
  /-- `S.hidx` (R36), 0 to 3, and 4 after the last handshake (log 11). -/
  hidx : Nat
  /-- `S.tier` (R37). -/
  tier : Tier
  /-- `S.tticks` (R37). -/
  tticks : Nat
  /-- `S.ch_busy` (R38): the BUSY field of the channel register (R42). -/
  chBusy : Bool
  /-- `S.ch_data` (R38): the DATA field; 8 bits, zero-extended, in MODERN, 32 bits in LEGACY. -/
  chData : Word
  /-- The other bits of the polled channel register (R42). What they read back as after INIT is the model's choice (log 30). -/
  chOther : Word
  /-- `S.wire` (R39), ghost; bytes, zero-extended, in MODERN, words in LEGACY. -/
  wire : List Word
  /-- `S.hostrx` (R39), ghost. -/
  hostrx : List Word
  /-- `S.grant` (R40): the producer that holds the write port. -/
  grant : Option Nat
  /-- The responses (R41) of the producer agents that have one, by rising agent number. -/
  resp : List (Nat × Word)
  /-- The result of the sequencer's last DEQ (42_fifo.md R155, log 23). -/
  deqByte : Byte
  /-- The refusal mark (60_exceptions.md R205), with the reason of the first refused command. -/
  mark : Option Reason
  /-- The model's own: the issuer of the command now executed (log 13). -/
  issuer : Issuer
  /-- The model's own: the turns still to come, the next one first (log 1). -/
  inbox : List Turn
  /-- The model's own: how many free values have been drawn (log 2, log 6). -/
  draws : Nat
  /-- The model's own: the parameters of 00_scope.md R9 (log 9). -/
  params : Params
  deriving DecidableEq, Repr

/-- Power-on, before INIT. Every field is unspecified then (70_reset_and_hazards.md R232) but `inited`, which is 0
(10_state.md R28); the other values are DESIGN CHOICE (log 5), the parameters log 9, and no command but INIT is admitted. -/
def State.reset : State where
  buf := []
  rd := 0
  wr := 0
  cnt := 0
  nin := 0
  nout := 0
  cap := 0
  inited := false
  phase := .awaitLength
  rem := 0
  acc := 0
  k := 0
  unit := .one
  cwait := false
  dreq := none
  dstate := .none
  dpay := []
  tbusy := false
  tword := 0
  hidx := 0
  tier := .fast
  tticks := 0
  chBusy := false
  chData := 0
  chOther := 0
  wire := []
  hostrx := []
  grant := none
  resp := []
  deqByte := 0
  mark := none
  issuer := ⟨.producer 1, some .producer⟩
  inbox := []
  draws := 0
  params := Params.default

end Sys2Proof.Machine
end

