-- ==== Sys2Proof/Machine/Flags.lean ====
section
/-! DEFINITION. The status conditions of 10_state.md R29, the fit test, PUTB's truncation, and the condition codes of
60_exceptions.md R201. No command stores a flag: the conditions are read off `cnt` and `cap`. -/

namespace Sys2Proof.Machine

/-- `EMPTY` (10_state.md R29). -/
def isEmpty (s : State) : Bool := decide (s.cnt = 0)

/-- `FULL` (10_state.md R29, 42_fifo.md R157). -/
def isFull (s : State) : Bool := decide (s.cnt = s.cap)

/-- `FREE = S.cap - S.cnt` (10_state.md R29), a mathematical integer. -/
def freeSpace (s : State) : Int := (s.cap : Int) - (s.cnt : Int)

/-- `fits(m)`: `m ≤ S.cap - S.cnt` (42_fifo.md R156). -/
def fits (m : Nat) (s : State) : Bool := decide ((m : Int) ≤ freeSpace s)

/-- PUTB's truncated length `min(n, f - 1, 255)` over mathematical integers (44_producer_port.md R187, R188): -1 when
`f = 0`, never a wrap-around. -/
def truncLen (n : Nat) (f : Int) : Int := min (min (n : Int) (f - 1)) 255

/-- The condition codes (60_exceptions.md R201): names of results, stored nowhere. -/
inductive CondCode where
  | ok
  | qfDrop
  | qfTrunc
  | hostWait
  deriving DecidableEq, Repr

/-- The code of an enqueue of `m` bytes. -/
def fitCode (m : Nat) (s : State) : CondCode := if fits m s then .ok else .qfDrop

/-- The code of PUTB. -/
def putbCode (n : Nat) (s : State) : CondCode :=
  if n = 0 then fitCode 2 s
  else if truncLen n (freeSpace s) ≤ 0 then .qfDrop
  else if truncLen n (freeSpace s) < (n : Int) then .qfTrunc
  else .ok

/-- The condition code of an admitted command or operation (60_exceptions.md R201). R201 gives `HOST_WAIT` to SENDWORD only and
names no code for a header row or a FIFO form whose step issues a word while BUSY is 1; those rows have `ok`: DESIGN CHOICE
(log 31). R201 gives `OK` to what completes normally and names no code for an operation that holds and does not complete: DEQ on
an empty FIFO, a direct command at a full latch, SENDWORD, a header row or a FIFO form while a transfer is in progress, a FIFO
form with no byte to take or in a phase that has no step for it. Where BUSY does not make it SENDWORD's `HOST_WAIT`, such a hold
has `ok`: DESIGN CHOICE (log 32). Of a command that is refused the value says nothing (log 32). -/
def conditionCode (i : Instr) (s : State) : CondCode :=
  match i with
  | .enqf n _ => fitCode (n.toNat + 1) s
  | .enqc _ => fitCode 2 s
  | .putc _ => fitCode 2 s
  | .putb n _ => putbCode n.toNat s
  | .sendword _ => if s.chBusy then .hostWait else .ok
  | .reserved0 _ | .free | .deq | .etrace _ | .eascii _ _ | .ehex1 _ _ | .ehex2 _ _ | .ehex4 _ _ | .echar _ | .reservedE _
  | .init _ | .hdrTrace _ | .hdrAscii _ | .hdrHex1 _ | .hdrHex2 _ | .hdrHex4 _ | .hdrChar _ | .qfFrame _ | .qfChar _ => .ok

end Sys2Proof.Machine
end

