-- ==== Sys2Proof/Decode.lean ====
section
/-! DEFINITION. Decoding and encoding of the three spaces of spec/30_encoding.md: command words (R71 to R74), channel header
words (R76 to R80) and the FIFO's byte stream (R81 to R83); and the opcode table's words. -/

namespace Sys2Proof

/-! ### Bit fields of a word -/

/-- `cw[3:0]` (30_encoding.md R71). -/
def opField (w : Word) : Nat := w.toNat % 16

/-- `cw[7:4]`, the field z4. -/
def z4Field (w : Word) : Nat := w.toNat / 16 % 16

/-- Bits [7:0]: the TAG of a header word (30_encoding.md R76). -/
def tagField (w : Word) : Nat := w.toNat % 256

/-- Bits [15:8]: `c` of a command word (R71), WIDTH of a header word (R76). -/
def cField (w : Word) : Byte := BitVec.ofNat 8 (w.toNat / 256)

/-- Bits [31:16]: `n` of a command word (R71), COUNT of a header word (R76). -/
def nField (w : Word) : Half := BitVec.ofNat 16 (w.toNat / 65536)

/-- Bits [31:8]: `id` (R71, R76). -/
def idField (w : Word) : BitVec 24 := BitVec.ofNat 24 (w.toNat / 256)

/-- Bits [31:4], everything above the opcode. -/
def restField (w : Word) : BitVec 28 := BitVec.ofNat 28 (w.toNat / 16)

/-- Format Z requires `cw[31:4] = 0` (R71). -/
def formatZ (w : Word) : Bool := decide (w.toNat / 16 = 0)

/-- Format C requires `cw[31:16] = 0` and `cw[7:4] = 0` (R71). -/
def formatC (w : Word) : Bool := decide (w.toNat / 65536 = 0) && decide (z4Field w = 0)

/-- Format N requires `cw[15:4] = 0` (R71). -/
def formatN (w : Word) : Bool := decide (w.toNat / 16 % 4096 = 0)

/-- Format T requires `cw[7:4] = 0` (R71). -/
def formatT (w : Word) : Bool := decide (z4Field w = 0)

/-! ### Shifts and tags of header words -/

/-- `CHAR_SHIFT` (00_scope.md R9, 41_frame_encoder.md R132). -/
def charShift : Nat := 8

/-- `TRACE_SHIFT` (00_scope.md R9). -/
def traceShift : Nat := 8

/-- The low 16 bits of a body message's header, TAG and WIDTH (30_encoding.md R77). -/
def BodyKind.tagBits : BodyKind → Word
  | .ascii => 0x00000001
  | .hex1 => 0x00000101
  | .hex2 => 0x00000201
  | .hex4 => 0x00000401

/-- The unit size of a body message (10_state.md R33, 30_encoding.md R78). -/
def BodyKind.unit : BodyKind → UnitSize
  | .ascii => .one
  | .hex1 => .one
  | .hex2 => .two
  | .hex4 => .four

/-- Trace header: `id << 8` (30_encoding.md R77). -/
def traceHeader (id : BitVec 24) : Word := (id.setWidth 32) <<< traceShift

/-- Body message header: tag bits, or the count shifted to bits [31:16] (30_encoding.md R77). -/
def bodyHeader (kind : BodyKind) (n : Half) : Word := kind.tagBits ||| ((n.setWidth 32) <<< 16)

/-- SingleChar header: `0x2 | (c << CHAR_SHIFT)` (30_encoding.md R77). -/
def charHeader (c : Byte) : Word := 0x00000002 ||| ((c.setWidth 32) <<< charShift)

/-! ### Decoding -/

/-- Why a decoder refuses. -/
inductive DecodeError where
  /-- A bit the format of opcode `op` requires to be 0 is 1 (30_encoding.md R74). -/
  | mustBeZero (op : Nat)
  /-- SENDWORD came without its one operand word (30_encoding.md R72). -/
  | missingOperandWord
  /-- A reserved header word (30_encoding.md R80). -/
  | reservedHeader (h : Word)
  /-- The byte stream is empty. -/
  | emptyStream
  /-- The byte stream ends after a marker. -/
  | missingCharacter
  deriving DecidableEq, Repr

/-- Decoding a command word with its payload (30_encoding.md R71 to R73). The payload of a command that takes none is not
looked at (log 16). Operand ranges and payload lengths are the executing command's business: their refusals have a place in
the order of 60_exceptions.md R212. -/
def decodeCommand (w : Word) (p : Payload) : Except DecodeError Instr :=
  match opField w with
  | 0 => .ok (.reserved0 (restField w))
  | 1 => if formatZ w then .ok .free else .error (.mustBeZero 1)
  | 2 => if formatN w then .ok (.enqf (nField w) p) else .error (.mustBeZero 2)
  | 3 => if formatC w then .ok (.enqc (cField w)) else .error (.mustBeZero 3)
  | 4 => if formatC w then .ok (.putc (cField w)) else .error (.mustBeZero 4)
  | 5 => if formatN w then .ok (.putb (nField w) p) else .error (.mustBeZero 5)
  | 6 => if formatZ w then .ok .deq else .error (.mustBeZero 6)
  | 7 => if formatZ w then (match p with | .words [v] => .ok (.sendword v) | _ => .error .missingOperandWord)
         else .error (.mustBeZero 7)
  | 8 => if formatT w then .ok (.etrace (idField w)) else .error (.mustBeZero 8)
  | 9 => if formatN w then .ok (.eascii (nField w) p) else .error (.mustBeZero 9)
  | 10 => if formatN w then .ok (.ehex1 (nField w) p) else .error (.mustBeZero 10)
  | 11 => if formatN w then .ok (.ehex2 (nField w) p) else .error (.mustBeZero 11)
  | 12 => if formatN w then .ok (.ehex4 (nField w) p) else .error (.mustBeZero 12)
  | 13 => if formatC w then .ok (.echar (cField w)) else .error (.mustBeZero 13)
  | 14 => .ok (.reservedE (restField w))
  | _ => if formatN w then .ok (.init (nField w)) else .error (.mustBeZero 15)

/-- Decoding a channel header word (30_encoding.md R79); every other header is reserved (R80). Bits [31:16] of a SingleChar
header are not looked at, as R79 says (log 25). -/
def decodeHeader (h : Word) : Except DecodeError Instr :=
  match tagField h with
  | 0 => .ok (.hdrTrace (idField h))
  | 1 =>
    match (cField h).toNat with
    | 0 => .ok (.hdrAscii (nField h))
    | 1 => .ok (.hdrHex1 (nField h))
    | 2 => .ok (.hdrHex2 (nField h))
    | 4 => .ok (.hdrHex4 (nField h))
    | _ => .error (.reservedHeader h)
  | 2 => .ok (.hdrChar (BitVec.ofNat 8 (h.toNat / 2 ^ charShift)))
  | _ => .error (.reservedHeader h)

/-- Decoding the next unit of the FIFO's byte stream from its first byte (30_encoding.md R81 to R83): the instruction and the
bytes after the ones that name it (a frame's payload is still to come). -/
def decodeFifo : List Byte → Except DecodeError (Instr × List Byte)
  | [] => .error .emptyStream
  | b :: rest =>
    if b = 0 then
      match rest with
      | [] => .error .missingCharacter
      | c :: rest' => .ok (.qfChar c, rest')
    else .ok (.qfFrame b, rest)

/-- An instruction as it stands in its own space. -/
inductive Encoded where
  | command (w : Word) (p : Payload)
  | header (h : Word)
  | fifo (bytes : List Byte)
  deriving DecidableEq, Repr

/-- The decoder: every space has its own. -/
def decode : Encoded → Except DecodeError Instr
  | .command w p => decodeCommand w p
  | .header h => decodeHeader h
  | .fifo bs => (decodeFifo bs).map (·.1)

/-! ### Encoding -/

/-- Format Z: the opcode alone. -/
def encZ (op : Nat) : Word := BitVec.ofNat 32 op

/-- Format C: `(c << 8) | op`. -/
def encC (op : Nat) (c : Byte) : Word := BitVec.ofNat 32 (c.toNat * 256 + op)

/-- Format N: `(n << 16) | op`. -/
def encN (op : Nat) (n : Half) : Word := BitVec.ofNat 32 (n.toNat * 65536 + op)

/-- Format T: `(id << 8) | op`. -/
def encT (op : Nat) (id : BitVec 24) : Word := BitVec.ofNat 32 (id.toNat * 256 + op)

/-- A reserved opcode with the 28 bits above it. -/
def encReserved (op : Nat) (rest : BitVec 28) : Word := BitVec.ofNat 32 (rest.toNat * 16 + op)

/-- The encoder (30_encoding.md R71 to R73, R77, R81, R82). -/
def encode : Instr → Encoded
  | .reserved0 rest => .command (encReserved 0 rest) (.bytes [])
  | .free => .command (encZ 1) (.bytes [])
  | .enqf n p => .command (encN 2 n) p
  | .enqc c => .command (encC 3 c) (.bytes [])
  | .putc c => .command (encC 4 c) (.bytes [])
  | .putb n p => .command (encN 5 n) p
  | .deq => .command (encZ 6) (.bytes [])
  | .sendword v => .command (encZ 7) (.words [v])
  | .etrace id => .command (encT 8 id) (.bytes [])
  | .eascii n p => .command (encN 9 n) p
  | .ehex1 n p => .command (encN 10 n) p
  | .ehex2 n p => .command (encN 11 n) p
  | .ehex4 n p => .command (encN 12 n) p
  | .echar c => .command (encC 13 c) (.bytes [])
  | .reservedE rest => .command (encReserved 14 rest) (.bytes [])
  | .init n => .command (encN 15 n) (.bytes [])
  | .hdrTrace id => .header (traceHeader id)
  | .hdrAscii n => .header (bodyHeader .ascii n)
  | .hdrHex1 n => .header (bodyHeader .hex1 n)
  | .hdrHex2 n => .header (bodyHeader .hex2 n)
  | .hdrHex4 n => .header (bodyHeader .hex4 n)
  | .hdrChar c => .header (charHeader c)
  | .qfFrame len => .fifo [len]
  | .qfChar c => .fifo [0, c]

/-- The instructions that have an encoding of their own: all but the frame form with length byte 0, whose byte is the marker
of a raw character (30_encoding.md R81, R82). -/
def Instr.encodable : Instr → Bool
  | .qfFrame len => decide (len ≠ 0)
  | .reserved0 _ | .free | .enqf _ _ | .enqc _ | .putc _ | .putb _ _ | .deq | .sendword _ | .etrace _ | .eascii _ _
  | .ehex1 _ _ | .ehex2 _ _ | .ehex4 _ _ | .echar _ | .reservedE _ | .init _ | .hdrTrace _ | .hdrAscii _ | .hdrHex1 _
  | .hdrHex2 _ | .hdrHex4 _ | .hdrChar _ | .qfChar _ => true

/-! ### The opcode table's words (log 17)

The table numbers the bits of its rows without naming their space, and the words of the spaces overlap: 0x00000001 is FREE
and the header of an empty AsciiText. A table word is read in the space whose row it fits, by its length in bits: `nbits` is
8, 16 or 32 as a row fixes its first byte, half-word or word. -/

/-- A payload of `n` zero units, the operand words of zeros of a table word. -/
def zeroPayload (op n : Nat) : Payload :=
  if op = 11 then .halves (List.replicate n 0)
  else if op = 12 then .words (List.replicate n 0)
  else if op = 7 then .words [0]
  else .bytes (List.replicate n 0)

/-- A table word read as a command. -/
def tableCommand (w : Word) : Encoded := .command w (zeroPayload (opField w) (nField w).toNat)

/-- The low 16 bits of `w` are those of a body message's header. -/
def isBodyTag (w : Nat) : Bool := w % 65536 == 0x1 || w % 65536 == 0x101 || w % 65536 == 0x201 || w % 65536 == 0x401

/-- The space and words of a table row's word of `nbits` bits. Where two rows have the same word (RESERVED_0 and HDR_TRACE at
0, FREE and HDR_ASCII at 1, ENQF and HDR_CHAR at 2), the longer fixed field wins at its own length. -/
def tableEncoded (nbits w : Nat) : Encoded :=
  let cw : Word := BitVec.ofNat 32 w
  if nbits ≤ 8 then
    if w = 0 then .header cw
    else if w % 16 = 0 || w = 8 || w % 16 = 14 then tableCommand cw
    else .fifo [BitVec.ofNat 8 w]
  else if nbits ≤ 16 then
    if isBodyTag w then .header cw
    else if w = 2 || w = 5 || (9 ≤ w && w ≤ 12) || w = 15 then tableCommand cw
    else if w < 256 then .fifo [0, BitVec.ofNat 8 w]
    else tableCommand cw
  else
    if w = 1 || w = 0 then tableCommand cw
    else if isBodyTag w || w % 256 = 0 || (w < 65536 && w % 256 = 2) then .header cw
    else tableCommand cw

/-- The instruction this decoder reads from a word of the opcode table (log 17). -/
def decodeTableWord (nbits w : Nat) : Option Instr :=
  match decode (tableEncoded nbits w) with
  | .ok i => some i
  | .error _ => none

end Sys2Proof
end

