-- ==== Sys2Proof/Machine/Operands.lean ====
section
/-! DEFINITION. Operand forms: payload units, unit sizes, the packing of units into body words, the bytes of a word, and
agents' access to the ports. -/

namespace Sys2Proof

/-- The unit size in bytes (10_state.md R33). -/
def UnitSize.bytes : UnitSize → Nat
  | .one => 1
  | .two => 2
  | .four => 4

/-- Units per body word, `4/u` (30_encoding.md R78). -/
def UnitSize.perWord : UnitSize → Nat
  | .one => 4
  | .two => 2
  | .four => 1

/-- The payload's units, zero-extended to 32 bits. -/
def Payload.units : Payload → List Word
  | .bytes l => l.map (·.setWidth 32)
  | .halves l => l.map (·.setWidth 32)
  | .words l => l

/-- The payload's unit size. -/
def Payload.unitSize : Payload → UnitSize
  | .bytes _ => .one
  | .halves _ => .two
  | .words _ => .four

/-- The payload is a list of exactly `n` units of size `u` (60_exceptions.md R209). The empty list has no units and so no unit
type: it is exactly 0 units of any. -/
def Payload.matchesCount (u : UnitSize) (n : Nat) (p : Payload) : Bool :=
  decide (p.units.length = n) && (decide (p.unitSize = u) || decide (n = 0))

/-- The payload's bytes; none where its units are not bytes. -/
def Payload.byteList : Payload → List Byte
  | .bytes l => l
  | .halves _ => []
  | .words _ => []

namespace Machine

/-- The new accumulator when a unit enters (41_frame_encoder.md R124):
`(S.acc >> 8u) | (zext_32(e) << (32 - 8u))`; a shift by 32 gives 0. -/
def shiftIn (u : UnitSize) (acc e : Word) : Word :=
  (acc >>> (8 * u.bytes)) ||| (e <<< (32 - 8 * u.bytes))

/-- `align(acc, k, u) = acc >> (8u * (4/u - k))` (41_frame_encoder.md R125). -/
def align (acc : Word) (k : Nat) (u : UnitSize) : Word := acc >>> (8 * u.bytes * (u.perWord - k))

/-- One unit enters the word being built (41_frame_encoder.md R124): the accumulator and count after it, and the word
emitted, if the unit fills a word or is the last one. `rem` counts the units still to come after this one. -/
def packUnit (u : UnitSize) (acc : Word) (k rem : Nat) (e : Word) : Word × Nat × Option Word :=
  if k + 1 = u.perWord ∨ rem = 0 then (0, 0, some (align (shiftIn u acc e) (k + 1) u))
  else (shiftIn u acc e, k + 1, none)

/-- Byte `j` of a word, byte 0 the least significant (20_memory.md R54, 40_word_transport.md R103). -/
def wordByte (w : Word) (j : Nat) : Byte := BitVec.ofNat 8 (w.toNat / 2 ^ (8 * j))

/-- What class of command an opcode is, by the port that accepts it (30_encoding.md R73). -/
inductive OpClass where
  | reserved
  | producer
  | direct
  | internal
  deriving DecidableEq, Repr

/-- The class of opcode `op` (30_encoding.md R73). -/
def opClass (op : Nat) : OpClass :=
  if op = 0 ∨ op = 14 then .reserved
  else if op = 6 ∨ op = 7 then .internal
  else if 8 ≤ op ∧ op ≤ 13 then .direct
  else .producer

/-- The agent is a producer. -/
def isProducer : Agent → Bool
  | .producer _ => true
  | .client | .sequencer | .interruptHandler _ => false

/-- The agent is an interrupt handler (60_exceptions.md R211). -/
def isInterruptHandler : Agent → Bool
  | .interruptHandler _ => true
  | .client | .sequencer | .producer _ => false

/-- A producer or direct command from an interrupt handler (60_exceptions.md R211). The rule names no other class: a reserved
opcode, DEQ or SENDWORD from one has its own reason (R207, R210). -/
def fromInterrupt (c : OpClass) (i : Issuer) : Bool :=
  match c with
  | .reserved => false
  | .producer => isInterruptHandler i.agent
  | .direct => isInterruptHandler i.agent
  | .internal => false

/-- Which agent on which port may issue a command of the class (60_exceptions.md R210, R219). -/
def permitted (c : OpClass) (i : Issuer) : Bool :=
  match c with
  | .reserved => false
  | .producer => isProducer i.agent && decide (i.port = some .producer)
  | .direct => decide (i.agent = .client) && decide (i.port = some .direct)
  | .internal => decide (i.agent = .sequencer) && decide (i.port = none)

end Machine

end Sys2Proof
end

