-- ==== Sys2Proof/Machine/Ops.lean ====
section
/-! DEFINITION. The named operations over the state: FIFO storage, the ring buffer's primitives, responses, refusals, the
admission of a command, the word transfer and the channel register. -/

namespace Sys2Proof.Machine

/-- How a step or a meaning ends. -/
abbrev Result := Host.Outcome State Fault Refusal

/-! ### FIFO storage (20_memory.md R50) -/

/-- The byte written at an index since INIT, if one was. -/
def Memory.read : Memory → Nat → Option Byte
  | [], _ => none
  | (a', b) :: rest, a => if a' = a then some b else Memory.read rest a

/-- What an index that nothing has written reads as: the unspecified contents INIT leaves, a free value (log 7). -/
def Memory.unlisted (a : Nat) : Byte := Config.bufAtInit a

/-- `S.buf[a]` (10_state.md R22): every index holds a byte. -/
def Memory.byteAt (m : Memory) (a : Nat) : Byte := (m.read a).getD (Memory.unlisted a)

/-- Writing a byte at an index, the indices staying in strictly rising order. -/
def Memory.write : Memory → Nat → Byte → Memory
  | [], a, b => [(a, b)]
  | (a', b') :: rest, a, b =>
    if a < a' then (a, b) :: (a', b') :: rest
    else if a = a' then (a, b) :: rest
    else (a', b') :: Memory.write rest a b

/-- The canonical form: indices strictly rising. The list records which indices were written and what with; what an unlisted
index reads as is free, so no entry is known to equal it (log 7). -/
def Memory.wf : Memory → Bool
  | [] => true
  | [_] => true
  | (a, _) :: (a', b') :: rest => decide (a < a') && Memory.wf ((a', b') :: rest)

/-! ### The ring buffer (42_fifo.md R154) -/

/-- `adv(i) = (i + 1) mod S.cap`. -/
def adv (s : State) (i : Nat) : Nat := (i + 1) % s.cap

/-- The storage in use has a byte of this index (10_state.md R22 to R24): below `S.cap`, which is at most `CAPMAX`. -/
def hasIndex (s : State) (i : Nat) : Bool := decide (i < s.cap) && decide (s.cap ≤ s.params.capmax)

/-- `put(b)`: `S.buf[S.wr] <- b; S.wr <- adv(S.wr); S.cnt <- S.cnt + 1; S.nin <- S.nin + 1`. -/
def put (b : Byte) (s : State) : State :=
  { s with buf := s.buf.write s.wr b, wr := adv s s.wr, cnt := s.cnt + 1, nin := s.nin + 1 }

/-- `put` of every byte of a list, the first one first. -/
def putAll : List Byte → State → State
  | [], s => s
  | b :: bs, s => putAll bs (put b s)

/-- The state an enqueue leaves (42_fifo.md R152, R153). With a byte held the sequencer is no longer suspended, so `S.cwait`
is 0 (10_state.md R34, log 21). -/
def enqueued (bs : List Byte) (s : State) : State := { putAll bs s with cwait := false }

/-- An enqueue of whole bytes, one step: it faults where the write index has no byte (log 8). -/
def enqueue (bs : List Byte) (s : State) : Except Fault State :=
  if hasIndex s s.wr then .ok (enqueued bs s) else .error .fifoIndex

/-- `take()`: `b <- S.buf[S.rd]; S.rd <- adv(S.rd); S.cnt <- S.cnt - 1; S.nout <- S.nout + 1; result b`, with DEQ's
`S.cwait <- 0` in the same step (42_fifo.md R154, R155). Used only when `S.cnt > 0`. It faults where the read index has no
byte (log 8). -/
def take (s : State) : Except Fault (Byte × State) :=
  if hasIndex s s.rd then
    let b := s.buf.byteAt s.rd
    .ok (b, { s with rd := adv s s.rd, cnt := s.cnt - 1, nout := s.nout + 1, cwait := false, deqByte := b })
  else .error .fifoIndex

/-- Goes on with the result of an operation that may fault. -/
def andThen {α : Type} (r : Except Fault α) (f : α → Result) : Result :=
  match r with
  | .ok a => f a
  | .error e => .fault e

/-! ### Responses, holds and refusals -/

/-- Sets an agent's response in the list of responses, the agent numbers staying in rising order. -/
def setResp : List (Nat × Word) → Nat → Word → List (Nat × Word)
  | [], i, v => [(i, v)]
  | (j, w) :: rest, i, v =>
    if i < j then (i, v) :: (j, w) :: rest
    else if i = j then (i, v) :: rest
    else (j, w) :: setResp rest i v

/-- The last response of producer `i`, if it has one (10_state.md R41). -/
def respOf (s : State) (i : Nat) : Option Word := (s.resp.find? (fun e => e.1 == i)).map (·.2)

/-- `return v`: places `v` on the issuing producer's response (00_scope.md R11, 30_encoding.md R75). -/
def respond (v : Word) (s : State) : State :=
  match s.issuer.agent with
  | .producer i => { s with resp := setResp s.resp i v }
  | .client => s
  | .sequencer => s
  | .interruptHandler _ => s

/-- A hold: the agent has no enabled step, which is a wait and no fault (00_scope.md R11, 60_exceptions.md R213). -/
def hold (s : State) : Result := .next s

/-- The refusal of a command: the mark is set, with the reason of the first refusal, and nothing else changes
(60_exceptions.md R205, log 4). This is the block's only exceptional path; there is none to return from (R218). -/
def refuse (r : Reason) (s : State) : Result :=
  .next { s with mark := match s.mark with | some r' => some r' | none => some r }

/-- The reasons to refuse a command, in the order of 60_exceptions.md R212 with ReInit where INIT's own rule has it, before
the operand range (70_reset_and_hazards.md R230, log 14). -/
def admission (c : OpClass) (isInit rangeOk payloadOk : Bool) (s : State) : Option Reason :=
  if s.inited = false ∧ isInit = false then some .notInitialised
  else if fromInterrupt c s.issuer then some .interruptContext
  else if c = .reserved then some .reservedOpcode
  else if permitted c s.issuer = false then some .wrongAgent
  else if isInit = true ∧ s.inited = true then some .reInit
  else if rangeOk = false then some .operandRange
  else if payloadOk = false then some .payloadLength
  else none

/-- Runs `f` if nothing refuses the command. -/
def admitted (r : Option Reason) (f : State → Result) (s : State) : Result :=
  match r with
  | some reason => refuse reason s
  | none => f s

/-! ### The word transfer (40_word_transport.md) -/

/-- `emit(w)`: SENDWORD's start step (40_word_transport.md R101). -/
def emit (w : Word) (s : State) : State :=
  { s with tbusy := true, tword := w, hidx := 0, tier := .fast, tticks := 0 }

/-- `1 << i` in a 32-bit register. -/
def bitMask (i : Fin 32) : Word := BitVec.twoPow 32 i.val

/-- Sets bit `i` of `w` to `b`. -/
def putBit (w : Word) (i : Fin 32) (b : Bool) : Word := if b then w ||| bitMask i else w &&& ~~~(bitMask i)

/-- The bits of the MODERN register. -/
def regMask (p : Params) : Word := BitVec.ofNat 32 (2 ^ p.chRegWidth.bits - 1)

/-- The DATA field's bits in the MODERN register. -/
def laneMask (p : Params) : Word := (0xFF : Word) <<< p.mDataLsb.val

/-- The BUSY bit of the polled register: `M_BUSY_BIT` of CHR, `L_BUSY_BIT` of CHS (10_state.md R42). -/
def busyBit (p : Params) : Fin 32 :=
  match p.variant with
  | .modern => p.mBusyBit
  | .legacy => p.lBusyBit

/-- `MemRead(CH_ADDR, n)` (20_memory.md R55): the polled register's current value, CHR in MODERN, CHS in LEGACY
(10_state.md R42). Reading has no side effect (R58). The bits other than BUSY and DATA, which the poll ignores
(93_implementation_defined.md U4), read as `chOther`: DESIGN CHOICE (log 30), as are the 32 bits of CHS (log 29). -/
def channelRead (s : State) : Word :=
  let fields : Word :=
    match s.params.variant with
    | .modern => ((s.chOther &&& ~~~(laneMask s.params)) ||| ((s.chData &&& 0xFF) <<< s.params.mDataLsb.val)) &&& regMask s.params
    | .legacy => s.chOther
  putBit fields (busyBit s.params) s.chBusy

/-- A poll: the BUSY field of `MemRead` (40_word_transport.md R102). -/
def pollBusy (s : State) : Bool := (channelRead s).getLsbD (busyBit s.params).val

/-- The value a MODERN handshake writes to CHR (30_encoding.md R84): DATA the byte, BUSY 1, all other bits 0. -/
def channelWriteValue (p : Params) (b : Byte) : Word := ((b.setWidth 32) <<< p.mDataLsb.val) ||| bitMask p.mBusyBit

/-- `MemWrite` by the controller (20_memory.md R55): BUSY is set, DATA is the payload, the payload goes on the wire. In MODERN
the whole register is written, its other bits 0 (30_encoding.md R84); in LEGACY the data register. That MODERN's other bits then
stand at 0 and CHS's stay as INIT left them is a DESIGN CHOICE (log 30). -/
def channelWrite (payload : Word) (s : State) : State :=
  { s with chBusy := true, chData := payload, wire := s.wire ++ [payload],
           chOther := match s.params.variant with | .modern => 0 | .legacy => s.chOther }

end Sys2Proof.Machine
end

