-- ==== Sys2Proof/Machine/Encoder.lean ====
section
/-! DEFINITION. The frame encoder (spec/41_frame_encoder.md): the six direct commands, the header words, and the unit step. -/

namespace Sys2Proof.Machine

/-! ### The direct-encoder port (41_frame_encoder.md R121) -/

/-- The latch holds a command: its status is not NONE. -/
def latchFull (s : State) : Bool := decide (s.dstate ≠ .none)

/-- The payload units a direct command brings (10_state.md R35). -/
def directPayload : DirectCmd → List Word
  | .trace _ => []
  | .body _ _ units => units
  | .char _ => []

/-- Accepting a command: `S.dreq <- command; S.dpay <- payload; S.dstate <- PENDING`. -/
def latch (cmd : DirectCmd) (s : State) : State :=
  { s with dreq := some cmd, dpay := directPayload cmd, dstate := .pending }

/-- A direct command (41_frame_encoder.md R121): accepted when the latch is empty; while it is not, the client holds
(60_exceptions.md R213, log 22). -/
def directCommand (payloadOk : Bool) (cmd : DirectCmd) (s : State) : Result :=
  admitted (admission .direct false true (latchFull s || payloadOk) s)
    (fun s => if latchFull s then hold s else .next (latch cmd s)) s

/-- ETRACE (41_frame_encoder.md R127). -/
def execEtrace (id : BitVec 24) (s : State) : Result := directCommand true (.trace id) s

/-- EASCII (41_frame_encoder.md R128). -/
def execEascii (n : Half) (p : Payload) (s : State) : Result :=
  directCommand (p.matchesCount .one n.toNat) (.body .ascii n p.units) s

/-- EHEX1 (41_frame_encoder.md R129). -/
def execEhex1 (n : Half) (p : Payload) (s : State) : Result :=
  directCommand (p.matchesCount .one n.toNat) (.body .hex1 n p.units) s

/-- EHEX2 (41_frame_encoder.md R130). -/
def execEhex2 (n : Half) (p : Payload) (s : State) : Result :=
  directCommand (p.matchesCount .two n.toNat) (.body .hex2 n p.units) s

/-- EHEX4 (41_frame_encoder.md R131). -/
def execEhex4 (n : Half) (p : Payload) (s : State) : Result :=
  directCommand (p.matchesCount .four n.toNat) (.body .hex4 n p.units) s

/-- ECHAR (41_frame_encoder.md R132). -/
def execEchar (c : Byte) (s : State) : Result := directCommand true (.char c) s

/-- The client's turn (41_frame_encoder.md R121): it takes the completion. -/
def clientTurn (s : State) : Result :=
  if s.inited && decide (s.dstate = .done) then .next { s with dreq := none, dpay := [], dstate := .none } else hold s

/-! ### Header words (41_frame_encoder.md R122) -/

/-- The set-up of a message body: `S.unit <- u; S.rem <- n; S.acc <- 0; S.k <- 0`. -/
def startBody (u : UnitSize) (n : Nat) (s : State) : State := { s with unit := u, rem := n, acc := 0, k := 0 }

/-- The header step (41_frame_encoder.md R122, R123): enabled when no transfer is in progress; it issues the header word and,
through `setup`, prepares the body. -/
def headerStep (h : Word) (setup : State → State) (s : State) : Result :=
  admitted (admission .internal false true true s)
    (fun s => if s.tbusy then hold s else .next (emit h (setup s))) s

/-- The header step of a message with a body. -/
def bodyHeaderStep (kind : BodyKind) (n : Half) (s : State) : Result :=
  headerStep (bodyHeader kind n) (startBody kind.unit n.toNat) s

/-- Trace header (30_encoding.md R77, 41_frame_encoder.md R127); no body. -/
def execHdrTrace (id : BitVec 24) (s : State) : Result := headerStep (traceHeader id) (fun s => s) s

/-- AsciiText header (30_encoding.md R77, 41_frame_encoder.md R128). -/
def execHdrAscii (n : Half) (s : State) : Result := bodyHeaderStep .ascii n s

/-- HexArray(1) header (30_encoding.md R77, 41_frame_encoder.md R129). -/
def execHdrHex1 (n : Half) (s : State) : Result := bodyHeaderStep .hex1 n s

/-- HexArray(2) header (30_encoding.md R77, 41_frame_encoder.md R130). -/
def execHdrHex2 (n : Half) (s : State) : Result := bodyHeaderStep .hex2 n s

/-- HexArray(4) header (30_encoding.md R77, 41_frame_encoder.md R131). -/
def execHdrHex4 (n : Half) (s : State) : Result := bodyHeaderStep .hex4 n s

/-- SingleChar header (30_encoding.md R77, 41_frame_encoder.md R132); no body. -/
def execHdrChar (c : Byte) (s : State) : Result := headerStep (charHeader c) (fun s => s) s

/-! ### The unit step (41_frame_encoder.md R124) -/

/-- One unit of the body enters the accumulator; a full or final word is emitted. -/
def unitStep (e : Word) (s : State) : State :=
  let r := packUnit s.unit s.acc s.k (s.rem - 1) e
  let t := { s with acc := r.1, k := r.2.1, rem := s.rem - 1 }
  match r.2.2 with
  | some w => emit w t
  | none => t

end Sys2Proof.Machine
end

