-- ==== Sys2Proof/Machine/Fifo.lean ====
section
/-! DEFINITION. The FIFO's operations (spec/42_fifo.md): FREE, ENQF, ENQC, DEQ. -/

namespace Sys2Proof.Machine

/-- An all-or-nothing enqueue (42_fifo.md R156): the bytes are written if they fit, with one response; nothing changes but the
other response if they do not. -/
def enqueueOrDrop (bs : List Byte) (okResp failResp : Word) (s : State) : Result :=
  if fits bs.length s then andThen (enqueue bs s) (fun t => .next (respond okResp t))
  else .next (respond failResp s)

/-- The bytes of a framed message in the FIFO (30_encoding.md R81): the length byte, then the payload. -/
def frameBytes (n : Nat) (payload : List Byte) : List Byte := BitVec.ofNat 8 n :: payload

/-- The bytes of a raw character in the FIFO (30_encoding.md R82). -/
def charBytes (c : Byte) : List Byte := [0, c]

/-- FREE (42_fifo.md R151): returns `zext_32(S.cap - S.cnt)`. -/
def execFree (s : State) : Result :=
  admitted (admission .producer false true true s) (fun s => .next (respond (BitVec.ofInt 32 (freeSpace s)) s)) s

/-- ENQF (42_fifo.md R152): enqueues a frame of 1 to 255 payload bytes, 1 on success and 0 if it does not fit. -/
def execEnqf (n : Half) (p : Payload) (s : State) : Result :=
  admitted (admission .producer false (decide (1 ≤ n.toNat ∧ n.toNat ≤ 255)) (p.matchesCount .one n.toNat) s)
    (enqueueOrDrop (frameBytes n.toNat p.byteList) 1 0) s

/-- ENQC (42_fifo.md R153): enqueues a raw character, 1 on success and 0 if it does not fit. -/
def execEnqc (c : Byte) (s : State) : Result :=
  admitted (admission .producer false true true s) (enqueueOrDrop (charBytes c) 1 0) s

/-- The sequencer's suspend step (42_fifo.md R158, 43_consumer.md R176): it records that a byte is awaited. -/
def suspend (s : State) : Result := .next { s with cwait := true }

/-- DEQ (42_fifo.md R155): removes the oldest byte and hands it to the sequencer; on an empty FIFO it suspends. -/
def execDeq (s : State) : Result :=
  admitted (admission .internal false true true s)
    (fun s => if s.cnt = 0 then suspend s else andThen (take s) (fun r => .next r.2)) s

end Sys2Proof.Machine
end

