-- ==== Sys2Proof/Machine/FifoForms.lean ====
section
/-! DEFINITION. The forms of the FIFO's byte stream as the sequencer executes them (spec/43_consumer.md R170 to R174). -/

namespace Sys2Proof.Machine

/-- The sequencer's step may take a byte: no transfer in progress and the FIFO not empty (43_consumer.md R170, R174). -/
def mayTake (s : State) : Bool := decide (s.tbusy = false) && decide (0 < s.cnt)

/-- QF_FRAME: the length step of a framed message (43_consumer.md R170, R171). It takes the length byte, issues the AsciiText
header with that count and goes to STREAM_FRAME; a length of 0 is no frame (30_encoding.md R81). -/
def execQfFrame (len : Byte) (s : State) : Result :=
  admitted (admission .internal false (decide (len ≠ 0)) true s)
    (fun s =>
      if mayTake s && decide (s.phase = .awaitLength) then
        andThen (take s) (fun r =>
          .next (emit (bodyHeader .ascii (len.setWidth 16)) { startBody .one len.toNat r.2 with phase := .streamFrame }))
      else hold s) s

/-- The marker step (43_consumer.md R173): it takes the 0 and goes to STREAM_CHAR, with the empty AsciiText header first if
the parameter asks for it. -/
def markerStep (s : State) : Result :=
  andThen (take s) (fun r =>
    let t := { r.2 with phase := .streamChar }
    .next (if s.params.emptyAsciiBeforeChar then emit (bodyHeader .ascii 0) t else t))

/-- The character step (43_consumer.md R174): it takes the character, issues the SingleChar header and returns to
AWAIT_LENGTH. -/
def characterStep (c : Byte) (s : State) : Result :=
  andThen (take s) (fun r => .next (emit (charHeader c) { r.2 with phase := .awaitLength }))

/-- QF_CHAR, which takes two steps: the marker step from AWAIT_LENGTH and the character step from STREAM_CHAR (log 20). -/
def execQfChar (c : Byte) (s : State) : Result :=
  admitted (admission .internal false true true s)
    (fun s =>
      if mayTake s then
        match s.phase with
        | .awaitLength => markerStep s
        | .streamChar => characterStep c s
        | .streamFrame => hold s
        | .direct => hold s
      else hold s) s

end Sys2Proof.Machine
end

