-- ==== Sys2Proof/Machine/Init.lean ====
section
/-! DEFINITION. INIT (spec/70_reset_and_hazards.md R230, R231) and the table of 10_state.md R43. -/

namespace Sys2Proof.Machine

/-- Every field at its value in the table of 10_state.md R43, with capacity `n` and `inited` set. What the table leaves
unspecified is a free value: the channel's BUSY flag, data (8 bits in MODERN) and other bits (log 6); the FIFO storage
has no byte written, each index holding a free value (log 7). The mark and the model's own fields stay. -/
def initialised (n : Nat) (s : State) : State where
  buf := []
  rd := 0
  wr := 0
  cnt := 0
  nin := 0
  nout := 0
  cap := n
  inited := true
  phase := .awaitLength
  rem := 0
  acc := 0
  k := 0
  unit := .one
  cwait := false
  dreq := none
  dstate := .none
  dpay := []
  tbusy := false
  tword := 0
  hidx := 0
  tier := .fast
  tticks := 0
  chBusy := Config.busyAtReset s.draws
  chData :=
    match s.params.variant with
    | .modern => Config.chDataAtReset s.draws &&& 0xFF
    | .legacy => Config.chDataAtReset s.draws
  chOther := Config.chOtherAtReset s.draws
  wire := []
  hostrx := []
  grant := none
  resp := []
  deqByte := 0
  mark := s.mark
  issuer := s.issuer
  inbox := s.inbox
  draws := s.draws + 1
  params := s.params

/-- INIT (70_reset_and_hazards.md R230): once, with a capacity from 2 to `CAPMAX`; returns 1. -/
def execInit (n : Half) (s : State) : Result :=
  admitted (admission .producer true (decide (2 ≤ n.toNat ∧ n.toNat ≤ s.params.capmax)) true s)
    (fun s => .next (respond 1 (initialised n.toNat s))) s

end Sys2Proof.Machine
end

