-- ==== Sys2Proof/Machine/Producer.lean ====
section
/-! DEFINITION. The producer front end (spec/44_producer_port.md): PUTC, PUTB. -/

namespace Sys2Proof.Machine

/-- PUTC (44_producer_port.md R186): enqueues a raw character, returns `zext_32(c)`, or 0xFFFFFFFF if it does not fit. -/
def execPutc (c : Byte) (s : State) : Result :=
  admitted (admission .producer false true true s) (enqueueOrDrop (charBytes c) (c.setWidth 32) 0xFFFFFFFF) s

/-- PUTB's body for a requested length `n` and payload bytes (44_producer_port.md R187): the truncated frame, or for `n = 0`
the flush separator, or nothing. -/
def putBytes (n : Nat) (payload : List Byte) (s : State) : Result :=
  let t := truncLen n (freeSpace s)
  if 1 ≤ t then
    andThen (enqueue (frameBytes t.toNat (payload.take t.toNat)) s) (fun s' => .next (respond (BitVec.ofInt 32 t) s'))
  else if n = 0 then enqueueOrDrop (charBytes 0x0A) 0 0 s
  else .next (respond 0 s)

/-- PUTB (44_producer_port.md R187, R188). -/
def execPutb (n : Half) (p : Payload) (s : State) : Result :=
  admitted (admission .producer false true (p.matchesCount .one n.toNat) s) (putBytes n.toNat p.byteList) s

end Sys2Proof.Machine
end

