-- ==== Sys2Proof/Machine/Reserved.lean ====
section
/-! DEFINITION. The reserved opcodes (30_encoding.md R73, 60_exceptions.md R207): refused, which is a step that sets the
refusal mark (R205). -/

namespace Sys2Proof.Machine

/-- A reserved opcode: `ReservedOpcode`, unless an earlier reason of 60_exceptions.md R212 applies. -/
def reservedOpcode (s : State) : Result := admitted (admission .reserved false true true s) hold s

/-- op 0x0 (60_exceptions.md R207). -/
def execReserved0 (_ : BitVec 28) (s : State) : Result := reservedOpcode s

/-- op 0xE (60_exceptions.md R207). -/
def execReservedE (_ : BitVec 28) (s : State) : Result := reservedOpcode s

end Sys2Proof.Machine
end

