-- ==== Sys2Proof/Machine/Transport.lean ====
section
/-! DEFINITION. The word-transfer controller (spec/40_word_transport.md): SENDWORD and the controller's, the host's and the
tick source's turns. -/

namespace Sys2Proof.Machine

/-- SENDWORD (40_word_transport.md R101): starts the transfer of one word; while another is in progress the encoder holds. -/
def execSendword (v : Word) (s : State) : Result :=
  admitted (admission .internal false true true s) (fun s => if s.tbusy then hold s else .next (emit v s)) s

/-- The tier's rule (40_word_transport.md R106): `SLOW` once the ticks of the wait reach `SPIN_TICKS` with BUSY still 1. -/
def escalate (s : State) : State := if s.params.spinTicks ≤ s.tticks then { s with tier := .slow } else s

/-- A MODERN handshake (40_word_transport.md R103): the next byte of the word, least significant first. -/
def handshake (s : State) : State :=
  let t := channelWrite ((wordByte s.tword s.hidx).setWidth 32) s
  if s.hidx + 1 = 4 then { t with hidx := s.hidx + 1, tbusy := false }
  else { t with hidx := s.hidx + 1, tier := .fast, tticks := 0 }

/-- The LEGACY write (40_word_transport.md R104): the whole word. -/
def wordWrite (s : State) : State := { channelWrite s.tword s with tbusy := false }

/-- The controller's turn: a poll (40_word_transport.md R102), and on BUSY = 0 the write of the variant. A poll that finds
BUSY = 1 changes the timing fields only. -/
def controllerTurn (s : State) : Result :=
  if s.inited && s.tbusy then
    if pollBusy s then .next (escalate s)
    else
      match s.params.variant with
      | .modern => if s.hidx < 4 then .next (handshake s) else hold s
      | .legacy => .next (wordWrite s)
  else hold s

/-- The host's turn (60_exceptions.md R215): it takes the channel's value and clears BUSY. All agents start when INIT
completes (R222). -/
def hostTurn (s : State) : Result :=
  if s.inited && s.chBusy then .next { s with hostrx := s.hostrx ++ [s.chData], chBusy := false } else hold s

/-- A tick (40_word_transport.md R106, 60_exceptions.md R220): it counts while the controller waits on BUSY. -/
def tickTurn (s : State) : Result :=
  if s.inited && s.tbusy && s.chBusy then .next (escalate { s with tticks := s.tticks + 1 }) else hold s

end Sys2Proof.Machine
end

