-- ==== Sys2Proof/Machine/Dispatch.lean ====
section
/-! DEFINITION. The meaning of every instruction: one arm per constructor. -/

namespace Sys2Proof.Machine

def exec (i : Instr) (s : State) : Host.Outcome State Fault Refusal :=
  match i with
  | .reserved0 rest => Sys2Proof.Machine.execReserved0 rest s
  | .free => Sys2Proof.Machine.execFree s
  | .enqf n p => Sys2Proof.Machine.execEnqf n p s
  | .enqc c => Sys2Proof.Machine.execEnqc c s
  | .putc c => Sys2Proof.Machine.execPutc c s
  | .putb n p => Sys2Proof.Machine.execPutb n p s
  | .deq => Sys2Proof.Machine.execDeq s
  | .sendword v => Sys2Proof.Machine.execSendword v s
  | .etrace id => Sys2Proof.Machine.execEtrace id s
  | .eascii n p => Sys2Proof.Machine.execEascii n p s
  | .ehex1 n p => Sys2Proof.Machine.execEhex1 n p s
  | .ehex2 n p => Sys2Proof.Machine.execEhex2 n p s
  | .ehex4 n p => Sys2Proof.Machine.execEhex4 n p s
  | .echar c => Sys2Proof.Machine.execEchar c s
  | .reservedE rest => Sys2Proof.Machine.execReservedE rest s
  | .init n => Sys2Proof.Machine.execInit n s
  | .hdrTrace id => Sys2Proof.Machine.execHdrTrace id s
  | .hdrAscii n => Sys2Proof.Machine.execHdrAscii n s
  | .hdrHex1 n => Sys2Proof.Machine.execHdrHex1 n s
  | .hdrHex2 n => Sys2Proof.Machine.execHdrHex2 n s
  | .hdrHex4 n => Sys2Proof.Machine.execHdrHex4 n s
  | .hdrChar c => Sys2Proof.Machine.execHdrChar c s
  | .qfFrame len => Sys2Proof.Machine.execQfFrame len s
  | .qfChar c => Sys2Proof.Machine.execQfChar c s

end Sys2Proof.Machine
end

