-- ==== Sys2Proof/Machine/Sequencer.lean ====
section
/-! DEFINITION. The consumer sequencer's turn (spec/43_consumer.md R175, R176): which of its steps is taken, and where the
step finds its instruction: the FIFO's byte stream or the direct latch. -/

namespace Sys2Proof.Machine

/-- The sequencer issues inside the block. -/
def asSequencer (s : State) : State := { s with issuer := ⟨.sequencer, none⟩ }

/-- The FIFO byte at an index. -/
def peek (s : State) (i : Nat) : Byte := s.buf.byteAt i

/-- The bytes of the FIFO's stream that name the sequencer's next unit: at a boundary the two oldest bytes held; after a
marker, which is already taken, the marker and the oldest byte held (30_encoding.md R81, R82). -/
def fetchBytes (s : State) : List Byte :=
  match s.phase with
  | .streamChar => [0, peek s s.rd]
  | .awaitLength => [peek s s.rd, peek s (adv s s.rd)]
  | .streamFrame => [peek s s.rd, peek s (adv s s.rd)]
  | .direct => [peek s s.rd, peek s (adv s s.rd)]

/-- The FIFO form the sequencer executes next (43_consumer.md R170 to R174): the one its decoder reads from the FIFO. -/
def fifoStep (s : State) : Result :=
  match decodeFifo (fetchBytes s) with
  | .ok (i, _) => exec i (asSequencer s)
  | .error _ => hold s

/-- The header word's instruction of a direct command (41_frame_encoder.md R127 to R132). -/
def headerInstr : DirectCmd → Instr
  | .trace id => .hdrTrace id
  | .body .ascii n _ => .hdrAscii n
  | .body .hex1 n _ => .hdrHex1 n
  | .body .hex2 n _ => .hdrHex2 n
  | .body .hex4 n _ => .hdrHex4 n
  | .char c => .hdrChar c

/-- The direct start step (43_consumer.md R175): `S.phase <- DIRECT; S.dstate <- ACTIVE`, then the command's header step. A
sequencer that starts a command is not suspended, so `S.cwait` is 0 (10_state.md R34, log 21). -/
def directStart (s : State) : Result :=
  match s.dreq with
  | some cmd => exec (headerInstr cmd) (asSequencer { s with phase := .direct, dstate := .active, cwait := false })
  | none => hold s

/-- The frame body step (43_consumer.md R172): a byte from the FIFO enters the word; the last one returns to AWAIT_LENGTH. -/
def frameStep (s : State) : Result :=
  andThen (take (asSequencer s)) (fun r =>
    .next (unitStep (r.1.setWidth 32) { r.2 with phase := if s.rem = 1 then .awaitLength else .streamFrame }))

/-- The direct body step (41_frame_encoder.md R124): the head of `S.dpay` enters the word. -/
def directUnit (s : State) : Result :=
  match s.dpay with
  | e :: rest => .next (unitStep e { asSequencer s with dpay := rest })
  | [] => hold s

/-- The finish step of a direct command (41_frame_encoder.md R121). -/
def directFinish (s : State) : Result := .next { asSequencer s with phase := .awaitLength, dstate := .done }

/-- At a message boundary (43_consumer.md R175, R176): the FIFO's length step if it holds a byte, the direct start if a command
is pending, the suspend step if there is nothing to take and it has not been taken; where the FIFO and the latch are both
ready, or the suspend step and the latch, `preferDirect` chooses. -/
def boundaryStep (preferDirect : Bool) (s : State) : Result :=
  if preferDirect && decide (s.dstate = .pending) then directStart s
  else if 0 < s.cnt then fifoStep s
  else if s.cwait = false then suspend s
  else if s.dstate = .pending then directStart s
  else hold s

/-- The sequencer's turn (43_consumer.md R176): no step while a transfer is in progress (41_frame_encoder.md R123), and none
before INIT completes (60_exceptions.md R222). -/
def sequencerTurn (preferDirect : Bool) (s : State) : Result :=
  if s.inited && decide (s.tbusy = false) then
    match s.phase with
    | .awaitLength => boundaryStep preferDirect s
    | .streamFrame => if 0 < s.rem ∧ 0 < s.cnt then frameStep s else hold s
    | .streamChar => if 0 < s.cnt then fifoStep s else hold s
    | .direct => if 0 < s.rem then directUnit s else directFinish s
  else hold s

end Sys2Proof.Machine
end

