-- ==== Sys2Proof/Machine/Turns.lean ====
section
/-! DEFINITION. A turn of any agent: command transactions (spec/30_encoding.md R71, 44_producer_port.md R185), and the fetch of
the next turn. -/

namespace Sys2Proof.Machine

/-- A transaction comes from an agent there is: producers are P1..PNPROD (00_scope.md R8, log 27). -/
def agentExists (s : State) : Agent → Bool
  | .producer i => decide (1 ≤ i) && decide (i ≤ s.params.nprod)
  | .client => true
  | .sequencer => true
  | .interruptHandler _ => true

/-- The write port is free for a transaction: no other producer holds the grant (10_state.md R40, 44_producer_port.md R185,
log 26). -/
def portFree (t : Transaction) (s : State) : Bool :=
  match t.port, s.grant with
  | .producer, some j => decide (t.agent = .producer j)
  | .producer, none => true
  | .direct, _ => true

/-- The direct client holds (60_exceptions.md R213, LatchFull): while the latch is full it has no step that issues a command,
whatever the command (log 22). -/
def clientHolds (t : Transaction) (s : State) : Bool :=
  decide (t.agent = .client) && s.inited && latchFull s

/-- What is wrong with a command word that does not decode (30_encoding.md R74), in its place in the order of
60_exceptions.md R212: the opcode it has, and a must-be-zero bit set counts as an operand out of range (R208). A SENDWORD
with no operand word, which R209 does not list, counts as a payload of the wrong length. -/
def illegalReason (e : DecodeError) (s : State) : Option Reason :=
  match e with
  | .mustBeZero op => admission (opClass op) (decide (op = 15)) false true s
  | .missingOperandWord => admission .internal false true false s
  | .reservedHeader _ => none
  | .emptyStream => none
  | .missingCharacter => none

/-- A command transaction: the word is decoded and executed, or refused (60_exceptions.md R205). -/
def commandTurn (t : Transaction) (s : State) : Result :=
  if agentExists s t.agent = false then .refused .noSuchAgent
  else if portFree t s = false then hold s
  else if clientHolds t s then hold s
  else
    let s' := { s with issuer := ⟨t.agent, some t.port⟩ }
    match decodeCommand t.word t.payload with
    | .ok i => exec i s'
    | .error e => admitted (illegalReason e s') hold s'

/-- One turn. -/
def runTurn (t : Turn) (s : State) : Result :=
  match t with
  | .command tr => commandTurn tr s
  | .sequencer preferDirect => sequencerTurn preferDirect s
  | .controller => controllerTurn s
  | .client => clientTurn s
  | .host => hostTurn s
  | .tick => tickTurn s

/-- The next turn: the first one of the inbox, or a free value if none is scheduled (60_exceptions.md R217, log 1, log 2). -/
def nextTurn (s : State) : Turn :=
  match s.inbox with
  | t :: _ => t
  | [] => Config.freeTurn s.draws

/-- The state once the next turn is fetched. -/
def popTurn (s : State) : State :=
  match s.inbox with
  | _ :: rest => { s with inbox := rest }
  | [] => { s with draws := s.draws + 1 }

/-! ### Placing an instruction for the next step (log 18) -/

/-- The agent and port a command word arrives from: the direct client for a direct opcode, else producer P1. -/
def portOf (w : Word) : Agent × Port :=
  match opClass (opField w) with
  | .direct => (.client, .direct)
  | .producer => (.producer 1, .producer)
  | .reserved => (.producer 1, .producer)
  | .internal => (.producer 1, .producer)

/-- The direct command whose message has the given header instruction, its units zero. -/
def directOf : Instr → DirectCmd
  | .hdrTrace id => .trace id
  | .hdrAscii n => .body .ascii n (List.replicate n.toNat 0)
  | .hdrHex1 n => .body .hex1 n (List.replicate n.toNat 0)
  | .hdrHex2 n => .body .hex2 n (List.replicate n.toNat 0)
  | .hdrHex4 n => .body .hex4 n (List.replicate n.toNat 0)
  | .hdrChar c => .char c
  | .reserved0 _ | .free | .enqf _ _ | .enqc _ | .putc _ | .putb _ _ | .deq | .sendword _ | .etrace _ | .eascii _ _
  | .ehex1 _ _ | .ehex2 _ _ | .ehex4 _ _ | .echar _ | .reservedE _ | .init _ | .qfFrame _ | .qfChar _ => .trace 0

/-- A command word stands as the next transaction. -/
def placeCommand (w : Word) (p : Payload) (s : State) : State :=
  { s with mark := none, grant := none, inbox := .command ⟨(portOf w).1, (portOf w).2, w, p⟩ :: s.inbox }

/-- A header word stands as the direct command whose message it begins, pending in the latch of an idle block, and the
sequencer has the next turn. -/
def placeHeader (h : Word) (s : State) : State :=
  match decodeHeader h with
  | .ok i =>
    { latch (directOf i) s with
      mark := none, inited := true, phase := .awaitLength, rem := 0, acc := 0, k := 0, tbusy := false,
      inbox := .sequencer true :: s.inbox }
  | .error _ => placeCommand h (.bytes []) s

/-- The bytes that follow a FIFO form's own: a frame's payload, zeros. -/
def formTail : List Byte → List Byte
  | [len] => List.replicate len.toNat 0
  | _ => []

/-- A FIFO form stands, with its payload, as the only bytes of the FIFO of an idle block, and the sequencer has the next
turn. -/
def placeFifo (bs : List Byte) (s : State) : State :=
  { enqueued (bs ++ formTail bs) { s with buf := [], rd := 0, wr := 0, cnt := 0, nin := 0, nout := 0, cap := s.params.capmax } with
    mark := none, inited := true, phase := .awaitLength, rem := 0, acc := 0, k := 0, tbusy := false,
    inbox := .sequencer false :: s.inbox }

/-- The encoded instruction placed where the next step fetches it. -/
def place (e : Encoded) (s : State) : State :=
  match e with
  | .command w p => placeCommand w p s
  | .header h => placeHeader h s
  | .fifo bs => placeFifo bs s

end Sys2Proof.Machine
end

