-- ==== Sys2Proof/Machine/Step.lean ====
section
/-! DEFINITION. One step of the block: the next turn is fetched and taken. -/

namespace Sys2Proof.Machine

/-- One step. A run in which a command has been refused has no further meaning (60_exceptions.md R205, log 4). -/
def step (s : State) : Host.Outcome State Fault Refusal :=
  match s.mark with
  | some r => .refused (.markedRun r)
  | none => runTurn (nextTurn s) (popTurn s)

/-- `s` with the opcode table's word `w` of `nbits` bits placed where the next step fetches its instruction (log 17,
log 18). -/
def State.withFetchWord (s : State) (nbits w : Nat) : State := place (tableEncoded nbits w) s

end Sys2Proof.Machine
end

