-- ==== Sys2Proof/Machine/Message.lean ====
section
/-! DEFINITION. Messages as a whole: the words of a message (41_frame_encoder.md R126, R134), how the host reads the word
stream (30_encoding.md R79), and its reassembly of words from bytes (40_word_transport.md R110). No step calls these: they
are the observation that claims are stated in. -/

namespace Sys2Proof.Machine

/-- One body word: `Σ_{j < m} zext_32(xs[j]) << (8u*j)` (41_frame_encoder.md R126). -/
def packWord (u : UnitSize) : List Word → Word
  | [] => 0
  | x :: xs => x + (packWord u xs) <<< (8 * u.bytes)

/-- `pack_u` with fuel: `4/u` units a word while any are left. -/
def packFuel (u : UnitSize) : Nat → List Word → List Word
  | 0, _ => []
  | _ + 1, [] => []
  | fuel + 1, x :: xs =>
    packWord u ((x :: xs).take u.perWord) :: packFuel u fuel ((x :: xs).drop u.perWord)

/-- `pack_u(units)` (41_frame_encoder.md R126). -/
def packBody (u : UnitSize) (xs : List Word) : List Word := packFuel u xs.length xs

/-- The number of body words of `n` units, `ceil(n*u/4)` (30_encoding.md R77, 41_frame_encoder.md R126). -/
def bodyWords (u : UnitSize) (n : Nat) : Nat := (n * u.bytes + 3) / 4

/-- `words(m)` (41_frame_encoder.md R134). -/
def messageWords : Message → List Word
  | .trace id => [traceHeader id]
  | .body kind units => bodyHeader kind (BitVec.ofNat 16 units.length) :: packBody kind.unit units
  | .char c => [charHeader c]

/-- A message the encoder accepts: at most 65535 units (30_encoding.md R73), each of its unit size. -/
def Message.ok : Message → Bool
  | .trace _ => true
  | .body kind units =>
    decide (units.length ≤ 65535) && units.all (fun e => decide (e.toNat < 2 ^ (8 * (BodyKind.unit kind).bytes)))
  | .char _ => true

/-- The message a direct command asks for. -/
def messageOf : DirectCmd → Message
  | .trace id => .trace id
  | .body kind _ units => .body kind units
  | .char c => .char c

/-- The units of one body word, the first in the low bits (30_encoding.md R78). -/
def unpackWord (u : UnitSize) (w : Word) : List Word :=
  (List.range u.perWord).map (fun j => BitVec.ofNat 32 (w.toNat / 2 ^ (8 * u.bytes * j) % 2 ^ (8 * u.bytes)))

/-- Reads `n` units of a body from the words after a header; units past `n` in the last word are discarded
(30_encoding.md R79). -/
def decodeBody (kind : BodyKind) (n : Nat) (ws : List Word) : Option (Message × List Word) :=
  let b := bodyWords kind.unit n
  if b ≤ ws.length then
    some (.body kind (((ws.take b).flatMap (unpackWord kind.unit)).take n), ws.drop b)
  else none

/-- How the host reads the word stream (30_encoding.md R79): the next message and the words after it; nothing for a reserved
header (R80) or a message that is not whole. -/
def decodeMessage : List Word → Option (Message × List Word)
  | [] => none
  | h :: ws =>
    match decodeHeader h with
    | .ok (.hdrTrace id) => some (.trace id, ws)
    | .ok (.hdrChar c) => some (.char c, ws)
    | .ok (.hdrAscii n) => decodeBody .ascii n.toNat ws
    | .ok (.hdrHex1 n) => decodeBody .hex1 n.toNat ws
    | .ok (.hdrHex2 n) => decodeBody .hex2 n.toNat ws
    | .ok (.hdrHex4 n) => decodeBody .hex4 n.toNat ws
    | _ => none

/-- The channel values of one word: four bytes, least significant first, in MODERN; the word in LEGACY
(40_word_transport.md R103, R104). -/
def channelValues (v : Variant) (w : Word) : List Word :=
  match v with
  | .modern => [(wordByte w 0).setWidth 32, (wordByte w 1).setWidth 32, (wordByte w 2).setWidth 32, (wordByte w 3).setWidth 32]
  | .legacy => [w]

/-- The host's reassembly in MODERN: word `q` is `B0 | (B1 << 8) | (B2 << 16) | (B3 << 24)` (40_word_transport.md R110). -/
def reassembleBytes : List Word → List Word
  | b0 :: b1 :: b2 :: b3 :: rest => (b0 ||| (b1 <<< 8) ||| (b2 <<< 16) ||| (b3 <<< 24)) :: reassembleBytes rest
  | _ => []

/-- The host's reassembly of the word stream (40_word_transport.md R110). -/
def reassemble (v : Variant) (values : List Word) : List Word :=
  match v with
  | .modern => reassembleBytes values
  | .legacy => values

/-- The words a body still yields, by the encoder's own unit rule: `acc` holds `k` units of the word being built. -/
def packRest (u : UnitSize) : Word → Nat → List Word → List Word
  | _, _, [] => []
  | acc, k, e :: es =>
    (packUnit u acc k es.length e).2.2.toList ++ packRest u (packUnit u acc k es.length e).1 (packUnit u acc k es.length e).2.1 es

end Sys2Proof.Machine
end

