-- ==== Sys2Proof/Safety.lean ====
section
/-! DEFINITION. What claims are stated in: the bytes the FIFO holds, the invariants of a run (10_state.md R26, R39, R45;
42_fifo.md R160), the words a message still owes, and the end of a run (60_exceptions.md R225). -/

namespace Sys2Proof.Machine

/-- The bytes held, oldest first: `S.buf[(S.rd + j) mod S.cap]` for `j = 0 .. S.cnt-1` (10_state.md R26). -/
def held (s : State) : List Byte := (List.range s.cnt).map (fun j => peek s ((s.rd + j) % s.cap))

/-- The storage indices the next `m` bytes are written to (42_fifo.md R154). -/
def writtenIndices (s : State) (m : Nat) : List Nat := (List.range m).map (fun j => (s.wr + j) % s.cap)

/-- The state after a refusal: the mark is set, with the reason of the first refusal (60_exceptions.md R205). -/
def marked (r : Reason) (s : State) : State :=
  { s with mark := match s.mark with | some r' => some r' | none => some r }

/-- The state after a command of producer `i` that gives a result and changes nothing else (10_state.md R41). -/
def answered (i : Nat) (v : Word) (s : State) : State := { s with resp := setResp s.resp i v }

/-- `t` is `s` after producer `i`'s command enqueued the bytes `bs` and got the response `v`: the bytes are held behind the
ones held before, each at its own index of the storage from `S.wr` on; no other byte of the storage changes, and no other field
but the sequencer's wait bit, which this does not say. -/
def enqueuedTo (s t : State) (i : Nat) (bs : List Byte) (v : Word) : Prop :=
  held t = held s ++ bs ∧
  t = { s with buf := t.buf, wr := (s.wr + bs.length) % s.cap, cnt := s.cnt + bs.length, nin := s.nin + bs.length,
               cwait := t.cwait, resp := setResp s.resp i v } ∧
  (∀ j, j < bs.length → t.buf.read ((s.wr + j) % s.cap) = bs[j]?) ∧
  (∀ a, a ∉ writtenIndices s bs.length → t.buf.read a = s.buf.read a)

/-- After INIT, a command of producer `i` on the producer port. -/
def byProducer (i : Nat) (s : State) : Prop := s.inited = true ∧ s.issuer = ⟨.producer i, some .producer⟩

/-- After INIT, a command of the direct client on the direct port. -/
def byClient (s : State) : Prop := s.inited = true ∧ s.issuer = ⟨.client, some .direct⟩

/-- After INIT, an operation of the sequencer and its encoder, inside the block. -/
def bySequencer (s : State) : Prop := s.inited = true ∧ s.issuer = ⟨.sequencer, none⟩

/-- A command of the given class is admitted from the state's issuer: the block is initialised and the agent and port are the
class's own (60_exceptions.md R206, R210, R211). -/
def admits (c : OpClass) (s : State) : Prop := s.inited = true ∧ permitted c s.issuer = true

/-- The FIFO's invariant (10_state.md R22 to R27, R44): indices and count in range, the write index where the count puts it,
the ghost totals, the storage in canonical form and inside the bytes used, and every byte held written. -/
structure FifoInv (s : State) : Prop where
  capLow : 2 ≤ s.cap
  capHigh : s.cap ≤ s.params.capmax
  rdLt : s.rd < s.cap
  wrEq : s.wr = (s.rd + s.cnt) % s.cap
  cntLe : s.cnt ≤ s.cap
  totals : s.nin = s.nout + s.cnt
  wf : s.buf.wf = true
  inside : ∀ a, s.buf.read a ≠ none → a < s.cap
  written : ∀ j, j < s.cnt → s.buf.read ((s.rd + j) % s.cap) ≠ none

/-- A whole unit of the FIFO's byte stream (30_encoding.md R81, R82): a frame of 1 to 255 bytes or a raw character. -/
def FifoUnit.ok : FifoUnit → Prop
  | .frame payload => 1 ≤ payload.length ∧ payload.length ≤ 255
  | .char _ => True

/-- The bytes of a unit. -/
def FifoUnit.bytes : FifoUnit → List Byte
  | .frame payload => frameBytes payload.length payload
  | .char c => charBytes c

/-- A sequence of whole units (42_fifo.md R160). -/
def wholeUnits (bs : List Byte) : Prop := ∃ us : List FifoUnit, (∀ u ∈ us, FifoUnit.ok u) ∧ us.flatMap FifoUnit.bytes = bs

/-- The bytes still owed to the sequencer for the unit it is inside of (10_state.md R45). -/
def owed (s : State) : Nat :=
  match s.phase with
  | .awaitLength => 0
  | .streamFrame => s.rem
  | .streamChar => 1
  | .direct => 0

/-- The FIFO holds the bytes owed and then whole units (10_state.md R45, 42_fifo.md R160). -/
def FramesInv (s : State) : Prop := owed s ≤ s.cnt ∧ wholeUnits ((held s).drop (owed s))

/-- The sequencer's and encoder's fields in each phase (10_state.md R30 to R33, R35, R45). -/
def EncoderInv (s : State) : Prop :=
  (s.k = 0 → s.acc = 0) ∧ s.k < s.unit.perWord ∧ (s.rem = 0 → s.k = 0) ∧
  (s.phase = .direct ↔ s.dstate = .active) ∧
  match s.phase with
  | .awaitLength => s.rem = 0
  | .streamChar => s.rem = 0
  | .streamFrame => s.unit = .one ∧ 1 ≤ s.rem ∧ s.rem ≤ 255
  | .direct => s.dpay.length = s.rem

/-- A direct command as the port accepts it: the count is the number of units, and every unit has the message's size
(60_exceptions.md R209). -/
def cmdOk : DirectCmd → Prop
  | .trace _ => True
  | .body kind n units => units.length = n.toNat ∧ Message.ok (.body kind units) = true
  | .char _ => True

/-- The latch's fields by its status (10_state.md R35). -/
def LatchInv (s : State) : Prop :=
  match s.dstate with
  | .none => s.dreq = none ∧ s.dpay = []
  | .pending => ∃ cmd, s.dreq = some cmd ∧ cmdOk cmd ∧ s.dpay = directPayload cmd
  | .active => s.dreq ≠ none
  | .done => s.dreq ≠ none ∧ s.dpay = []

/-- The controller's byte index (10_state.md R36): at most 4, and below 4 while a transfer is in progress. -/
def TransferInv (s : State) : Prop := s.hidx ≤ 4 ∧ (s.tbusy = true → s.hidx < 4)

/-- The sequencer is suspended only while it waits at a boundary for a byte and none is held (10_state.md R34, R45). -/
def WaitInv (s : State) : Prop := s.cwait = true → s.cnt = 0 ∧ s.phase = .awaitLength ∧ s.tbusy = false

/-- The channel (10_state.md R39): what was written is what the host took and the value it has not yet taken, but for a value
that was already in a busy channel when INIT completed (log 10). -/
def ChannelInv (s : State) : Prop :=
  ∃ stale : List Word, stale.length ≤ 1 ∧ stale ++ s.wire = s.hostrx ++ (if s.chBusy then [s.chData] else [])

/-- The invariant of every run: nothing is claimed before INIT (70_reset_and_hazards.md R232); after it, all of the above, and
the write port is not held between steps (10_state.md R40). -/
structure Inv (s : State) : Prop where
  fifo : s.inited = true → FifoInv s
  frames : s.inited = true → FramesInv s
  encoder : s.inited = true → EncoderInv s
  latch : s.inited = true → LatchInv s
  transfer : s.inited = true → TransferInv s
  wait : s.inited = true → WaitInv s
  channel : s.inited = true → ChannelInv s
  portIdle : s.inited = true → s.grant = none

/-- The body words the sequencer still owes the message it is inside of, by the packing rule (41_frame_encoder.md R126). -/
def bodyOwed (s : State) : List Word :=
  match s.phase with
  | .awaitLength => []
  | .streamFrame => packRest s.unit s.acc s.k (((held s).take s.rem).map (·.setWidth 32))
  | .streamChar => []
  | .direct => packRest s.unit s.acc s.k s.dpay

/-- The word a step issued: none unless it started a transfer. -/
def issued (s : State) : List Word := if s.tbusy then [s.tword] else []

/-- Turns taken one after the other. -/
def runTurns : List Turn → State → Result
  | [], s => .next s
  | t :: ts, s =>
    match runTurn t s with
    | .next s' => runTurns ts s'
    | .fault f => .fault f
    | .refused r => .refused r

/-- The turn changes nothing: its agent has no enabled step (60_exceptions.md R213). -/
def holds (t : Turn) (s : State) : Prop := runTurn t s = .next s

/-! ### The end of a run (60_exceptions.md R225) -/

/-- The turn's agent has an enabled step: a command unless its agent holds (60_exceptions.md R213), the sequencer by the rows of
43_consumer.md R176, the controller by 40_word_transport.md R103, R104, the client by 41_frame_encoder.md R121, the host by
60_exceptions.md R215. The tick source has no functional effect (00_scope.md R8) and is not counted. -/
def hasStep (t : Turn) (s : State) : Bool :=
  match t with
  | .command tr => !(agentExists s tr.agent && (!portFree tr s || clientHolds tr s))
  | .sequencer _ =>
    s.inited && !s.tbusy &&
    match s.phase with
    | .awaitLength => decide (0 < s.cnt) || !s.cwait || decide (s.dstate = .pending)
    | .streamFrame => decide (0 < s.rem) && decide (0 < s.cnt)
    | .streamChar => decide (0 < s.cnt)
    | .direct => true
  | .controller => s.inited && s.tbusy && !s.chBusy && (decide (s.params.variant = .legacy) || decide (s.hidx < 4))
  | .client => s.inited && decide (s.dstate = .done)
  | .host => s.inited && s.chBusy
  | .tick => false

/-- The turn is some agent's to take: any turn of the block's own agents and the host, and of the commands those that the
agents still have to issue, the scheduled ones (10_state.md R46). DESIGN CHOICE: those in `S.inbox` (log 1); a free turn (log 2) is
not still to come. -/
def pendingTurn (t : Turn) (s : State) : Prop := ∀ tr, t = .command tr → t ∈ s.inbox

/-- The run has ended: no agent has an enabled step. The host may never act (60_exceptions.md R215); `hostActs` says whether
its step counts. -/
def ended (hostActs : Bool) (s : State) : Prop :=
  ∀ t : Turn, pendingTurn t s → (t = .host → hostActs = true) → hasStep t s = false

/-- Nothing held, nothing in progress: the fields a clean end names. -/
def drained (s : State) : Prop :=
  s.cnt = 0 ∧ s.phase = .awaitLength ∧ s.tbusy = false ∧ s.dstate = .none ∧ s.chBusy = false

/-- The run has ended cleanly: every accepted byte has been sent and taken. -/
def endedCleanly (s : State) : Prop := ended true s ∧ drained s

/-- The run has ended, the host not acting, and not cleanly. -/
def endedStuck (s : State) : Prop := ended false s ∧ ¬ endedCleanly s

end Sys2Proof.Machine
end

