-- ==== Sys2Proof/WellFormed.lean ====
section
/-! DEFINITION. Well-formed instructions: the admitted operand ranges of 30_encoding.md R73, R74, R81 and the payload rule of
R72. -/

namespace Sys2Proof

/-- The payload holds exactly `n` units of the given size (30_encoding.md R72); the empty list holds 0 units of any size. -/
def Payload.hasUnits (u : UnitSize) (n : Nat) : Payload → Bool
  | .bytes l => decide (l.length = n) && (decide (u = .one) || decide (n = 0))
  | .halves l => decide (l.length = n) && (decide (u = .two) || decide (n = 0))
  | .words l => decide (l.length = n) && (decide (u = .four) || decide (n = 0))

/-- A well-formed instruction: not a reserved opcode, every operand in the range of 30_encoding.md R73, the payload of
exactly `n` units (R72), and a FIFO frame's length not zero (R81). The upper bound `CAPMAX` of INIT is a parameter's, and
is checked where INIT is executed. -/
def Instr.wellFormed : Instr → Bool
  | .reserved0 _ => false
  | .free => true
  | .enqf n p => decide (1 ≤ n.toNat) && decide (n.toNat ≤ 255) && p.hasUnits .one n.toNat
  | .enqc _ => true
  | .putc _ => true
  | .putb n p => p.hasUnits .one n.toNat
  | .deq => true
  | .sendword _ => true
  | .etrace _ => true
  | .eascii n p => p.hasUnits .one n.toNat
  | .ehex1 n p => p.hasUnits .one n.toNat
  | .ehex2 n p => p.hasUnits .two n.toNat
  | .ehex4 n p => p.hasUnits .four n.toNat
  | .echar _ => true
  | .reservedE _ => false
  | .init n => decide (2 ≤ n.toNat)
  | .hdrTrace _ => true
  | .hdrAscii _ => true
  | .hdrHex1 _ => true
  | .hdrHex2 _ => true
  | .hdrHex4 _ => true
  | .hdrChar _ => true
  | .qfFrame len => decide (len ≠ 0)
  | .qfChar _ => true

end Sys2Proof
end

