-- ==== Sys2Proof/Certificates/Slice0/Obligations.lean ====
section
/-! DEFINITION. The statements for the provers. -/

open Sys2Proof Sys2Proof.Machine

/-- Decoding the encoding of any instruction gives it back (R71, R72, R73, R77, R81, R82). -/
def Obligations.EveryInstructionDecodesBack : Prop :=
  ∀ i : Instr, i.encodable = true → decode (encode i) = .ok i

/-- A command word that decodes is the encoding of what it decodes to (R71, R73, R74). -/
def Obligations.CommandWordHasOneReading : Prop :=
  ∀ (w : Word) (p : Payload) (i : Instr), decodeCommand w p = .ok i → ∃ q, encode i = .command w q

/-- Words written out from the spec's encodings decode as the spec says (R71, R73, R77, R79, R80, R81, R82). -/
def Obligations.SpecWordsDecode : Prop :=
  decodeCommand 0x0008000F (.bytes []) = .ok (.init 8) ∧
  decodeCommand 0x00000001 (.bytes []) = .ok .free ∧
  decodeCommand 0x00000011 (.bytes []) = .error (.mustBeZero 1) ∧
  decodeCommand 0x00030002 (.bytes [1, 2, 3]) = .ok (.enqf 3 (.bytes [1, 2, 3])) ∧
  decodeCommand 0x00004103 (.bytes []) = .ok (.enqc 0x41) ∧
  decodeCommand 0x00014103 (.bytes []) = .error (.mustBeZero 3) ∧
  decodeCommand 0x00002104 (.bytes []) = .ok (.putc 0x21) ∧
  decodeCommand 0xFFFF0005 (.bytes []) = .ok (.putb 65535 (.bytes [])) ∧
  decodeCommand 0x12345608 (.bytes []) = .ok (.etrace 0x123456) ∧
  decodeCommand 0x0003000B (.halves [1, 2, 3]) = .ok (.ehex2 3 (.halves [1, 2, 3])) ∧
  decodeCommand 0x00005A0D (.bytes []) = .ok (.echar 0x5A) ∧
  decodeHeader 0x12345600 = .ok (.hdrTrace 0x123456) ∧
  decodeHeader 0x00000A02 = .ok (.hdrChar 0x0A) ∧
  decodeHeader 0x00050001 = .ok (.hdrAscii 5) ∧
  decodeHeader 0x00030201 = .ok (.hdrHex2 3) ∧
  decodeHeader 0x00000401 = .ok (.hdrHex4 0) ∧
  decodeHeader 0x00000301 = .error (.reservedHeader 0x00000301) ∧
  decodeHeader 0x00000003 = .error (.reservedHeader 0x00000003) ∧
  decodeFifo [2, 0x48, 0x69] = .ok (.qfFrame 2, [0x48, 0x69]) ∧
  decodeFifo [0, 0x0A, 7] = .ok (.qfChar 0x0A, [7])

/-- The host's reading of a message's words gives the message back (R135). -/
def Obligations.MessageDecodesBack : Prop :=
  ∀ (m : Message) (rest : List Word), Message.ok m = true →
    decodeMessage (messageWords m ++ rest) = some (m, rest)

/-- The encoder's unit-by-unit packing yields exactly the words of the closed form (R124, R125, R126). -/
def Obligations.EncoderPacksAsClosedForm : Prop :=
  ∀ (u : UnitSize) (xs : List Word), (∀ e ∈ xs, e.toNat < 2 ^ (8 * u.bytes)) →
    packRest u 0 0 xs = packBody u xs ∧ (packBody u xs).length = bodyWords u xs.length

/-- Unit j of a body word stands at bits [8u(j+1)-1 : 8uj] (R53). -/
def Obligations.BodyUnitsStandLittleEndian : Prop :=
  ∀ (u : UnitSize) (xs : List Word) (i : Nat) (h : i < xs.length), (∀ e ∈ xs, e.toNat < 2 ^ (8 * u.bytes)) →
    ((packRest u 0 0 xs)[i / u.perWord]?).map
      (fun w => w.toNat / 2 ^ (8 * u.bytes * (i % u.perWord)) % 2 ^ (8 * u.bytes)) = some xs[i].toNat

/-- The host reassembles the same word stream in both variants (R110, R111, R54). -/
def Obligations.VariantsDeliverTheSameWords : Prop :=
  ∀ (v : Variant) (ws : List Word), reassemble v (ws.flatMap (channelValues v)) = ws

/-- FREE returns the free space and changes nothing else (R151, R29, R75). -/
def Obligations.FreeReturnsFreeSpace : Prop :=
  ∀ (s : State) (i : Nat), byProducer i s → s.cnt ≤ s.cap →
    exec .free s = .next (answered i (BitVec.ofNat 32 (s.cap - s.cnt)) s)

/-- ENQF writes a whole frame and returns 1, or nothing and returns 0; its refusals (R152). -/
def Obligations.EnqfIsAllOrNothing : Prop :=
  ∀ (s : State) (i : Nat) (n : Half) (p : Payload), byProducer i s →
    (¬ (1 ≤ n.toNat ∧ n.toNat ≤ 255) → exec (.enqf n p) s = .next (marked .operandRange s)) ∧
    (1 ≤ n.toNat → n.toNat ≤ 255 → (¬ ∃ l, p = .bytes l ∧ l.length = n.toNat) →
      exec (.enqf n p) s = .next (marked .payloadLength s)) ∧
    (∀ l, 1 ≤ n.toNat → n.toNat ≤ 255 → p = .bytes l → l.length = n.toNat → s.cap < n.toNat + 1 + s.cnt →
      exec (.enqf n p) s = .next (answered i 0 s)) ∧
    (∀ l, 1 ≤ n.toNat → n.toNat ≤ 255 → p = .bytes l → l.length = n.toNat → n.toNat + 1 + s.cnt ≤ s.cap → FifoInv s →
      ∃ t, exec (.enqf n p) s = .next t ∧ enqueuedTo s t i (BitVec.ofNat 8 n.toNat :: l) 1 ∧
        isEmpty t = false ∧ (isFull t = true ↔ n.toNat + 1 = s.cap - s.cnt))

/-- ENQC writes the marker and the character and returns 1, or nothing and returns 0 (R153). -/
def Obligations.EnqcIsAllOrNothing : Prop :=
  ∀ (s : State) (i : Nat) (c : Byte), byProducer i s →
    (s.cap < 2 + s.cnt → exec (.enqc c) s = .next (answered i 0 s)) ∧
    (2 + s.cnt ≤ s.cap → FifoInv s →
      ∃ t, exec (.enqc c) s = .next t ∧ enqueuedTo s t i [0, c] 1 ∧
        isEmpty t = false ∧ (isFull t = true ↔ s.cap - s.cnt = 2))

/-- PUTC enqueues a raw character and returns it, or returns 0xFFFFFFFF; before INIT it is refused (R186). -/
def Obligations.PutcReturnsCharacterOrFailure : Prop :=
  (∀ (s : State) (i : Nat) (c : Byte), byProducer i s →
    (2 + s.cnt ≤ s.cap → FifoInv s →
      ∃ t, exec (.putc c) s = .next t ∧ enqueuedTo s t i [0, c] (c.setWidth 32) ∧
        isEmpty t = false ∧ (isFull t = true ↔ s.cap - s.cnt = 2)) ∧
    (s.cap < 2 + s.cnt → exec (.putc c) s = .next (answered i 0xFFFFFFFF s)) ∧
    (c.setWidth 32 : Word) ≠ 0xFFFFFFFF) ∧
  (∀ (s : State) (c : Byte), s.inited = false → exec (.putc c) s = .next (marked .notInitialised s))

/-- PUTB writes a frame of min(n, f-1, 255) bytes, a newline for n = 0, or nothing (R187, R188). -/
def Obligations.PutbTruncatesOrDrops : Prop :=
  (∀ (s : State) (i : Nat) (n : Half) (l : List Byte) (f t : Int), byProducer i s → l.length = n.toNat →
    f = (s.cap : Int) - (s.cnt : Int) → t = min (min (n.toNat : Int) (f - 1)) 255 →
    (1 ≤ t → FifoInv s → ∃ u, exec (.putb n (.bytes l)) s = .next u ∧
      enqueuedTo s u i (BitVec.ofNat 8 t.toNat :: l.take t.toNat) (BitVec.ofNat 32 t.toNat)) ∧
    (n.toNat = 0 → 2 ≤ f → FifoInv s → ∃ u, exec (.putb n (.bytes l)) s = .next u ∧ enqueuedTo s u i [0, 0x0A] 0) ∧
    (n.toNat = 0 → f < 2 → exec (.putb n (.bytes l)) s = .next (answered i 0 s)) ∧
    (n.toNat ≠ 0 → t < 1 → exec (.putb n (.bytes l)) s = .next (answered i 0 s)) ∧
    (f = 0 → t = -1)) ∧
  (∀ (s : State) (i : Nat) (n : Half) (p : Payload), byProducer i s → (¬ ∃ l, p = .bytes l ∧ l.length = n.toNat) →
    ¬ (n.toNat = 0 ∧ p.units = []) → exec (.putb n p) s = .next (marked .payloadLength s)) ∧
  (∀ (s : State) (p : Payload), p.units = [] → exec (.putb 0 p) s = exec (.putb 0 (.bytes [])) s) ∧
  (∀ (s : State) (n : Half) (p : Payload), s.inited = false → exec (.putb n p) s = .next (marked .notInitialised s))

/-- PUTB's result n' is at most min(n, 255) and at most max(f-1, 0) (R189). -/
def Obligations.PutbResultIsBounded : Prop :=
  ∀ (s : State) (i : Nat) (n : Half) (l : List Byte), byProducer i s → FifoInv s → l.length = n.toNat →
    ∃ (t : State) (r : Nat), exec (.putb n (.bytes l)) s = .next t ∧ respOf t i = some (BitVec.ofNat 32 r) ∧
      r ≤ min n.toNat 255 ∧ (r : Int) ≤ max ((s.cap : Int) - (s.cnt : Int) - 1) 0 ∧
      (0 < r → t.nin = s.nin + (r + 1) ∧ t.cnt = s.cnt + (r + 1)) ∧ (n.toNat = 0 → r = 0)

/-- Every well-formed producer command completes in one step, whatever the rest of the block does (R159). -/
def Obligations.ProducerCommandsNeverWait : Prop :=
  ∀ (s : State) (i : Nat) (c : Instr), byProducer i s → FifoInv s → c.wellFormed = true →
    (c = .free ∨ (∃ n p, c = .enqf n p) ∨ (∃ b, c = .enqc b) ∨ (∃ b, c = .putc b) ∨ (∃ n p, c = .putb n p)) →
    ∃ t, exec c s = .next t ∧ (∃ v, respOf t i = some v) ∧ t.mark = s.mark ∧
      t.phase = s.phase ∧ t.tbusy = s.tbusy ∧ t.chBusy = s.chBusy ∧ s.cnt ≤ t.cnt

/-- A command whose condition code is QF_DROP changes nothing but its response (R201, R203). -/
def Obligations.DroppedCommandsChangeOnlyTheResult : Prop :=
  ∀ (s : State) (i : Nat), byProducer i s → FifoInv s →
    (∀ (n : Half) (l : List Byte), 1 ≤ n.toNat → n.toNat ≤ 255 → l.length = n.toNat →
      conditionCode (.enqf n (.bytes l)) s = .qfDrop → exec (.enqf n (.bytes l)) s = .next (answered i 0 s)) ∧
    (∀ c, conditionCode (.enqc c) s = .qfDrop → exec (.enqc c) s = .next (answered i 0 s)) ∧
    (∀ c, conditionCode (.putc c) s = .qfDrop → exec (.putc c) s = .next (answered i 0xFFFFFFFF s)) ∧
    (∀ (n : Half) (l : List Byte), l.length = n.toNat → conditionCode (.putb n (.bytes l)) s = .qfDrop →
      exec (.putb n (.bytes l)) s = .next (answered i 0 s)) ∧
    (∀ (n : Half) (l : List Byte), l.length = n.toNat → conditionCode (.putb n (.bytes l)) s = .qfTrunc →
      ∃ (t : State) (r : Nat), exec (.putb n (.bytes l)) s = .next t ∧ respOf t i = some (BitVec.ofNat 32 r) ∧
        1 ≤ r ∧ r < n.toNat)

/-- DEQ removes the oldest byte held; on an empty FIFO it suspends (R155, R158, R154). -/
def Obligations.DeqTakesTheOldestByte : Prop :=
  ∀ s : State, bySequencer s → FifoInv s →
    (0 < s.cnt → ∃ (b : Byte) (t : State), exec .deq s = .next t ∧ held s = b :: held t ∧
      t = { s with rd := (s.rd + 1) % s.cap, cnt := s.cnt - 1, nout := s.nout + 1, cwait := false, deqByte := b }) ∧
    (s.cnt = 0 → exec .deq s = .next { s with cwait := true })

/-- A response is the issuing producer's own; no other producer's response changes (R41). -/
def Obligations.ResponsesAreKeptPerAgent : Prop :=
  ∀ (s : State) (i j : Nat) (v : Word),
    respOf (answered i v s) i = some v ∧ (j ≠ i → respOf (answered i v s) j = respOf s j)

/-- FIFO storage: a read after a write, the canonical form, and what an unwritten index reads as (the last two: the
model's choice, log 7) (R22, R50). -/
def Obligations.StorageReadsBackWhatWasWritten : Prop :=
  (∀ (m : Memory) (a c : Nat) (b : Byte), (m.write a b).read c = if c = a then some b else m.read c) ∧
  (∀ (m : Memory) (a : Nat) (b : Byte), m.wf = true → (m.write a b).wf = true) ∧
  (∀ m m' : Memory, m.wf = true → m'.wf = true → (∀ a, m.read a = m'.read a) → m = m') ∧
  (∀ (m : Memory) (a c : Nat) (b : Byte), (m.write a b).byteAt c = if c = a then b else m.byteAt c) ∧
  (∀ a, Memory.byteAt [] a = Config.bufAtInit a)

/-- Before INIT every instruction but INIT is refused as NotInitialised and changes only the mark (R206, R205, R212).
-/
def Obligations.OnlyInitBeforeInit : Prop :=
  ∀ (i : Instr) (s : State), s.inited = false → (∀ n, i ≠ .init n) → exec i s = .next (marked .notInitialised s)

/-- The reserved opcodes 0x0 and 0xE set the mark and change nothing else (from an interrupt handler too: the model's
choice, log 13) (R207, R205, R212). -/
def Obligations.ReservedOpcodesAreRefused : Prop :=
  ∀ (s : State) (rest : BitVec 28), s.inited = true →
    exec (.reserved0 rest) s = .next (marked .reservedOpcode s) ∧
    exec (.reservedE rest) s = .next (marked .reservedOpcode s)

/-- Any producer or direct command from an interrupt handler is refused as InterruptContext (before ReInit: the
model's choice, log 14) (R211). -/
def Obligations.InterruptHandlersAreRefused : Prop :=
  ∀ (s : State) (k : Nat), s.issuer.agent = .interruptHandler k →
    (∀ n, exec (.init n) s = .next (marked .interruptContext s)) ∧
    (s.inited = true →
      exec .free s = .next (marked .interruptContext s) ∧
      (∀ n p, exec (.enqf n p) s = .next (marked .interruptContext s)) ∧
      (∀ c, exec (.enqc c) s = .next (marked .interruptContext s)) ∧
      (∀ c, exec (.putc c) s = .next (marked .interruptContext s)) ∧
      (∀ n p, exec (.putb n p) s = .next (marked .interruptContext s)) ∧
      (∀ id, exec (.etrace id) s = .next (marked .interruptContext s)) ∧
      (∀ n p, exec (.eascii n p) s = .next (marked .interruptContext s)) ∧
      (∀ n p, exec (.ehex1 n p) s = .next (marked .interruptContext s)) ∧
      (∀ n p, exec (.ehex2 n p) s = .next (marked .interruptContext s)) ∧
      (∀ n p, exec (.ehex4 n p) s = .next (marked .interruptContext s)) ∧
      (∀ c, exec (.echar c) s = .next (marked .interruptContext s)))

/-- DEQ and SENDWORD from a port, and commands on the other port, are refused as WrongAgent (before other reasons: the
model's choice, log 13, log 14) (R210). -/
def Obligations.WrongAgentsAreRefused : Prop :=
  ∀ s : State, s.inited = true →
    (s.issuer ≠ ⟨.sequencer, none⟩ → exec .deq s = .next (marked .wrongAgent s) ∧
      ∀ v, exec (.sendword v) s = .next (marked .wrongAgent s)) ∧
    ((∀ k, s.issuer.agent ≠ .interruptHandler k) → s.issuer.port = some .direct →
      exec .free s = .next (marked .wrongAgent s) ∧
      (∀ n p, exec (.enqf n p) s = .next (marked .wrongAgent s)) ∧
      (∀ c, exec (.enqc c) s = .next (marked .wrongAgent s)) ∧
      (∀ c, exec (.putc c) s = .next (marked .wrongAgent s)) ∧
      (∀ n p, exec (.putb n p) s = .next (marked .wrongAgent s)) ∧
      (∀ n, exec (.init n) s = .next (marked .wrongAgent s))) ∧
    ((∀ k, s.issuer.agent ≠ .interruptHandler k) → s.issuer.port = some .producer →
      (∀ id, exec (.etrace id) s = .next (marked .wrongAgent s)) ∧
      (∀ n p, exec (.eascii n p) s = .next (marked .wrongAgent s)) ∧
      (∀ n p, exec (.ehex1 n p) s = .next (marked .wrongAgent s)) ∧
      (∀ n p, exec (.ehex2 n p) s = .next (marked .wrongAgent s)) ∧
      (∀ n p, exec (.ehex4 n p) s = .next (marked .wrongAgent s)) ∧
      (∀ c, exec (.echar c) s = .next (marked .wrongAgent s)))

/-- A command word with a must-be-zero bit set is refused, before and after INIT (which reason: the model's choice,
log 14, log 15, log 22) (R208, R74, R205, R213). -/
def Obligations.IllegalWordsAreRefused : Prop :=
  ∀ (tr : Transaction) (s : State) (op : Nat), s.grant = none → agentExists s tr.agent = true →
    permitted (opClass op) ⟨tr.agent, some tr.port⟩ = true → decodeCommand tr.word tr.payload = .error (.mustBeZero op) →
    (s.inited = false → op ≠ 15 →
      commandTurn tr s = .next (marked .notInitialised { s with issuer := ⟨tr.agent, some tr.port⟩ })) ∧
    (s.inited = false → op = 15 →
      commandTurn tr s = .next (marked .operandRange { s with issuer := ⟨tr.agent, some tr.port⟩ })) ∧
    (s.inited = true → op = 15 →
      commandTurn tr s = .next (marked .reInit { s with issuer := ⟨tr.agent, some tr.port⟩ })) ∧
    (s.inited = true → op ≠ 15 → (tr.agent = .client → s.dstate = .none) →
      commandTurn tr s = .next (marked .operandRange { s with issuer := ⟨tr.agent, some tr.port⟩ })) ∧
    (s.inited = true → tr.agent = .client → s.dstate ≠ .none → commandTurn tr s = .next s)

/-- Once the mark is set the run has no further meaning, and the mark keeps the first reason (the model's reading of
the mark, log 4) (R205). -/
def Obligations.RefusedRunHasNoFurtherMeaning : Prop :=
  (∀ (s : State) (r : Reason), s.mark = some r → step s = .refused (.markedRun r)) ∧
  (∀ (s : State) (r r' : Reason), s.mark = some r → refuse r' s = .next s) ∧
  (∀ (i : Instr) (s t : State) (r : Reason), s.mark = some r → exec i s = .next t → t.mark = some r)

/-- Of several reasons that apply to ENQF, the first in R212's order is reported (another class on the producer port:
the model's choice, log 13) (R212, R206, R208, R209, R210, R211). -/
def Obligations.RefusalsComeInTheirOrder : Prop :=
  ∀ (s t : State) (n : Half) (p : Payload), s.mark = none → exec (.enqf n p) s = .next t →
    t.mark =
      if s.inited = false then some .notInitialised
      else if isInterruptHandler s.issuer.agent = true then some .interruptContext
      else if ¬ (isProducer s.issuer.agent = true ∧ s.issuer.port = some .producer) then some .wrongAgent
      else if n.toNat < 1 ∨ 255 < n.toNat then some .operandRange
      else if p.hasUnits .one n.toNat = false then some .payloadLength
      else none

/-- INIT sets every field to its value, once, for a capacity from 2 to CAPMAX (R230). -/
def Obligations.InitSetsTheTable : Prop :=
  ∀ (s : State) (i : Nat) (n : Half), s.issuer = ⟨.producer i, some .producer⟩ →
    (s.inited = true → exec (.init n) s = .next (marked .reInit s)) ∧
    (s.inited = false → (n.toNat < 2 ∨ s.params.capmax < n.toNat) → exec (.init n) s = .next (marked .operandRange s)) ∧
    (s.inited = false → 2 ≤ n.toNat → n.toNat ≤ s.params.capmax →
      ∃ t, exec (.init n) s = .next t ∧ t.inited = true ∧ t.cap = n.toNat ∧
        t.rd = 0 ∧ t.wr = 0 ∧ t.cnt = 0 ∧ t.nin = 0 ∧ t.nout = 0 ∧
        t.phase = .awaitLength ∧ t.rem = 0 ∧ t.acc = 0 ∧ t.k = 0 ∧ t.unit = .one ∧ t.cwait = false ∧
        t.dreq = none ∧ t.dstate = .none ∧ t.dpay = [] ∧
        t.tbusy = false ∧ t.hidx = 0 ∧ t.tword = 0 ∧ t.tier = .fast ∧ t.tticks = 0 ∧
        t.wire = [] ∧ t.hostrx = [] ∧ t.grant = none ∧
        respOf t i = some 1 ∧ isEmpty t = true ∧ isFull t = false ∧
        t.mark = s.mark ∧ t.params = s.params ∧ t.inbox = s.inbox ∧ t.issuer = s.issuer)

/-- What the fields held before INIT makes no difference after it (for storage, channel, responses, DEQ's result: the
model's choice, log 6, log 7, log 23) (R232, R43). -/
def Obligations.InitForgetsPowerOnValues : Prop :=
  ∀ (s s' : State) (n : Half) (i : Nat), s.inited = false → s'.inited = false →
    s.issuer = ⟨.producer i, some .producer⟩ → s'.issuer = s.issuer → s'.mark = s.mark → s'.inbox = s.inbox →
    s'.draws = s.draws → s'.params = s.params → 2 ≤ n.toNat → n.toNat ≤ s.params.capmax →
    ∃ t, exec (.init n) s = .next t ∧ exec (.init n) s' = .next t

/-- A direct command with its payload is accepted by the empty latch, and nothing else changes (R121, R127, R128,
R129, R130, R131, R132, R209). -/
def Obligations.DirectCommandsAreLatched : Prop :=
  ∀ s : State, byClient s → s.dstate = .none →
    (∀ id, exec (.etrace id) s = .next { s with dreq := some (.trace id), dpay := [], dstate := .pending }) ∧
    (∀ (n : Half) (l : List Byte), l.length = n.toNat → exec (.eascii n (.bytes l)) s =
      .next { s with dreq := some (.body .ascii n (l.map (·.setWidth 32))), dpay := l.map (·.setWidth 32), dstate := .pending }) ∧
    (∀ (n : Half) (l : List Byte), l.length = n.toNat → exec (.ehex1 n (.bytes l)) s =
      .next { s with dreq := some (.body .hex1 n (l.map (·.setWidth 32))), dpay := l.map (·.setWidth 32), dstate := .pending }) ∧
    (∀ (n : Half) (l : List Half), l.length = n.toNat → exec (.ehex2 n (.halves l)) s =
      .next { s with dreq := some (.body .hex2 n (l.map (·.setWidth 32))), dpay := l.map (·.setWidth 32), dstate := .pending }) ∧
    (∀ (n : Half) (l : List Word), l.length = n.toNat → exec (.ehex4 n (.words l)) s =
      .next { s with dreq := some (.body .hex4 n l), dpay := l, dstate := .pending }) ∧
    (∀ c, exec (.echar c) s = .next { s with dreq := some (.char c), dpay := [], dstate := .pending }) ∧
    (∀ p : Payload, p.units = [] →
      exec (.eascii 0 p) s = exec (.eascii 0 (.bytes [])) s ∧ exec (.ehex1 0 p) s = exec (.ehex1 0 (.bytes [])) s ∧
      exec (.ehex2 0 p) s = exec (.ehex2 0 (.halves [])) s ∧ exec (.ehex4 0 p) s = exec (.ehex4 0 (.words [])) s) ∧
    (∀ (n : Half) (p : Payload), ¬ (n.toNat = 0 ∧ p.units = []) →
      ((¬ ∃ l, p = .bytes l ∧ l.length = n.toNat) → exec (.eascii n p) s = .next (marked .payloadLength s) ∧
        exec (.ehex1 n p) s = .next (marked .payloadLength s)) ∧
      ((¬ ∃ l, p = .halves l ∧ l.length = n.toNat) → exec (.ehex2 n p) s = .next (marked .payloadLength s)) ∧
      ((¬ ∃ l, p = .words l ∧ l.length = n.toNat) → exec (.ehex4 n p) s = .next (marked .payloadLength s)))

/-- While the latch is full the client holds, any payload (not looked at, not remembered: the model's choice, log 22,
log 3); completion empties it (R121, R213). -/
def Obligations.FullLatchHoldsTheClient : Prop :=
  (∀ s : State, byClient s → s.dstate ≠ .none →
    (∀ id, exec (.etrace id) s = .next s) ∧ (∀ n p, exec (.eascii n p) s = .next s) ∧
    (∀ n p, exec (.ehex1 n p) s = .next s) ∧ (∀ n p, exec (.ehex2 n p) s = .next s) ∧
    (∀ n p, exec (.ehex4 n p) s = .next s) ∧ (∀ c, exec (.echar c) s = .next s)) ∧
  (∀ s : State, s.inited = true →
    (s.dstate = .done → runTurn .client s = .next { s with dreq := none, dpay := [], dstate := .none }) ∧
    (s.dstate ≠ .done → holds .client s))

/-- Each header form starts the transfer of its header word and sets up the body (R122). -/
def Obligations.HeaderStepIssuesTheHeader : Prop :=
  ∀ s : State, bySequencer s → s.tbusy = false →
    (∀ id : BitVec 24, exec (.hdrTrace id) s =
      .next { s with tbusy := true, tword := id.setWidth 32 <<< 8, hidx := 0, tier := .fast, tticks := 0 }) ∧
    (∀ n : Half, exec (.hdrAscii n) s =
      .next { s with tbusy := true, tword := 0x00000001 ||| (n.setWidth 32 <<< 16), hidx := 0, tier := .fast, tticks := 0,
                     unit := .one, rem := n.toNat, acc := 0, k := 0 }) ∧
    (∀ n : Half, exec (.hdrHex1 n) s =
      .next { s with tbusy := true, tword := 0x00000101 ||| (n.setWidth 32 <<< 16), hidx := 0, tier := .fast, tticks := 0,
                     unit := .one, rem := n.toNat, acc := 0, k := 0 }) ∧
    (∀ n : Half, exec (.hdrHex2 n) s =
      .next { s with tbusy := true, tword := 0x00000201 ||| (n.setWidth 32 <<< 16), hidx := 0, tier := .fast, tticks := 0,
                     unit := .two, rem := n.toNat, acc := 0, k := 0 }) ∧
    (∀ n : Half, exec (.hdrHex4 n) s =
      .next { s with tbusy := true, tword := 0x00000401 ||| (n.setWidth 32 <<< 16), hidx := 0, tier := .fast, tticks := 0,
                     unit := .four, rem := n.toNat, acc := 0, k := 0 }) ∧
    (∀ c : Byte, exec (.hdrChar c) s =
      .next { s with tbusy := true, tword := 0x00000002 ||| (c.setWidth 32 <<< 8), hidx := 0, tier := .fast, tticks := 0 })

/-- SENDWORD of the encoder starts the transfer; during one it holds (R101, R108, R109). -/
def Obligations.SendwordStartsTheTransfer : Prop :=
  ∀ (s : State) (v : Word), bySequencer s →
    (s.tbusy = false → exec (.sendword v) s =
      .next { s with tbusy := true, tword := v, hidx := 0, tier := .fast, tticks := 0 }) ∧
    (s.tbusy = true → exec (.sendword v) s = .next s)

/-- A direct body step shifts the next unit in and emits a full or final word; then the command finishes (R121, R124,
R125, R176). -/
def Obligations.DirectUnitStepPacksAndFinishes : Prop :=
  (∀ (s : State) (d : Bool) (e : Word) (rest : List Word) (acc : Word),
    s.inited = true → s.phase = .direct → s.tbusy = false → 0 < s.rem → s.dpay = e :: rest →
    acc = ((s.acc >>> (8 * s.unit.bytes)) ||| (e <<< (32 - 8 * s.unit.bytes))) →
    (s.k + 1 = 4 / s.unit.bytes ∨ s.rem = 1 → runTurn (.sequencer d) s =
      .next { s with issuer := ⟨.sequencer, none⟩, dpay := rest, acc := 0, k := 0, rem := s.rem - 1, tbusy := true,
                     tword := acc >>> (8 * s.unit.bytes * (4 / s.unit.bytes - (s.k + 1))), hidx := 0, tier := .fast,
                     tticks := 0 }) ∧
    (s.k + 1 ≠ 4 / s.unit.bytes → s.rem ≠ 1 → runTurn (.sequencer d) s =
      .next { s with issuer := ⟨.sequencer, none⟩, dpay := rest, acc := acc, k := s.k + 1, rem := s.rem - 1 })) ∧
  (∀ (s : State) (d : Bool), s.inited = true → s.phase = .direct → s.tbusy = false → s.rem = 0 →
    runTurn (.sequencer d) s = .next { s with issuer := ⟨.sequencer, none⟩, phase := .awaitLength, dstate := .done })

/-- A frame body step takes the oldest byte into the word and returns to AWAIT_LENGTH on the last (R172). -/
def Obligations.FrameBodyStepPacks : Prop :=
  ∀ (s : State) (d : Bool), Inv s → s.inited = true → s.phase = .streamFrame → s.tbusy = false →
    0 < s.rem ∧ s.rem ≤ s.cnt ∧ s.unit = .one ∧ ∃ (b : Byte) (acc : Word) (taken : State),
      held s = b :: held taken ∧ acc = ((s.acc >>> 8) ||| (b.setWidth 32 <<< 24)) ∧
      taken = { s with issuer := ⟨.sequencer, none⟩, rd := (s.rd + 1) % s.cap, cnt := s.cnt - 1, nout := s.nout + 1,
                       cwait := false, deqByte := b, rem := s.rem - 1,
                       phase := if s.rem = 1 then .awaitLength else .streamFrame } ∧
      (s.k + 1 = 4 ∨ s.rem = 1 → runTurn (.sequencer d) s =
        .next { taken with acc := 0, k := 0, tbusy := true, tword := acc >>> (8 * (4 - (s.k + 1))), hidx := 0,
                           tier := .fast, tticks := 0 }) ∧
      (s.k + 1 ≠ 4 → s.rem ≠ 1 → runTurn (.sequencer d) s = .next { taken with acc := acc, k := s.k + 1 })

/-- Inside a message, the words issued and still owed are never changed by a step of the sequencer (R124, R126, R133,
R134). -/
def Obligations.BodyWordsAreConserved : Prop :=
  ∀ (s : State) (d : Bool), Inv s → s.inited = true → s.tbusy = false → 0 < s.rem →
    (s.phase = .streamFrame ∨ s.phase = .direct) →
    ∃ t, runTurn (.sequencer d) s = .next t ∧ issued t ++ bodyOwed t = bodyOwed s

/-- The start of a direct command issues its header and owes exactly the rest of words(m) (R134). -/
def Obligations.DirectMessageIsIssuedWhole : Prop :=
  ∀ (s : State) (cmd : DirectCmd), Inv s → s.inited = true → s.tbusy = false → s.phase = .awaitLength →
    s.dstate = .pending → s.dreq = some cmd →
    ∃ t, runTurn (.sequencer true) s = .next t ∧ t.phase = .direct ∧ t.dstate = .active ∧
      issued t ++ bodyOwed t =
        (match cmd with
         | .trace id => [id.setWidth 32 <<< 8]
         | .body .ascii n units => (0x00000001 ||| (n.setWidth 32 <<< 16)) :: packBody .one units
         | .body .hex1 n units => (0x00000101 ||| (n.setWidth 32 <<< 16)) :: packBody .one units
         | .body .hex2 n units => (0x00000201 ||| (n.setWidth 32 <<< 16)) :: packBody .two units
         | .body .hex4 n units => (0x00000401 ||| (n.setWidth 32 <<< 16)) :: units
         | .char c => [0x00000002 ||| (c.setWidth 32 <<< 8)]) ∧
      messageWords (messageOf cmd) = issued t ++ bodyOwed t

/-- The length step of a frame takes the length byte, issues the AsciiText header and goes to STREAM_FRAME (R171). -/
def Obligations.FrameFormStartsAsciiText : Prop :=
  ∀ (s : State) (len : Byte), bySequencer s → s.phase = .awaitLength → s.tbusy = false → 0 < s.cnt → len ≠ 0 → FifoInv s →
    ∃ b : Byte, (held s).head? = some b ∧
      exec (.qfFrame len) s =
        .next { s with rd := (s.rd + 1) % s.cap, cnt := s.cnt - 1, nout := s.nout + 1, cwait := false, deqByte := b,
                       unit := .one, rem := len.toNat, acc := 0, k := 0, phase := .streamFrame,
                       tbusy := true, tword := 0x00000001 ||| ((len.setWidth 16).setWidth 32 <<< 16), hidx := 0,
                       tier := .fast, tticks := 0 }

/-- The raw-character form takes the marker in AWAIT_LENGTH and the character in STREAM_CHAR (R173, R174). -/
def Obligations.CharFormTakesMarkerThenCharacter : Prop :=
  (∀ s : State, Inv s → s.inited = true → s.phase = .streamChar → 1 ≤ s.cnt) ∧
  (∀ (s : State) (c : Byte), bySequencer s → s.tbusy = false → 0 < s.cnt → FifoInv s →
    ∃ (b : Byte) (taken : State), (held s).head? = some b ∧
      taken = { s with rd := (s.rd + 1) % s.cap, cnt := s.cnt - 1, nout := s.nout + 1, cwait := false, deqByte := b } ∧
      (s.phase = .awaitLength → s.params.emptyAsciiBeforeChar = false →
        exec (.qfChar c) s = .next { taken with phase := .streamChar }) ∧
      (s.phase = .awaitLength → s.params.emptyAsciiBeforeChar = true →
        exec (.qfChar c) s = .next { taken with phase := .streamChar, tbusy := true, tword := 0x00000001, hidx := 0,
                                                tier := .fast, tticks := 0 }) ∧
      (s.phase = .streamChar →
        exec (.qfChar c) s = .next { taken with phase := .awaitLength, tbusy := true,
                                                tword := 0x00000002 ||| (c.setWidth 32 <<< 8), hidx := 0, tier := .fast,
                                                tticks := 0 }))

/-- A frame at the head of the FIFO is issued as the AsciiText message of its payload (R170, R171, R172, R134). -/
def Obligations.FrameIsSentAsItsMessage : Prop :=
  ∀ (s : State) (l rest : List Byte), Inv s → s.inited = true → s.tbusy = false → s.phase = .awaitLength →
    1 ≤ l.length → l.length ≤ 255 → held s = BitVec.ofNat 8 l.length :: (l ++ rest) →
    ∃ t, runTurn (.sequencer false) s = .next t ∧ t.phase = .streamFrame ∧ held t = l ++ rest ∧
      issued t ++ bodyOwed t = messageWords (.body .ascii (l.map (·.setWidth 32)))

/-- A raw character at the head of the FIFO is issued as its SingleChar header, whatever its value (R173, R174, R134).
-/
def Obligations.CharacterIsSentAsSingleChar : Prop :=
  ∀ (s : State) (c : Byte) (rest : List Byte), Inv s → s.inited = true → s.tbusy = false → s.phase = .awaitLength →
    s.params.emptyAsciiBeforeChar = false → held s = 0 :: c :: rest →
    ∃ t u, runTurn (.sequencer false) s = .next t ∧ issued t = [] ∧ t.phase = .streamChar ∧
      runTurn (.sequencer false) t = .next u ∧ issued u = messageWords (.char c) ∧ u.phase = .awaitLength ∧ held u = rest

/-- At a boundary where the FIFO and the latch are both ready, either may go first (the start's wait bit 0: the
model's choice, log 21) (R175, R176). -/
def Obligations.BoundaryChoiceIsOpen : Prop :=
  ∀ (s : State) (cmd : DirectCmd) (i : Instr) (rest : List Byte), FifoInv s → s.inited = true → s.tbusy = false →
    s.phase = .awaitLength → s.dstate = .pending → s.dreq = some cmd → decodeFifo (held s) = .ok (i, rest) →
    runTurn (.sequencer true) s =
      exec (headerInstr cmd) { s with phase := .direct, dstate := .active, cwait := false, issuer := ⟨.sequencer, none⟩ } ∧
    runTurn (.sequencer false) s = exec i { s with issuer := ⟨.sequencer, none⟩ }

/-- While a transfer is in progress the sequencer has no step; the controller's last write ends it (R123). -/
def Obligations.SequencerWaitsForTheTransfer : Prop :=
  (∀ (s : State) (d : Bool), s.tbusy = true → holds (.sequencer d) s) ∧
  (∀ s : State, s.inited = true → s.tbusy = true → s.chBusy = false →
    (s.params.variant = .legacy ∨ s.hidx = 3) → ∃ t, runTurn .controller s = .next t ∧ t.tbusy = false)

/-- On an empty FIFO with nothing pending the sequencer suspends once; an enqueue enables it and clears its wait bit
(in its own step: the model's choice, log 21) (R158, R176, R34). -/
def Obligations.SequencerSuspendsOnEmptyFifo : Prop :=
  (∀ (s : State) (d : Bool), s.inited = true → s.tbusy = false → s.phase = .awaitLength → s.cnt = 0 → s.dstate ≠ .pending →
    (s.cwait = false → runTurn (.sequencer d) s = .next { s with cwait := true }) ∧
    (s.cwait = true → holds (.sequencer d) s)) ∧
  (∀ (s : State) (c : Byte) (i : Nat), byProducer i s → FifoInv s → s.tbusy = false → s.phase = .awaitLength → s.cnt = 0 →
    ∃ t u, exec (.putc c) s = .next t ∧ 0 < t.cnt ∧ t.cwait = false ∧
      runTurn (.sequencer false) t = .next u ∧ u.cnt + 1 = t.cnt ∧ u.cwait = false) ∧
  (∀ (s t : State) (c : Instr) (i : Nat), byProducer i s →
    ((∃ n p, c = .enqf n p) ∨ (∃ b, c = .enqc b) ∨ (∃ b, c = .putc b) ∨ (∃ n p, c = .putb n p)) → exec c s = .next t →
    (t.cnt ≠ s.cnt → t.cwait = false) ∧ (t.cnt = s.cnt → t.cwait = s.cwait))

/-- In a run the sequencer has a step unless it waits on an empty FIFO or on a transfer (R177, R45). -/
def Obligations.SequencerHoldsOnlyOnEmptyOrTransfer : Prop :=
  ∀ (s : State) (d : Bool), Inv s → s.inited = true → holds (.sequencer d) s →
    s.tbusy = true ∨ (s.phase = .awaitLength ∧ s.cnt = 0 ∧ s.cwait = true ∧ s.dstate ≠ .pending)

/-- A MODERN handshake writes the next byte and sets BUSY; the register then reads DATA, BUSY and zeros (that zeros
read back: the model's choice, log 30) (R103, R84). -/
def Obligations.ModernHandshakeWritesOneByte : Prop :=
  ∀ (s : State) (b : Byte), s.inited = true → s.tbusy = true → s.hidx < 4 → s.chBusy = false → s.params.variant = .modern →
    b = (s.tword >>> (8 * s.hidx)).setWidth 8 →
    ∃ t, runTurn .controller s = .next t ∧
      t = { s with chData := b.setWidth 32, chBusy := true, chOther := 0, wire := s.wire ++ [b.setWidth 32],
                   hidx := s.hidx + 1, tbusy := if s.hidx + 1 = 4 then false else true,
                   tier := if s.hidx + 1 = 4 then s.tier else .fast,
                   tticks := if s.hidx + 1 = 4 then s.tticks else 0 } ∧
      (s.params.legal = true → channelRead t =
        (b.setWidth 32 <<< s.params.mDataLsb.val) ||| BitVec.twoPow 32 s.params.mBusyBit.val)

/-- A LEGACY write sends the whole word, sets BUSY and ends the transfer (R104). -/
def Obligations.LegacyWriteSendsTheWord : Prop :=
  ∀ s : State, s.inited = true → s.tbusy = true → s.chBusy = false → s.params.variant = .legacy →
    runTurn .controller s =
      .next { s with chData := s.tword, chBusy := true, wire := s.wire ++ [s.tword], tbusy := false }

/-- While BUSY is 1 the controller polls and holds; only the tier may change, and only the host lifts it (R102). -/
def Obligations.BusyPollChangesOnlyTheTimer : Prop :=
  (∀ s : State, s.inited = true → s.tbusy = true → s.chBusy = true →
    ∃ t, runTurn .controller s = .next t ∧ t = { s with tier := t.tier }) ∧
  (∀ s : State, s.tbusy = false → holds .controller s) ∧
  (∀ s : State, (channelRead s).getLsbD (busyBit s.params).val = s.chBusy) ∧
  (∀ s t : State, s.inited = true → s.chBusy = true → step s = .next t → t.chBusy = false → nextTurn s = .host)

/-- A tick of a wait counts, and the tier becomes SLOW when the count reaches SPIN_TICKS with BUSY still 1 (R106, R37,
R220). -/
def Obligations.TierTurnsSlowAtTheThreshold : Prop :=
  (∀ s : State, s.inited = true → s.tbusy = true → s.chBusy = true → runTurn .tick s =
    .next { s with tticks := s.tticks + 1,
                   tier := if s.params.spinTicks ≤ s.tticks + 1 then .slow else s.tier }) ∧
  (∀ s : State, (s.tbusy = false ∨ s.chBusy = false) → holds .tick s)

/-- The host takes the channel's value and clears BUSY; it has no step while BUSY is 0 (R215, R38). -/
def Obligations.HostTakesTheValue : Prop :=
  (∀ s : State, s.inited = true → s.chBusy = true →
    runTurn .host s = .next { s with hostrx := s.hostrx ++ [s.chData], chBusy := false }) ∧
  (∀ s : State, s.chBusy = false → holds .host s)

/-- A started word crosses a draining channel whole: four bytes in MODERN, one word in LEGACY (R103, R104, R105, R109,
R111). -/
def Obligations.WordCrossesTheChannelWhole : Prop :=
  ∀ s : State, s.inited = true → s.tbusy = true → s.hidx = 0 → s.chBusy = false →
    ∃ t, runTurns (match s.params.variant with
        | .modern => [.controller, .host, .controller, .host, .controller, .host, .controller]
        | .legacy => [.controller]) s = .next t ∧
      t.tbusy = false ∧ t.chBusy = true ∧ t.wire = s.wire ++ channelValues s.params.variant s.tword ∧
      t.hostrx = s.hostrx ++ (channelValues s.params.variant s.tword).dropLast ∧
      t = { s with tbusy := t.tbusy, hidx := t.hidx, tier := t.tier, tticks := t.tticks, chBusy := t.chBusy,
                   chData := t.chData, chOther := t.chOther, wire := t.wire, hostrx := t.hostrx }

/-- A step takes the next scheduled turn, or a free one if none is scheduled (the model's choice, log 1 and log 2)
(R12, R60, R217). -/
def Obligations.StepTakesTheNextTurn : Prop :=
  (∀ (s : State) (t : Turn) (rest : List Turn), s.mark = none → s.inbox = t :: rest →
    step s = runTurn t { s with inbox := rest }) ∧
  (∀ s : State, s.mark = none → s.inbox = [] →
    step s = runTurn (Config.freeTurn s.draws) { s with draws := s.draws + 1 })

/-- A step whose turn presents a command word that decodes executes that instruction; a full latch holds the client
(the model's choice, log 22) (R70, R71, R185). -/
def Obligations.StepExecutesThePresentedCommand : Prop :=
  ∀ (s : State) (tr : Transaction) (rest : List Turn) (i : Instr), s.mark = none → s.grant = none →
    s.inbox = .command tr :: rest → agentExists s tr.agent = true →
    (¬ (tr.agent = .client ∧ s.inited = true ∧ s.dstate ≠ .none) → decodeCommand tr.word tr.payload = .ok i →
      step s = exec i { s with inbox := rest, issuer := ⟨tr.agent, some tr.port⟩ }) ∧
    (tr.agent = .client → s.inited = true → s.dstate ≠ .none → step s = .next { s with inbox := rest })

/-- A step of the sequencer at a boundary executes the FIFO form decoded from the bytes held (R81, R82, R83, R170). -/
def Obligations.StepExecutesTheFifoForm : Prop :=
  (∀ (s : State) (rest : List Turn) (i : Instr) (tail : List Byte), s.mark = none → s.inited = true → s.tbusy = false →
    FifoInv s → s.phase = .awaitLength → s.inbox = .sequencer false :: rest → decodeFifo (held s) = .ok (i, tail) →
    step s = exec i { s with inbox := rest, issuer := ⟨.sequencer, none⟩ }) ∧
  (∀ (s : State) (d : Bool) (rest : List Turn) (c : Byte) (tail : List Byte), s.mark = none → s.inited = true →
    s.tbusy = false → FifoInv s → s.phase = .streamChar → s.inbox = .sequencer d :: rest → held s = c :: tail →
    step s = exec (.qfChar c) { s with inbox := rest, issuer := ⟨.sequencer, none⟩ })

/-- The power-on state meets the invariant, is not initialised and carries no mark (R28, R232). -/
def Obligations.PowerOnMeetsTheInvariant : Prop :=
  Inv State.reset ∧ State.reset.inited = false ∧ State.reset.mark = none ∧ State.reset.inbox = []

/-- Every step keeps the invariant of a run (R26, R27, R34, R40, R44, R45, R160). -/
def Obligations.StepKeepsTheInvariant : Prop :=
  ∀ s t : State, Inv s → step s = .next t → Inv t

/-- No step from a state of a run raises a fault (R200, R203, R44). -/
def Obligations.NoStepOfARunFaults : Prop :=
  ∀ (s : State) (f : Fault), Inv s → step s ≠ .fault f

/-- Every step acts on the bytes held as on a queue: one byte off the front, or whole units at the back (R61, R62,
R160, R161). -/
def Obligations.QueueOrderIsKept : Prop :=
  ∀ s t : State, Inv s → s.inited = true → step s = .next t →
    held t = held s ∨ (∃ b, held s = b :: held t) ∨
    (∃ u : FifoUnit, FifoUnit.ok u ∧ held t = held s ++ FifoUnit.bytes u)

/-- After INIT no step changes the capacity or clears the initialised bit; no step changes a parameter (R28). -/
def Obligations.CapacityAndParametersAreFixed : Prop :=
  ∀ s t : State, step s = .next t → t.params = s.params ∧
    (s.inited = true → t.inited = true ∧ t.cap = s.cap) ∧
    (s.inited = false → t.inited = false ∨ (t.inited = true ∧ 2 ≤ t.cap ∧ t.cap ≤ s.params.capmax ∧ t.cap ≤ 65535 ∧
      ∃ (tr : Transaction) (n : Half), nextTurn s = .command tr ∧ decodeCommand tr.word tr.payload = .ok (.init n) ∧
        t.cap = n.toNat))

/-- Only the controller writes the channel, while BUSY is 0; a transfer keeps its word until its own last write; only
the sequencer starts one (R243, R108, R109, R242). -/
def Obligations.ChannelIsWrittenOnlyWhenFree : Prop :=
  ∀ s t : State, s.inited = true → step s = .next t →
    ((t.wire ≠ s.wire ∨ t.chData ≠ s.chData) →
      s.chBusy = false ∧ s.tbusy = true ∧ nextTurn s = .controller) ∧
    (s.chBusy = false → t.chBusy = true → nextTurn s = .controller) ∧
    (s.chBusy = true → t.chBusy = false → nextTurn s = .host) ∧
    (s.tbusy = true → t.tword = s.tword ∧ (t.hidx ≠ s.hidx → nextTurn s = .controller ∧ t.hidx = s.hidx + 1) ∧
      (t.tbusy = false → nextTurn s = .controller ∧ s.chBusy = false ∧ t.chBusy = true ∧
        (s.params.variant = .legacy ∨ (s.params.variant = .modern ∧ s.hidx = 3)))) ∧
    (s.tbusy = false → t.tbusy = true → ∃ d, nextTurn s = .sequencer d)

/-- What the host has taken stays a prefix of what was written, one shorter exactly while BUSY is 1 (R39, R67). -/
def Obligations.HostReceivesInOrder : Prop :=
  (∀ s t : State, s.inited = true → s.wire = s.hostrx ++ (if s.chBusy = true then [s.chData] else []) →
    step s = .next t → t.wire = t.hostrx ++ (if t.chBusy = true then [t.chData] else [])) ∧
  (∀ s t : State, s.inited = false → step s = .next t → t.inited = true →
    t.wire = [] ∧ t.hostrx = [] ∧
    (t.chBusy = false → t.wire = t.hostrx ++ (if t.chBusy = true then [t.chData] else [])))

/-- An ended run is clean or stuck on the host; a clean end leaves no turn that changes anything (which turns are
still to come: the model's choice, log 1, log 2) (R225, R213, R215). -/
def Obligations.CleanEndLeavesNothingToDo : Prop :=
  (∀ (t : Turn) (s : State), hasStep t s = false →
    ∃ u, runTurn t s = .next u ∧ u = { s with tier := u.tier, tticks := u.tticks }) ∧
  (∀ (t : Turn) (s : State), endedCleanly s → pendingTurn t s → holds t s) ∧
  (∀ s : State, Inv s → s.inited = true → ended true s → endedCleanly s) ∧
  (∀ s : State, Inv s → s.inited = true → endedStuck s → s.chBusy = true) ∧
  (∀ (s : State) (d : Bool), s.inited = true → drained s →
    holds .controller s ∧ holds .host s ∧ holds .client s ∧ holds .tick s ∧
    runTurn (.sequencer d) s = .next { s with cwait := true })
end

