-- ==== Sys2Proof/Laws/Encoding.lean ====
section
/-! SUPPORT. The encoded words as numbers, and the two forms of the payload check. -/

namespace Sys2Proof

@[simp] theorem encZ_toNat (op : Nat) (h : op < 16) : (encZ op).toNat = op := by
  simp [encZ]; omega

@[simp] theorem encC_toNat (op : Nat) (c : Byte) (h : op < 16) : (encC op c).toNat = c.toNat * 256 + op := by
  have := c.isLt
  simp [encC]; omega

@[simp] theorem encN_toNat (op : Nat) (n : Half) (h : op < 16) : (encN op n).toNat = n.toNat * 65536 + op := by
  have := n.isLt
  simp [encN]; omega

@[simp] theorem encT_toNat (op : Nat) (id : BitVec 24) (h : op < 16) : (encT op id).toNat = id.toNat * 256 + op := by
  have := id.isLt
  simp [encT]; omega

@[simp] theorem encReserved_toNat (op : Nat) (r : BitVec 28) (h : op < 16) :
    (encReserved op r).toNat = r.toNat * 16 + op := by
  have := r.isLt
  simp [encReserved]; omega

@[simp] theorem traceHeader_toNat (id : BitVec 24) : (traceHeader id).toNat = id.toNat * 256 := by
  have := id.isLt
  simp [traceHeader, traceShift, Nat.shiftLeft_eq]; omega

theorem tagBits_lt (kind : BodyKind) : kind.tagBits.toNat < 2 ^ 16 := by cases kind <;> decide

@[simp] theorem bodyHeader_toNat (kind : BodyKind) (n : Half) :
    (bodyHeader kind n).toNat = n.toNat * 65536 + kind.tagBits.toNat := by
  have hn := n.isLt
  have ht := tagBits_lt kind
  have hs : ((n.setWidth 32) <<< 16 : Word).toNat = n.toNat <<< 16 := by
    simp [Nat.shiftLeft_eq]; omega
  rw [bodyHeader, BitVec.toNat_or, hs, Nat.lor_comm, ← Nat.shiftLeft_add_eq_or_of_lt ht, Nat.shiftLeft_eq]

@[simp] theorem charHeader_toNat (c : Byte) : (charHeader c).toNat = c.toNat * 256 + 2 := by
  have hc := c.isLt
  have hs : ((c.setWidth 32) <<< charShift : Word).toNat = c.toNat <<< 8 := by
    simp [charShift, Nat.shiftLeft_eq]; omega
  rw [charHeader, BitVec.toNat_or, hs, Nat.lor_comm]
  rw [show ((0x00000002 : Word)).toNat = 2 from rfl, ← Nat.shiftLeft_add_eq_or_of_lt (by omega), Nat.shiftLeft_eq]

/-- The well-formedness check of a payload is the one the machine makes. -/
theorem hasUnits_eq_matchesCount (u : UnitSize) (n : Nat) (p : Payload) : p.hasUnits u n = p.matchesCount u n := by
  cases p <;> simp [Payload.hasUnits, Payload.matchesCount, Payload.unitSize, Payload.units, eq_comm]

/-- A list of `n` units of the size, or the empty list. -/
theorem matchesCount_iff {u : UnitSize} {n : Nat} {p : Payload} :
    p.matchesCount u n = true ↔ (p.unitSize = u ∧ p.units.length = n) ∨ (n = 0 ∧ p.units = []) := by
  rw [Payload.matchesCount, Bool.and_eq_true, Bool.or_eq_true, decide_eq_true_iff, decide_eq_true_iff, decide_eq_true_iff]
  constructor
  · rintro ⟨h, rfl | rfl⟩
    · exact .inl ⟨rfl, h⟩
    · exact .inr ⟨rfl, List.eq_nil_of_length_eq_zero h⟩
  · rintro (⟨h, h'⟩ | ⟨rfl, h⟩)
    · exact ⟨h', .inl h⟩
    · exact ⟨by rw [h]; rfl, .inr rfl⟩

/-- The empty list is exactly 0 units of any size. -/
theorem matchesCount_empty {p : Payload} (u : UnitSize) (h : p.units = []) : p.matchesCount u 0 = true :=
  matchesCount_iff.mpr (.inr ⟨rfl, h⟩)

theorem unitSize_one_iff {n : Nat} {p : Payload} :
    (p.unitSize = .one ∧ p.units.length = n) ↔ ∃ l, p = .bytes l ∧ l.length = n := by
  cases p <;> simp [Payload.unitSize, Payload.units]

theorem unitSize_two_iff {n : Nat} {p : Payload} :
    (p.unitSize = .two ∧ p.units.length = n) ↔ ∃ l, p = .halves l ∧ l.length = n := by
  cases p <;> simp [Payload.unitSize, Payload.units]

theorem unitSize_four_iff {n : Nat} {p : Payload} :
    (p.unitSize = .four ∧ p.units.length = n) ↔ ∃ l, p = .words l ∧ l.length = n := by
  cases p <;> simp [Payload.unitSize, Payload.units]

/-! ### The fields of an encoded word, format by format (30_encoding.md R71) -/

theorem encN_fields (op : Nat) (n : Half) (h : op < 16) :
    opField (encN op n) = op ∧ formatN (encN op n) = true ∧ nField (encN op n) = n := by
  have hn := n.isLt
  refine ⟨?_, ?_, BitVec.eq_of_toNat_eq ?_⟩
  · simp [opField, h]; omega
  · simp [formatN, h]; omega
  · simp [nField, h]; omega

theorem encC_fields (op : Nat) (c : Byte) (h : op < 16) :
    opField (encC op c) = op ∧ formatC (encC op c) = true ∧ cField (encC op c) = c := by
  have hn := c.isLt
  refine ⟨?_, ?_, BitVec.eq_of_toNat_eq ?_⟩
  · simp [opField, h]; omega
  · simp [formatC, z4Field, h]; omega
  · simp [cField, h]; omega

theorem encT_fields (op : Nat) (id : BitVec 24) (h : op < 16) :
    opField (encT op id) = op ∧ formatT (encT op id) = true ∧ idField (encT op id) = id := by
  have hn := id.isLt
  refine ⟨?_, ?_, BitVec.eq_of_toNat_eq ?_⟩
  · simp [opField, h]; omega
  · simp [formatT, z4Field, h]; omega
  · simp [idField, h]; omega

/-- A well-formed instruction has an encoding of its own. -/
theorem encodable_of_wellFormed (i : Instr) (h : i.wellFormed = true) : i.encodable = true := by
  cases i <;> first | rfl | exact h

end Sys2Proof
end

