-- ==== Sys2Proof/Laws/Memory.lean ====
section
/-! SUPPORT. The FIFO storage and the responses: reading after writing, and the canonical form. -/

namespace Sys2Proof.Machine

@[simp] theorem Memory.read_nil (a : Nat) : Memory.read [] a = none := rfl

@[simp] theorem Memory.read_write_same (m : Memory) (a : Nat) (b : Byte) : (m.write a b).read a = some b := by
  induction m with
  | nil => simp [Memory.write, Memory.read]
  | cons e m ih =>
    obtain ⟨a', b'⟩ := e
    simp only [Memory.write]
    split
    · simp [Memory.read]
    · split
      · simp [Memory.read]
      · rename_i h
        simp [Memory.read, ih, Ne.symm h]

theorem Memory.read_write_other (m : Memory) {a c : Nat} (b : Byte) (h : c ≠ a) : (m.write a b).read c = m.read c := by
  induction m with
  | nil => simp [Memory.write, Memory.read, Ne.symm h]
  | cons e m ih =>
    obtain ⟨a', b'⟩ := e
    simp only [Memory.write]
    split
    · simp [Memory.read, Ne.symm h]
    · split
      · rename_i h'
        subst h'
        simp [Memory.read, Ne.symm h]
      · simp [Memory.read, ih]

/-- Reading after a write, at any index. -/
theorem Memory.read_write (m : Memory) (a c : Nat) (b : Byte) :
    (m.write a b).read c = if c = a then some b else m.read c := by
  by_cases h : c = a
  · subst h; simp
  · simp [h, Memory.read_write_other m b h]

/-- The canonical form as a fact about the indices. -/
theorem Memory.wf_iff (m : Memory) : m.wf = true ↔ m.Pairwise (fun x y => x.1 < y.1) := by
  induction m with
  | nil => simp [Memory.wf]
  | cons e m ih =>
    cases m with
    | nil => simp [Memory.wf]
    | cons e' m =>
      simp only [Memory.wf, Bool.and_eq_true, decide_eq_true_eq, ih, List.pairwise_cons]
      constructor
      · rintro ⟨h, h', h''⟩
        refine ⟨?_, h', h''⟩
        intro x hx
        rcases List.mem_cons.mp hx with rfl | hx
        · exact h
        · exact lt_trans h (h' x hx)
      · rintro ⟨h, h', h''⟩
        exact ⟨h e' (by simp), h', h''⟩

theorem Memory.mem_write (m : Memory) (a : Nat) (b : Byte) {x : Host.Cell} (h : x ∈ m.write a b) : x = (a, b) ∨ x ∈ m := by
  induction m with
  | nil => simpa [Memory.write] using h
  | cons e m ih =>
    obtain ⟨a', b'⟩ := e
    simp only [Memory.write] at h
    split at h
    · simpa using h
    · split at h
      · rcases List.mem_cons.mp h with h | h
        · exact .inl h
        · exact .inr (List.mem_cons_of_mem _ h)
      · rcases List.mem_cons.mp h with h | h
        · exact .inr (by simp [h])
        · rcases ih h with h | h
          · exact .inl h
          · exact .inr (List.mem_cons_of_mem _ h)

/-- A write keeps the canonical form. -/
theorem Memory.wf_write (m : Memory) (a : Nat) (b : Byte) (h : m.wf = true) : (m.write a b).wf = true := by
  rw [Memory.wf_iff] at h ⊢
  induction m with
  | nil => simp [Memory.write]
  | cons e m ih =>
    obtain ⟨a', b'⟩ := e
    obtain ⟨h1, h2⟩ := List.pairwise_cons.mp h
    simp only [Memory.write]
    split
    · rename_i hlt
      refine List.pairwise_cons.mpr ⟨?_, h⟩
      intro x hx
      rcases List.mem_cons.mp hx with rfl | hx
      · exact hlt
      · exact lt_trans hlt (h1 x hx)
    · split
      · rename_i h'
        subst h'
        exact List.pairwise_cons.mpr ⟨h1, h2⟩
      · rename_i hn hne
        refine List.pairwise_cons.mpr ⟨?_, ih h2⟩
        intro x hx
        rcases Memory.mem_write m a b hx with rfl | hx
        · show a' < a
          omega
        · exact h1 x hx

/-- The responses keep their order by agent number. -/
theorem setResp_sorted (l : List (Nat × Word)) (i : Nat) (v : Word) (h : l.Pairwise (fun x y => x.1 < y.1)) :
    (setResp l i v).Pairwise (fun x y => x.1 < y.1) := by
  have hmem : ∀ l : List (Nat × Word), ∀ x ∈ setResp l i v, x.1 = i ∨ x ∈ l := by
    intro l
    induction l with
    | nil => simp [setResp]
    | cons e l ih =>
      obtain ⟨j, w⟩ := e
      intro x hx
      simp only [setResp] at hx
      split at hx
      · rcases List.mem_cons.mp hx with rfl | hx
        · exact .inl rfl
        · exact .inr hx
      · split at hx
        · rcases List.mem_cons.mp hx with rfl | hx
          · exact .inl rfl
          · exact .inr (List.mem_cons_of_mem _ hx)
        · rcases List.mem_cons.mp hx with rfl | hx
          · exact .inr (by simp)
          · rcases ih x hx with h | h
            · exact .inl h
            · exact .inr (List.mem_cons_of_mem _ h)
  induction l with
  | nil => simp [setResp]
  | cons e l ih =>
    obtain ⟨j, w⟩ := e
    obtain ⟨h1, h2⟩ := List.pairwise_cons.mp h
    simp only [setResp]
    split
    · rename_i hlt
      refine List.pairwise_cons.mpr ⟨?_, h⟩
      intro x hx
      rcases List.mem_cons.mp hx with rfl | hx
      · exact hlt
      · exact lt_trans hlt (h1 x hx)
    · split
      · rename_i h'
        subst h'
        exact List.pairwise_cons.mpr ⟨h1, h2⟩
      · rename_i hn hne
        refine List.pairwise_cons.mpr ⟨?_, ih h2⟩
        intro x hx
        rcases hmem l x hx with hx | hx
        · show j < x.1
          omega
        · exact h1 x hx

/-- The response just set is the one read. -/
theorem find_setResp (l : List (Nat × Word)) (i : Nat) (v : Word) :
    ((setResp l i v).find? (fun e => e.1 == i)).map (·.2) = some v := by
  induction l with
  | nil => simp [setResp]
  | cons e l ih =>
    obtain ⟨j, w⟩ := e
    simp only [setResp]
    split
    · simp
    · split
      · simp
      · rename_i hn hne
        have : ¬ j = i := fun h => hne h.symm
        simp [this, ih]

end Sys2Proof.Machine
end

