-- ==== Sys2Proof/Laws/State.lean ====
section
/-! SUPPORT. The updates of the state, field by field: what each leaves and what it writes. -/

namespace Sys2Proof.Machine


/-! ### put -/

@[simp] theorem put_buf (b : Byte) (s : State) : (put b s).buf = s.buf.write s.wr b := rfl
@[simp] theorem put_rd (b : Byte) (s : State) : (put b s).rd = s.rd := rfl
@[simp] theorem put_wr (b : Byte) (s : State) : (put b s).wr = (s.wr + 1) % s.cap := rfl
@[simp] theorem put_cnt (b : Byte) (s : State) : (put b s).cnt = s.cnt + 1 := rfl
@[simp] theorem put_nin (b : Byte) (s : State) : (put b s).nin = s.nin + 1 := rfl
@[simp] theorem put_nout (b : Byte) (s : State) : (put b s).nout = s.nout := rfl
@[simp] theorem put_cap (b : Byte) (s : State) : (put b s).cap = s.cap := rfl
@[simp] theorem put_inited (b : Byte) (s : State) : (put b s).inited = s.inited := rfl
@[simp] theorem put_phase (b : Byte) (s : State) : (put b s).phase = s.phase := rfl
@[simp] theorem put_rem (b : Byte) (s : State) : (put b s).rem = s.rem := rfl
@[simp] theorem put_acc (b : Byte) (s : State) : (put b s).acc = s.acc := rfl
@[simp] theorem put_k (b : Byte) (s : State) : (put b s).k = s.k := rfl
@[simp] theorem put_unit (b : Byte) (s : State) : (put b s).unit = s.unit := rfl
@[simp] theorem put_cwait (b : Byte) (s : State) : (put b s).cwait = s.cwait := rfl
@[simp] theorem put_dreq (b : Byte) (s : State) : (put b s).dreq = s.dreq := rfl
@[simp] theorem put_dstate (b : Byte) (s : State) : (put b s).dstate = s.dstate := rfl
@[simp] theorem put_dpay (b : Byte) (s : State) : (put b s).dpay = s.dpay := rfl
@[simp] theorem put_tbusy (b : Byte) (s : State) : (put b s).tbusy = s.tbusy := rfl
@[simp] theorem put_tword (b : Byte) (s : State) : (put b s).tword = s.tword := rfl
@[simp] theorem put_hidx (b : Byte) (s : State) : (put b s).hidx = s.hidx := rfl
@[simp] theorem put_tier (b : Byte) (s : State) : (put b s).tier = s.tier := rfl
@[simp] theorem put_tticks (b : Byte) (s : State) : (put b s).tticks = s.tticks := rfl
@[simp] theorem put_chBusy (b : Byte) (s : State) : (put b s).chBusy = s.chBusy := rfl
@[simp] theorem put_chData (b : Byte) (s : State) : (put b s).chData = s.chData := rfl
@[simp] theorem put_chOther (b : Byte) (s : State) : (put b s).chOther = s.chOther := rfl
@[simp] theorem put_wire (b : Byte) (s : State) : (put b s).wire = s.wire := rfl
@[simp] theorem put_hostrx (b : Byte) (s : State) : (put b s).hostrx = s.hostrx := rfl
@[simp] theorem put_grant (b : Byte) (s : State) : (put b s).grant = s.grant := rfl
@[simp] theorem put_resp (b : Byte) (s : State) : (put b s).resp = s.resp := rfl
@[simp] theorem put_deqByte (b : Byte) (s : State) : (put b s).deqByte = s.deqByte := rfl
@[simp] theorem put_mark (b : Byte) (s : State) : (put b s).mark = s.mark := rfl
@[simp] theorem put_issuer (b : Byte) (s : State) : (put b s).issuer = s.issuer := rfl
@[simp] theorem put_inbox (b : Byte) (s : State) : (put b s).inbox = s.inbox := rfl
@[simp] theorem put_draws (b : Byte) (s : State) : (put b s).draws = s.draws := rfl
@[simp] theorem put_params (b : Byte) (s : State) : (put b s).params = s.params := rfl

/-! ### emit -/

@[simp] theorem emit_buf (w : Word) (s : State) : (emit w s).buf = s.buf := rfl
@[simp] theorem emit_rd (w : Word) (s : State) : (emit w s).rd = s.rd := rfl
@[simp] theorem emit_wr (w : Word) (s : State) : (emit w s).wr = s.wr := rfl
@[simp] theorem emit_cnt (w : Word) (s : State) : (emit w s).cnt = s.cnt := rfl
@[simp] theorem emit_nin (w : Word) (s : State) : (emit w s).nin = s.nin := rfl
@[simp] theorem emit_nout (w : Word) (s : State) : (emit w s).nout = s.nout := rfl
@[simp] theorem emit_cap (w : Word) (s : State) : (emit w s).cap = s.cap := rfl
@[simp] theorem emit_inited (w : Word) (s : State) : (emit w s).inited = s.inited := rfl
@[simp] theorem emit_phase (w : Word) (s : State) : (emit w s).phase = s.phase := rfl
@[simp] theorem emit_rem (w : Word) (s : State) : (emit w s).rem = s.rem := rfl
@[simp] theorem emit_acc (w : Word) (s : State) : (emit w s).acc = s.acc := rfl
@[simp] theorem emit_k (w : Word) (s : State) : (emit w s).k = s.k := rfl
@[simp] theorem emit_unit (w : Word) (s : State) : (emit w s).unit = s.unit := rfl
@[simp] theorem emit_cwait (w : Word) (s : State) : (emit w s).cwait = s.cwait := rfl
@[simp] theorem emit_dreq (w : Word) (s : State) : (emit w s).dreq = s.dreq := rfl
@[simp] theorem emit_dstate (w : Word) (s : State) : (emit w s).dstate = s.dstate := rfl
@[simp] theorem emit_dpay (w : Word) (s : State) : (emit w s).dpay = s.dpay := rfl
@[simp] theorem emit_tbusy (w : Word) (s : State) : (emit w s).tbusy = true := rfl
@[simp] theorem emit_tword (w : Word) (s : State) : (emit w s).tword = w := rfl
@[simp] theorem emit_hidx (w : Word) (s : State) : (emit w s).hidx = 0 := rfl
@[simp] theorem emit_tier (w : Word) (s : State) : (emit w s).tier = .fast := rfl
@[simp] theorem emit_tticks (w : Word) (s : State) : (emit w s).tticks = 0 := rfl
@[simp] theorem emit_chBusy (w : Word) (s : State) : (emit w s).chBusy = s.chBusy := rfl
@[simp] theorem emit_chData (w : Word) (s : State) : (emit w s).chData = s.chData := rfl
@[simp] theorem emit_chOther (w : Word) (s : State) : (emit w s).chOther = s.chOther := rfl
@[simp] theorem emit_wire (w : Word) (s : State) : (emit w s).wire = s.wire := rfl
@[simp] theorem emit_hostrx (w : Word) (s : State) : (emit w s).hostrx = s.hostrx := rfl
@[simp] theorem emit_grant (w : Word) (s : State) : (emit w s).grant = s.grant := rfl
@[simp] theorem emit_resp (w : Word) (s : State) : (emit w s).resp = s.resp := rfl
@[simp] theorem emit_deqByte (w : Word) (s : State) : (emit w s).deqByte = s.deqByte := rfl
@[simp] theorem emit_mark (w : Word) (s : State) : (emit w s).mark = s.mark := rfl
@[simp] theorem emit_issuer (w : Word) (s : State) : (emit w s).issuer = s.issuer := rfl
@[simp] theorem emit_inbox (w : Word) (s : State) : (emit w s).inbox = s.inbox := rfl
@[simp] theorem emit_draws (w : Word) (s : State) : (emit w s).draws = s.draws := rfl
@[simp] theorem emit_params (w : Word) (s : State) : (emit w s).params = s.params := rfl

/-! ### startBody -/

@[simp] theorem startBody_buf (u : UnitSize) (n : Nat) (s : State) : (startBody u n s).buf = s.buf := rfl
@[simp] theorem startBody_rd (u : UnitSize) (n : Nat) (s : State) : (startBody u n s).rd = s.rd := rfl
@[simp] theorem startBody_wr (u : UnitSize) (n : Nat) (s : State) : (startBody u n s).wr = s.wr := rfl
@[simp] theorem startBody_cnt (u : UnitSize) (n : Nat) (s : State) : (startBody u n s).cnt = s.cnt := rfl
@[simp] theorem startBody_nin (u : UnitSize) (n : Nat) (s : State) : (startBody u n s).nin = s.nin := rfl
@[simp] theorem startBody_nout (u : UnitSize) (n : Nat) (s : State) : (startBody u n s).nout = s.nout := rfl
@[simp] theorem startBody_cap (u : UnitSize) (n : Nat) (s : State) : (startBody u n s).cap = s.cap := rfl
@[simp] theorem startBody_inited (u : UnitSize) (n : Nat) (s : State) : (startBody u n s).inited = s.inited := rfl
@[simp] theorem startBody_phase (u : UnitSize) (n : Nat) (s : State) : (startBody u n s).phase = s.phase := rfl
@[simp] theorem startBody_rem (u : UnitSize) (n : Nat) (s : State) : (startBody u n s).rem = n := rfl
@[simp] theorem startBody_acc (u : UnitSize) (n : Nat) (s : State) : (startBody u n s).acc = 0 := rfl
@[simp] theorem startBody_k (u : UnitSize) (n : Nat) (s : State) : (startBody u n s).k = 0 := rfl
@[simp] theorem startBody_unit (u : UnitSize) (n : Nat) (s : State) : (startBody u n s).unit = u := rfl
@[simp] theorem startBody_cwait (u : UnitSize) (n : Nat) (s : State) : (startBody u n s).cwait = s.cwait := rfl
@[simp] theorem startBody_dreq (u : UnitSize) (n : Nat) (s : State) : (startBody u n s).dreq = s.dreq := rfl
@[simp] theorem startBody_dstate (u : UnitSize) (n : Nat) (s : State) : (startBody u n s).dstate = s.dstate := rfl
@[simp] theorem startBody_dpay (u : UnitSize) (n : Nat) (s : State) : (startBody u n s).dpay = s.dpay := rfl
@[simp] theorem startBody_tbusy (u : UnitSize) (n : Nat) (s : State) : (startBody u n s).tbusy = s.tbusy := rfl
@[simp] theorem startBody_tword (u : UnitSize) (n : Nat) (s : State) : (startBody u n s).tword = s.tword := rfl
@[simp] theorem startBody_hidx (u : UnitSize) (n : Nat) (s : State) : (startBody u n s).hidx = s.hidx := rfl
@[simp] theorem startBody_tier (u : UnitSize) (n : Nat) (s : State) : (startBody u n s).tier = s.tier := rfl
@[simp] theorem startBody_tticks (u : UnitSize) (n : Nat) (s : State) : (startBody u n s).tticks = s.tticks := rfl
@[simp] theorem startBody_chBusy (u : UnitSize) (n : Nat) (s : State) : (startBody u n s).chBusy = s.chBusy := rfl
@[simp] theorem startBody_chData (u : UnitSize) (n : Nat) (s : State) : (startBody u n s).chData = s.chData := rfl
@[simp] theorem startBody_chOther (u : UnitSize) (n : Nat) (s : State) : (startBody u n s).chOther = s.chOther := rfl
@[simp] theorem startBody_wire (u : UnitSize) (n : Nat) (s : State) : (startBody u n s).wire = s.wire := rfl
@[simp] theorem startBody_hostrx (u : UnitSize) (n : Nat) (s : State) : (startBody u n s).hostrx = s.hostrx := rfl
@[simp] theorem startBody_grant (u : UnitSize) (n : Nat) (s : State) : (startBody u n s).grant = s.grant := rfl
@[simp] theorem startBody_resp (u : UnitSize) (n : Nat) (s : State) : (startBody u n s).resp = s.resp := rfl
@[simp] theorem startBody_deqByte (u : UnitSize) (n : Nat) (s : State) : (startBody u n s).deqByte = s.deqByte := rfl
@[simp] theorem startBody_mark (u : UnitSize) (n : Nat) (s : State) : (startBody u n s).mark = s.mark := rfl
@[simp] theorem startBody_issuer (u : UnitSize) (n : Nat) (s : State) : (startBody u n s).issuer = s.issuer := rfl
@[simp] theorem startBody_inbox (u : UnitSize) (n : Nat) (s : State) : (startBody u n s).inbox = s.inbox := rfl
@[simp] theorem startBody_draws (u : UnitSize) (n : Nat) (s : State) : (startBody u n s).draws = s.draws := rfl
@[simp] theorem startBody_params (u : UnitSize) (n : Nat) (s : State) : (startBody u n s).params = s.params := rfl

/-! ### latch -/

@[simp] theorem latch_buf (c : DirectCmd) (s : State) : (latch c s).buf = s.buf := rfl
@[simp] theorem latch_rd (c : DirectCmd) (s : State) : (latch c s).rd = s.rd := rfl
@[simp] theorem latch_wr (c : DirectCmd) (s : State) : (latch c s).wr = s.wr := rfl
@[simp] theorem latch_cnt (c : DirectCmd) (s : State) : (latch c s).cnt = s.cnt := rfl
@[simp] theorem latch_nin (c : DirectCmd) (s : State) : (latch c s).nin = s.nin := rfl
@[simp] theorem latch_nout (c : DirectCmd) (s : State) : (latch c s).nout = s.nout := rfl
@[simp] theorem latch_cap (c : DirectCmd) (s : State) : (latch c s).cap = s.cap := rfl
@[simp] theorem latch_inited (c : DirectCmd) (s : State) : (latch c s).inited = s.inited := rfl
@[simp] theorem latch_phase (c : DirectCmd) (s : State) : (latch c s).phase = s.phase := rfl
@[simp] theorem latch_rem (c : DirectCmd) (s : State) : (latch c s).rem = s.rem := rfl
@[simp] theorem latch_acc (c : DirectCmd) (s : State) : (latch c s).acc = s.acc := rfl
@[simp] theorem latch_k (c : DirectCmd) (s : State) : (latch c s).k = s.k := rfl
@[simp] theorem latch_unit (c : DirectCmd) (s : State) : (latch c s).unit = s.unit := rfl
@[simp] theorem latch_cwait (c : DirectCmd) (s : State) : (latch c s).cwait = s.cwait := rfl
@[simp] theorem latch_dreq (c : DirectCmd) (s : State) : (latch c s).dreq = some c := rfl
@[simp] theorem latch_dstate (c : DirectCmd) (s : State) : (latch c s).dstate = .pending := rfl
@[simp] theorem latch_dpay (c : DirectCmd) (s : State) : (latch c s).dpay = directPayload c := rfl
@[simp] theorem latch_tbusy (c : DirectCmd) (s : State) : (latch c s).tbusy = s.tbusy := rfl
@[simp] theorem latch_tword (c : DirectCmd) (s : State) : (latch c s).tword = s.tword := rfl
@[simp] theorem latch_hidx (c : DirectCmd) (s : State) : (latch c s).hidx = s.hidx := rfl
@[simp] theorem latch_tier (c : DirectCmd) (s : State) : (latch c s).tier = s.tier := rfl
@[simp] theorem latch_tticks (c : DirectCmd) (s : State) : (latch c s).tticks = s.tticks := rfl
@[simp] theorem latch_chBusy (c : DirectCmd) (s : State) : (latch c s).chBusy = s.chBusy := rfl
@[simp] theorem latch_chData (c : DirectCmd) (s : State) : (latch c s).chData = s.chData := rfl
@[simp] theorem latch_chOther (c : DirectCmd) (s : State) : (latch c s).chOther = s.chOther := rfl
@[simp] theorem latch_wire (c : DirectCmd) (s : State) : (latch c s).wire = s.wire := rfl
@[simp] theorem latch_hostrx (c : DirectCmd) (s : State) : (latch c s).hostrx = s.hostrx := rfl
@[simp] theorem latch_grant (c : DirectCmd) (s : State) : (latch c s).grant = s.grant := rfl
@[simp] theorem latch_resp (c : DirectCmd) (s : State) : (latch c s).resp = s.resp := rfl
@[simp] theorem latch_deqByte (c : DirectCmd) (s : State) : (latch c s).deqByte = s.deqByte := rfl
@[simp] theorem latch_mark (c : DirectCmd) (s : State) : (latch c s).mark = s.mark := rfl
@[simp] theorem latch_issuer (c : DirectCmd) (s : State) : (latch c s).issuer = s.issuer := rfl
@[simp] theorem latch_inbox (c : DirectCmd) (s : State) : (latch c s).inbox = s.inbox := rfl
@[simp] theorem latch_draws (c : DirectCmd) (s : State) : (latch c s).draws = s.draws := rfl
@[simp] theorem latch_params (c : DirectCmd) (s : State) : (latch c s).params = s.params := rfl

/-! ### asSequencer -/

@[simp] theorem asSequencer_buf (s : State) : (asSequencer s).buf = s.buf := rfl
@[simp] theorem asSequencer_rd (s : State) : (asSequencer s).rd = s.rd := rfl
@[simp] theorem asSequencer_wr (s : State) : (asSequencer s).wr = s.wr := rfl
@[simp] theorem asSequencer_cnt (s : State) : (asSequencer s).cnt = s.cnt := rfl
@[simp] theorem asSequencer_nin (s : State) : (asSequencer s).nin = s.nin := rfl
@[simp] theorem asSequencer_nout (s : State) : (asSequencer s).nout = s.nout := rfl
@[simp] theorem asSequencer_cap (s : State) : (asSequencer s).cap = s.cap := rfl
@[simp] theorem asSequencer_inited (s : State) : (asSequencer s).inited = s.inited := rfl
@[simp] theorem asSequencer_phase (s : State) : (asSequencer s).phase = s.phase := rfl
@[simp] theorem asSequencer_rem (s : State) : (asSequencer s).rem = s.rem := rfl
@[simp] theorem asSequencer_acc (s : State) : (asSequencer s).acc = s.acc := rfl
@[simp] theorem asSequencer_k (s : State) : (asSequencer s).k = s.k := rfl
@[simp] theorem asSequencer_unit (s : State) : (asSequencer s).unit = s.unit := rfl
@[simp] theorem asSequencer_cwait (s : State) : (asSequencer s).cwait = s.cwait := rfl
@[simp] theorem asSequencer_dreq (s : State) : (asSequencer s).dreq = s.dreq := rfl
@[simp] theorem asSequencer_dstate (s : State) : (asSequencer s).dstate = s.dstate := rfl
@[simp] theorem asSequencer_dpay (s : State) : (asSequencer s).dpay = s.dpay := rfl
@[simp] theorem asSequencer_tbusy (s : State) : (asSequencer s).tbusy = s.tbusy := rfl
@[simp] theorem asSequencer_tword (s : State) : (asSequencer s).tword = s.tword := rfl
@[simp] theorem asSequencer_hidx (s : State) : (asSequencer s).hidx = s.hidx := rfl
@[simp] theorem asSequencer_tier (s : State) : (asSequencer s).tier = s.tier := rfl
@[simp] theorem asSequencer_tticks (s : State) : (asSequencer s).tticks = s.tticks := rfl
@[simp] theorem asSequencer_chBusy (s : State) : (asSequencer s).chBusy = s.chBusy := rfl
@[simp] theorem asSequencer_chData (s : State) : (asSequencer s).chData = s.chData := rfl
@[simp] theorem asSequencer_chOther (s : State) : (asSequencer s).chOther = s.chOther := rfl
@[simp] theorem asSequencer_wire (s : State) : (asSequencer s).wire = s.wire := rfl
@[simp] theorem asSequencer_hostrx (s : State) : (asSequencer s).hostrx = s.hostrx := rfl
@[simp] theorem asSequencer_grant (s : State) : (asSequencer s).grant = s.grant := rfl
@[simp] theorem asSequencer_resp (s : State) : (asSequencer s).resp = s.resp := rfl
@[simp] theorem asSequencer_deqByte (s : State) : (asSequencer s).deqByte = s.deqByte := rfl
@[simp] theorem asSequencer_mark (s : State) : (asSequencer s).mark = s.mark := rfl
@[simp] theorem asSequencer_issuer (s : State) : (asSequencer s).issuer = ⟨.sequencer, none⟩ := rfl
@[simp] theorem asSequencer_inbox (s : State) : (asSequencer s).inbox = s.inbox := rfl
@[simp] theorem asSequencer_draws (s : State) : (asSequencer s).draws = s.draws := rfl
@[simp] theorem asSequencer_params (s : State) : (asSequencer s).params = s.params := rfl

/-! ### channelWrite -/

@[simp] theorem channelWrite_buf (w : Word) (s : State) : (channelWrite w s).buf = s.buf := rfl
@[simp] theorem channelWrite_rd (w : Word) (s : State) : (channelWrite w s).rd = s.rd := rfl
@[simp] theorem channelWrite_wr (w : Word) (s : State) : (channelWrite w s).wr = s.wr := rfl
@[simp] theorem channelWrite_cnt (w : Word) (s : State) : (channelWrite w s).cnt = s.cnt := rfl
@[simp] theorem channelWrite_nin (w : Word) (s : State) : (channelWrite w s).nin = s.nin := rfl
@[simp] theorem channelWrite_nout (w : Word) (s : State) : (channelWrite w s).nout = s.nout := rfl
@[simp] theorem channelWrite_cap (w : Word) (s : State) : (channelWrite w s).cap = s.cap := rfl
@[simp] theorem channelWrite_inited (w : Word) (s : State) : (channelWrite w s).inited = s.inited := rfl
@[simp] theorem channelWrite_phase (w : Word) (s : State) : (channelWrite w s).phase = s.phase := rfl
@[simp] theorem channelWrite_rem (w : Word) (s : State) : (channelWrite w s).rem = s.rem := rfl
@[simp] theorem channelWrite_acc (w : Word) (s : State) : (channelWrite w s).acc = s.acc := rfl
@[simp] theorem channelWrite_k (w : Word) (s : State) : (channelWrite w s).k = s.k := rfl
@[simp] theorem channelWrite_unit (w : Word) (s : State) : (channelWrite w s).unit = s.unit := rfl
@[simp] theorem channelWrite_cwait (w : Word) (s : State) : (channelWrite w s).cwait = s.cwait := rfl
@[simp] theorem channelWrite_dreq (w : Word) (s : State) : (channelWrite w s).dreq = s.dreq := rfl
@[simp] theorem channelWrite_dstate (w : Word) (s : State) : (channelWrite w s).dstate = s.dstate := rfl
@[simp] theorem channelWrite_dpay (w : Word) (s : State) : (channelWrite w s).dpay = s.dpay := rfl
@[simp] theorem channelWrite_tbusy (w : Word) (s : State) : (channelWrite w s).tbusy = s.tbusy := rfl
@[simp] theorem channelWrite_tword (w : Word) (s : State) : (channelWrite w s).tword = s.tword := rfl
@[simp] theorem channelWrite_hidx (w : Word) (s : State) : (channelWrite w s).hidx = s.hidx := rfl
@[simp] theorem channelWrite_tier (w : Word) (s : State) : (channelWrite w s).tier = s.tier := rfl
@[simp] theorem channelWrite_tticks (w : Word) (s : State) : (channelWrite w s).tticks = s.tticks := rfl
@[simp] theorem channelWrite_chBusy (w : Word) (s : State) : (channelWrite w s).chBusy = true := rfl
@[simp] theorem channelWrite_chData (w : Word) (s : State) : (channelWrite w s).chData = w := rfl
@[simp] theorem channelWrite_chOther (w : Word) (s : State) : (channelWrite w s).chOther = (match s.params.variant with | .modern => 0 | .legacy => s.chOther) := rfl
@[simp] theorem channelWrite_wire (w : Word) (s : State) : (channelWrite w s).wire = s.wire ++ [w] := rfl
@[simp] theorem channelWrite_hostrx (w : Word) (s : State) : (channelWrite w s).hostrx = s.hostrx := rfl
@[simp] theorem channelWrite_grant (w : Word) (s : State) : (channelWrite w s).grant = s.grant := rfl
@[simp] theorem channelWrite_resp (w : Word) (s : State) : (channelWrite w s).resp = s.resp := rfl
@[simp] theorem channelWrite_deqByte (w : Word) (s : State) : (channelWrite w s).deqByte = s.deqByte := rfl
@[simp] theorem channelWrite_mark (w : Word) (s : State) : (channelWrite w s).mark = s.mark := rfl
@[simp] theorem channelWrite_issuer (w : Word) (s : State) : (channelWrite w s).issuer = s.issuer := rfl
@[simp] theorem channelWrite_inbox (w : Word) (s : State) : (channelWrite w s).inbox = s.inbox := rfl
@[simp] theorem channelWrite_draws (w : Word) (s : State) : (channelWrite w s).draws = s.draws := rfl
@[simp] theorem channelWrite_params (w : Word) (s : State) : (channelWrite w s).params = s.params := rfl

/-! ### escalate -/

@[simp] theorem escalate_buf (s : State) : (escalate s).buf = s.buf := by unfold escalate; split <;> rfl
@[simp] theorem escalate_rd (s : State) : (escalate s).rd = s.rd := by unfold escalate; split <;> rfl
@[simp] theorem escalate_wr (s : State) : (escalate s).wr = s.wr := by unfold escalate; split <;> rfl
@[simp] theorem escalate_cnt (s : State) : (escalate s).cnt = s.cnt := by unfold escalate; split <;> rfl
@[simp] theorem escalate_nin (s : State) : (escalate s).nin = s.nin := by unfold escalate; split <;> rfl
@[simp] theorem escalate_nout (s : State) : (escalate s).nout = s.nout := by unfold escalate; split <;> rfl
@[simp] theorem escalate_cap (s : State) : (escalate s).cap = s.cap := by unfold escalate; split <;> rfl
@[simp] theorem escalate_inited (s : State) : (escalate s).inited = s.inited := by unfold escalate; split <;> rfl
@[simp] theorem escalate_phase (s : State) : (escalate s).phase = s.phase := by unfold escalate; split <;> rfl
@[simp] theorem escalate_rem (s : State) : (escalate s).rem = s.rem := by unfold escalate; split <;> rfl
@[simp] theorem escalate_acc (s : State) : (escalate s).acc = s.acc := by unfold escalate; split <;> rfl
@[simp] theorem escalate_k (s : State) : (escalate s).k = s.k := by unfold escalate; split <;> rfl
@[simp] theorem escalate_unit (s : State) : (escalate s).unit = s.unit := by unfold escalate; split <;> rfl
@[simp] theorem escalate_cwait (s : State) : (escalate s).cwait = s.cwait := by unfold escalate; split <;> rfl
@[simp] theorem escalate_dreq (s : State) : (escalate s).dreq = s.dreq := by unfold escalate; split <;> rfl
@[simp] theorem escalate_dstate (s : State) : (escalate s).dstate = s.dstate := by unfold escalate; split <;> rfl
@[simp] theorem escalate_dpay (s : State) : (escalate s).dpay = s.dpay := by unfold escalate; split <;> rfl
@[simp] theorem escalate_tbusy (s : State) : (escalate s).tbusy = s.tbusy := by unfold escalate; split <;> rfl
@[simp] theorem escalate_tword (s : State) : (escalate s).tword = s.tword := by unfold escalate; split <;> rfl
@[simp] theorem escalate_hidx (s : State) : (escalate s).hidx = s.hidx := by unfold escalate; split <;> rfl
@[simp] theorem escalate_tier (s : State) : (escalate s).tier = (if s.params.spinTicks ≤ s.tticks then .slow else s.tier) := by unfold escalate; split <;> rfl
@[simp] theorem escalate_tticks (s : State) : (escalate s).tticks = s.tticks := by unfold escalate; split <;> rfl
@[simp] theorem escalate_chBusy (s : State) : (escalate s).chBusy = s.chBusy := by unfold escalate; split <;> rfl
@[simp] theorem escalate_chData (s : State) : (escalate s).chData = s.chData := by unfold escalate; split <;> rfl
@[simp] theorem escalate_chOther (s : State) : (escalate s).chOther = s.chOther := by unfold escalate; split <;> rfl
@[simp] theorem escalate_wire (s : State) : (escalate s).wire = s.wire := by unfold escalate; split <;> rfl
@[simp] theorem escalate_hostrx (s : State) : (escalate s).hostrx = s.hostrx := by unfold escalate; split <;> rfl
@[simp] theorem escalate_grant (s : State) : (escalate s).grant = s.grant := by unfold escalate; split <;> rfl
@[simp] theorem escalate_resp (s : State) : (escalate s).resp = s.resp := by unfold escalate; split <;> rfl
@[simp] theorem escalate_deqByte (s : State) : (escalate s).deqByte = s.deqByte := by unfold escalate; split <;> rfl
@[simp] theorem escalate_mark (s : State) : (escalate s).mark = s.mark := by unfold escalate; split <;> rfl
@[simp] theorem escalate_issuer (s : State) : (escalate s).issuer = s.issuer := by unfold escalate; split <;> rfl
@[simp] theorem escalate_inbox (s : State) : (escalate s).inbox = s.inbox := by unfold escalate; split <;> rfl
@[simp] theorem escalate_draws (s : State) : (escalate s).draws = s.draws := by unfold escalate; split <;> rfl
@[simp] theorem escalate_params (s : State) : (escalate s).params = s.params := by unfold escalate; split <;> rfl

/-! ### respond -/

@[simp] theorem respond_buf (v : Word) (s : State) : (respond v s).buf = s.buf := by unfold respond; split <;> rfl
@[simp] theorem respond_rd (v : Word) (s : State) : (respond v s).rd = s.rd := by unfold respond; split <;> rfl
@[simp] theorem respond_wr (v : Word) (s : State) : (respond v s).wr = s.wr := by unfold respond; split <;> rfl
@[simp] theorem respond_cnt (v : Word) (s : State) : (respond v s).cnt = s.cnt := by unfold respond; split <;> rfl
@[simp] theorem respond_nin (v : Word) (s : State) : (respond v s).nin = s.nin := by unfold respond; split <;> rfl
@[simp] theorem respond_nout (v : Word) (s : State) : (respond v s).nout = s.nout := by unfold respond; split <;> rfl
@[simp] theorem respond_cap (v : Word) (s : State) : (respond v s).cap = s.cap := by unfold respond; split <;> rfl
@[simp] theorem respond_inited (v : Word) (s : State) : (respond v s).inited = s.inited := by unfold respond; split <;> rfl
@[simp] theorem respond_phase (v : Word) (s : State) : (respond v s).phase = s.phase := by unfold respond; split <;> rfl
@[simp] theorem respond_rem (v : Word) (s : State) : (respond v s).rem = s.rem := by unfold respond; split <;> rfl
@[simp] theorem respond_acc (v : Word) (s : State) : (respond v s).acc = s.acc := by unfold respond; split <;> rfl
@[simp] theorem respond_k (v : Word) (s : State) : (respond v s).k = s.k := by unfold respond; split <;> rfl
@[simp] theorem respond_unit (v : Word) (s : State) : (respond v s).unit = s.unit := by unfold respond; split <;> rfl
@[simp] theorem respond_cwait (v : Word) (s : State) : (respond v s).cwait = s.cwait := by unfold respond; split <;> rfl
@[simp] theorem respond_dreq (v : Word) (s : State) : (respond v s).dreq = s.dreq := by unfold respond; split <;> rfl
@[simp] theorem respond_dstate (v : Word) (s : State) : (respond v s).dstate = s.dstate := by unfold respond; split <;> rfl
@[simp] theorem respond_dpay (v : Word) (s : State) : (respond v s).dpay = s.dpay := by unfold respond; split <;> rfl
@[simp] theorem respond_tbusy (v : Word) (s : State) : (respond v s).tbusy = s.tbusy := by unfold respond; split <;> rfl
@[simp] theorem respond_tword (v : Word) (s : State) : (respond v s).tword = s.tword := by unfold respond; split <;> rfl
@[simp] theorem respond_hidx (v : Word) (s : State) : (respond v s).hidx = s.hidx := by unfold respond; split <;> rfl
@[simp] theorem respond_tier (v : Word) (s : State) : (respond v s).tier = s.tier := by unfold respond; split <;> rfl
@[simp] theorem respond_tticks (v : Word) (s : State) : (respond v s).tticks = s.tticks := by unfold respond; split <;> rfl
@[simp] theorem respond_chBusy (v : Word) (s : State) : (respond v s).chBusy = s.chBusy := by unfold respond; split <;> rfl
@[simp] theorem respond_chData (v : Word) (s : State) : (respond v s).chData = s.chData := by unfold respond; split <;> rfl
@[simp] theorem respond_chOther (v : Word) (s : State) : (respond v s).chOther = s.chOther := by unfold respond; split <;> rfl
@[simp] theorem respond_wire (v : Word) (s : State) : (respond v s).wire = s.wire := by unfold respond; split <;> rfl
@[simp] theorem respond_hostrx (v : Word) (s : State) : (respond v s).hostrx = s.hostrx := by unfold respond; split <;> rfl
@[simp] theorem respond_grant (v : Word) (s : State) : (respond v s).grant = s.grant := by unfold respond; split <;> rfl
@[simp] theorem respond_deqByte (v : Word) (s : State) : (respond v s).deqByte = s.deqByte := by unfold respond; split <;> rfl
@[simp] theorem respond_mark (v : Word) (s : State) : (respond v s).mark = s.mark := by unfold respond; split <;> rfl
@[simp] theorem respond_issuer (v : Word) (s : State) : (respond v s).issuer = s.issuer := by unfold respond; split <;> rfl
@[simp] theorem respond_inbox (v : Word) (s : State) : (respond v s).inbox = s.inbox := by unfold respond; split <;> rfl
@[simp] theorem respond_draws (v : Word) (s : State) : (respond v s).draws = s.draws := by unfold respond; split <;> rfl
@[simp] theorem respond_params (v : Word) (s : State) : (respond v s).params = s.params := by unfold respond; split <;> rfl

/-! ### popTurn -/

@[simp] theorem popTurn_buf (s : State) : (popTurn s).buf = s.buf := by unfold popTurn; split <;> simp_all
@[simp] theorem popTurn_rd (s : State) : (popTurn s).rd = s.rd := by unfold popTurn; split <;> simp_all
@[simp] theorem popTurn_wr (s : State) : (popTurn s).wr = s.wr := by unfold popTurn; split <;> simp_all
@[simp] theorem popTurn_cnt (s : State) : (popTurn s).cnt = s.cnt := by unfold popTurn; split <;> simp_all
@[simp] theorem popTurn_nin (s : State) : (popTurn s).nin = s.nin := by unfold popTurn; split <;> simp_all
@[simp] theorem popTurn_nout (s : State) : (popTurn s).nout = s.nout := by unfold popTurn; split <;> simp_all
@[simp] theorem popTurn_cap (s : State) : (popTurn s).cap = s.cap := by unfold popTurn; split <;> simp_all
@[simp] theorem popTurn_inited (s : State) : (popTurn s).inited = s.inited := by unfold popTurn; split <;> simp_all
@[simp] theorem popTurn_phase (s : State) : (popTurn s).phase = s.phase := by unfold popTurn; split <;> simp_all
@[simp] theorem popTurn_rem (s : State) : (popTurn s).rem = s.rem := by unfold popTurn; split <;> simp_all
@[simp] theorem popTurn_acc (s : State) : (popTurn s).acc = s.acc := by unfold popTurn; split <;> simp_all
@[simp] theorem popTurn_k (s : State) : (popTurn s).k = s.k := by unfold popTurn; split <;> simp_all
@[simp] theorem popTurn_unit (s : State) : (popTurn s).unit = s.unit := by unfold popTurn; split <;> simp_all
@[simp] theorem popTurn_cwait (s : State) : (popTurn s).cwait = s.cwait := by unfold popTurn; split <;> simp_all
@[simp] theorem popTurn_dreq (s : State) : (popTurn s).dreq = s.dreq := by unfold popTurn; split <;> simp_all
@[simp] theorem popTurn_dstate (s : State) : (popTurn s).dstate = s.dstate := by unfold popTurn; split <;> simp_all
@[simp] theorem popTurn_dpay (s : State) : (popTurn s).dpay = s.dpay := by unfold popTurn; split <;> simp_all
@[simp] theorem popTurn_tbusy (s : State) : (popTurn s).tbusy = s.tbusy := by unfold popTurn; split <;> simp_all
@[simp] theorem popTurn_tword (s : State) : (popTurn s).tword = s.tword := by unfold popTurn; split <;> simp_all
@[simp] theorem popTurn_hidx (s : State) : (popTurn s).hidx = s.hidx := by unfold popTurn; split <;> simp_all
@[simp] theorem popTurn_tier (s : State) : (popTurn s).tier = s.tier := by unfold popTurn; split <;> simp_all
@[simp] theorem popTurn_tticks (s : State) : (popTurn s).tticks = s.tticks := by unfold popTurn; split <;> simp_all
@[simp] theorem popTurn_chBusy (s : State) : (popTurn s).chBusy = s.chBusy := by unfold popTurn; split <;> simp_all
@[simp] theorem popTurn_chData (s : State) : (popTurn s).chData = s.chData := by unfold popTurn; split <;> simp_all
@[simp] theorem popTurn_chOther (s : State) : (popTurn s).chOther = s.chOther := by unfold popTurn; split <;> simp_all
@[simp] theorem popTurn_wire (s : State) : (popTurn s).wire = s.wire := by unfold popTurn; split <;> simp_all
@[simp] theorem popTurn_hostrx (s : State) : (popTurn s).hostrx = s.hostrx := by unfold popTurn; split <;> simp_all
@[simp] theorem popTurn_grant (s : State) : (popTurn s).grant = s.grant := by unfold popTurn; split <;> simp_all
@[simp] theorem popTurn_resp (s : State) : (popTurn s).resp = s.resp := by unfold popTurn; split <;> simp_all
@[simp] theorem popTurn_deqByte (s : State) : (popTurn s).deqByte = s.deqByte := by unfold popTurn; split <;> simp_all
@[simp] theorem popTurn_mark (s : State) : (popTurn s).mark = s.mark := by unfold popTurn; split <;> simp_all
@[simp] theorem popTurn_issuer (s : State) : (popTurn s).issuer = s.issuer := by unfold popTurn; split <;> simp_all
@[simp] theorem popTurn_inbox (s : State) : (popTurn s).inbox = s.inbox.tail := by unfold popTurn; split <;> simp_all
@[simp] theorem popTurn_params (s : State) : (popTurn s).params = s.params := by unfold popTurn; split <;> simp_all

/-! ### marked -/

@[simp] theorem marked_buf (r : Reason) (s : State) : (marked r s).buf = s.buf := rfl
@[simp] theorem marked_rd (r : Reason) (s : State) : (marked r s).rd = s.rd := rfl
@[simp] theorem marked_wr (r : Reason) (s : State) : (marked r s).wr = s.wr := rfl
@[simp] theorem marked_cnt (r : Reason) (s : State) : (marked r s).cnt = s.cnt := rfl
@[simp] theorem marked_nin (r : Reason) (s : State) : (marked r s).nin = s.nin := rfl
@[simp] theorem marked_nout (r : Reason) (s : State) : (marked r s).nout = s.nout := rfl
@[simp] theorem marked_cap (r : Reason) (s : State) : (marked r s).cap = s.cap := rfl
@[simp] theorem marked_inited (r : Reason) (s : State) : (marked r s).inited = s.inited := rfl
@[simp] theorem marked_phase (r : Reason) (s : State) : (marked r s).phase = s.phase := rfl
@[simp] theorem marked_rem (r : Reason) (s : State) : (marked r s).rem = s.rem := rfl
@[simp] theorem marked_acc (r : Reason) (s : State) : (marked r s).acc = s.acc := rfl
@[simp] theorem marked_k (r : Reason) (s : State) : (marked r s).k = s.k := rfl
@[simp] theorem marked_unit (r : Reason) (s : State) : (marked r s).unit = s.unit := rfl
@[simp] theorem marked_cwait (r : Reason) (s : State) : (marked r s).cwait = s.cwait := rfl
@[simp] theorem marked_dreq (r : Reason) (s : State) : (marked r s).dreq = s.dreq := rfl
@[simp] theorem marked_dstate (r : Reason) (s : State) : (marked r s).dstate = s.dstate := rfl
@[simp] theorem marked_dpay (r : Reason) (s : State) : (marked r s).dpay = s.dpay := rfl
@[simp] theorem marked_tbusy (r : Reason) (s : State) : (marked r s).tbusy = s.tbusy := rfl
@[simp] theorem marked_tword (r : Reason) (s : State) : (marked r s).tword = s.tword := rfl
@[simp] theorem marked_hidx (r : Reason) (s : State) : (marked r s).hidx = s.hidx := rfl
@[simp] theorem marked_tier (r : Reason) (s : State) : (marked r s).tier = s.tier := rfl
@[simp] theorem marked_tticks (r : Reason) (s : State) : (marked r s).tticks = s.tticks := rfl
@[simp] theorem marked_chBusy (r : Reason) (s : State) : (marked r s).chBusy = s.chBusy := rfl
@[simp] theorem marked_chData (r : Reason) (s : State) : (marked r s).chData = s.chData := rfl
@[simp] theorem marked_chOther (r : Reason) (s : State) : (marked r s).chOther = s.chOther := rfl
@[simp] theorem marked_wire (r : Reason) (s : State) : (marked r s).wire = s.wire := rfl
@[simp] theorem marked_hostrx (r : Reason) (s : State) : (marked r s).hostrx = s.hostrx := rfl
@[simp] theorem marked_grant (r : Reason) (s : State) : (marked r s).grant = s.grant := rfl
@[simp] theorem marked_resp (r : Reason) (s : State) : (marked r s).resp = s.resp := rfl
@[simp] theorem marked_deqByte (r : Reason) (s : State) : (marked r s).deqByte = s.deqByte := rfl
@[simp] theorem marked_issuer (r : Reason) (s : State) : (marked r s).issuer = s.issuer := rfl
@[simp] theorem marked_inbox (r : Reason) (s : State) : (marked r s).inbox = s.inbox := rfl
@[simp] theorem marked_draws (r : Reason) (s : State) : (marked r s).draws = s.draws := rfl
@[simp] theorem marked_params (r : Reason) (s : State) : (marked r s).params = s.params := rfl

/-! ### answered -/

@[simp] theorem answered_buf (i : Nat) (v : Word) (s : State) : (answered i v s).buf = s.buf := rfl
@[simp] theorem answered_rd (i : Nat) (v : Word) (s : State) : (answered i v s).rd = s.rd := rfl
@[simp] theorem answered_wr (i : Nat) (v : Word) (s : State) : (answered i v s).wr = s.wr := rfl
@[simp] theorem answered_cnt (i : Nat) (v : Word) (s : State) : (answered i v s).cnt = s.cnt := rfl
@[simp] theorem answered_nin (i : Nat) (v : Word) (s : State) : (answered i v s).nin = s.nin := rfl
@[simp] theorem answered_nout (i : Nat) (v : Word) (s : State) : (answered i v s).nout = s.nout := rfl
@[simp] theorem answered_cap (i : Nat) (v : Word) (s : State) : (answered i v s).cap = s.cap := rfl
@[simp] theorem answered_inited (i : Nat) (v : Word) (s : State) : (answered i v s).inited = s.inited := rfl
@[simp] theorem answered_phase (i : Nat) (v : Word) (s : State) : (answered i v s).phase = s.phase := rfl
@[simp] theorem answered_rem (i : Nat) (v : Word) (s : State) : (answered i v s).rem = s.rem := rfl
@[simp] theorem answered_acc (i : Nat) (v : Word) (s : State) : (answered i v s).acc = s.acc := rfl
@[simp] theorem answered_k (i : Nat) (v : Word) (s : State) : (answered i v s).k = s.k := rfl
@[simp] theorem answered_unit (i : Nat) (v : Word) (s : State) : (answered i v s).unit = s.unit := rfl
@[simp] theorem answered_cwait (i : Nat) (v : Word) (s : State) : (answered i v s).cwait = s.cwait := rfl
@[simp] theorem answered_dreq (i : Nat) (v : Word) (s : State) : (answered i v s).dreq = s.dreq := rfl
@[simp] theorem answered_dstate (i : Nat) (v : Word) (s : State) : (answered i v s).dstate = s.dstate := rfl
@[simp] theorem answered_dpay (i : Nat) (v : Word) (s : State) : (answered i v s).dpay = s.dpay := rfl
@[simp] theorem answered_tbusy (i : Nat) (v : Word) (s : State) : (answered i v s).tbusy = s.tbusy := rfl
@[simp] theorem answered_tword (i : Nat) (v : Word) (s : State) : (answered i v s).tword = s.tword := rfl
@[simp] theorem answered_hidx (i : Nat) (v : Word) (s : State) : (answered i v s).hidx = s.hidx := rfl
@[simp] theorem answered_tier (i : Nat) (v : Word) (s : State) : (answered i v s).tier = s.tier := rfl
@[simp] theorem answered_tticks (i : Nat) (v : Word) (s : State) : (answered i v s).tticks = s.tticks := rfl
@[simp] theorem answered_chBusy (i : Nat) (v : Word) (s : State) : (answered i v s).chBusy = s.chBusy := rfl
@[simp] theorem answered_chData (i : Nat) (v : Word) (s : State) : (answered i v s).chData = s.chData := rfl
@[simp] theorem answered_chOther (i : Nat) (v : Word) (s : State) : (answered i v s).chOther = s.chOther := rfl
@[simp] theorem answered_wire (i : Nat) (v : Word) (s : State) : (answered i v s).wire = s.wire := rfl
@[simp] theorem answered_hostrx (i : Nat) (v : Word) (s : State) : (answered i v s).hostrx = s.hostrx := rfl
@[simp] theorem answered_grant (i : Nat) (v : Word) (s : State) : (answered i v s).grant = s.grant := rfl
@[simp] theorem answered_resp (i : Nat) (v : Word) (s : State) : (answered i v s).resp = setResp s.resp i v := rfl
@[simp] theorem answered_deqByte (i : Nat) (v : Word) (s : State) : (answered i v s).deqByte = s.deqByte := rfl
@[simp] theorem answered_mark (i : Nat) (v : Word) (s : State) : (answered i v s).mark = s.mark := rfl
@[simp] theorem answered_issuer (i : Nat) (v : Word) (s : State) : (answered i v s).issuer = s.issuer := rfl
@[simp] theorem answered_inbox (i : Nat) (v : Word) (s : State) : (answered i v s).inbox = s.inbox := rfl
@[simp] theorem answered_draws (i : Nat) (v : Word) (s : State) : (answered i v s).draws = s.draws := rfl
@[simp] theorem answered_params (i : Nat) (v : Word) (s : State) : (answered i v s).params = s.params := rfl

/-! ### unitStep -/

@[simp] theorem unitStep_buf (e : Word) (s : State) : (unitStep e s).buf = s.buf := by unfold unitStep; dsimp only; split <;> rfl
@[simp] theorem unitStep_rd (e : Word) (s : State) : (unitStep e s).rd = s.rd := by unfold unitStep; dsimp only; split <;> rfl
@[simp] theorem unitStep_wr (e : Word) (s : State) : (unitStep e s).wr = s.wr := by unfold unitStep; dsimp only; split <;> rfl
@[simp] theorem unitStep_cnt (e : Word) (s : State) : (unitStep e s).cnt = s.cnt := by unfold unitStep; dsimp only; split <;> rfl
@[simp] theorem unitStep_nin (e : Word) (s : State) : (unitStep e s).nin = s.nin := by unfold unitStep; dsimp only; split <;> rfl
@[simp] theorem unitStep_nout (e : Word) (s : State) : (unitStep e s).nout = s.nout := by unfold unitStep; dsimp only; split <;> rfl
@[simp] theorem unitStep_cap (e : Word) (s : State) : (unitStep e s).cap = s.cap := by unfold unitStep; dsimp only; split <;> rfl
@[simp] theorem unitStep_inited (e : Word) (s : State) : (unitStep e s).inited = s.inited := by unfold unitStep; dsimp only; split <;> rfl
@[simp] theorem unitStep_phase (e : Word) (s : State) : (unitStep e s).phase = s.phase := by unfold unitStep; dsimp only; split <;> rfl
@[simp] theorem unitStep_rem (e : Word) (s : State) : (unitStep e s).rem = s.rem - 1 := by unfold unitStep; dsimp only; split <;> rfl
@[simp] theorem unitStep_unit (e : Word) (s : State) : (unitStep e s).unit = s.unit := by unfold unitStep; dsimp only; split <;> rfl
@[simp] theorem unitStep_cwait (e : Word) (s : State) : (unitStep e s).cwait = s.cwait := by unfold unitStep; dsimp only; split <;> rfl
@[simp] theorem unitStep_dreq (e : Word) (s : State) : (unitStep e s).dreq = s.dreq := by unfold unitStep; dsimp only; split <;> rfl
@[simp] theorem unitStep_dstate (e : Word) (s : State) : (unitStep e s).dstate = s.dstate := by unfold unitStep; dsimp only; split <;> rfl
@[simp] theorem unitStep_dpay (e : Word) (s : State) : (unitStep e s).dpay = s.dpay := by unfold unitStep; dsimp only; split <;> rfl
@[simp] theorem unitStep_chBusy (e : Word) (s : State) : (unitStep e s).chBusy = s.chBusy := by unfold unitStep; dsimp only; split <;> rfl
@[simp] theorem unitStep_chData (e : Word) (s : State) : (unitStep e s).chData = s.chData := by unfold unitStep; dsimp only; split <;> rfl
@[simp] theorem unitStep_chOther (e : Word) (s : State) : (unitStep e s).chOther = s.chOther := by unfold unitStep; dsimp only; split <;> rfl
@[simp] theorem unitStep_wire (e : Word) (s : State) : (unitStep e s).wire = s.wire := by unfold unitStep; dsimp only; split <;> rfl
@[simp] theorem unitStep_hostrx (e : Word) (s : State) : (unitStep e s).hostrx = s.hostrx := by unfold unitStep; dsimp only; split <;> rfl
@[simp] theorem unitStep_grant (e : Word) (s : State) : (unitStep e s).grant = s.grant := by unfold unitStep; dsimp only; split <;> rfl
@[simp] theorem unitStep_resp (e : Word) (s : State) : (unitStep e s).resp = s.resp := by unfold unitStep; dsimp only; split <;> rfl
@[simp] theorem unitStep_deqByte (e : Word) (s : State) : (unitStep e s).deqByte = s.deqByte := by unfold unitStep; dsimp only; split <;> rfl
@[simp] theorem unitStep_mark (e : Word) (s : State) : (unitStep e s).mark = s.mark := by unfold unitStep; dsimp only; split <;> rfl
@[simp] theorem unitStep_issuer (e : Word) (s : State) : (unitStep e s).issuer = s.issuer := by unfold unitStep; dsimp only; split <;> rfl
@[simp] theorem unitStep_inbox (e : Word) (s : State) : (unitStep e s).inbox = s.inbox := by unfold unitStep; dsimp only; split <;> rfl
@[simp] theorem unitStep_draws (e : Word) (s : State) : (unitStep e s).draws = s.draws := by unfold unitStep; dsimp only; split <;> rfl
@[simp] theorem unitStep_params (e : Word) (s : State) : (unitStep e s).params = s.params := by unfold unitStep; dsimp only; split <;> rfl

/-- The state a take leaves, given the byte taken (42_fifo.md R154, R155). -/
def taken (b : Byte) (s : State) : State :=
  { s with rd := adv s s.rd, cnt := s.cnt - 1, nout := s.nout + 1, cwait := false, deqByte := b }

/-! ### taken -/

@[simp] theorem taken_buf (b : Byte) (s : State) : (taken b s).buf = s.buf := rfl
@[simp] theorem taken_rd (b : Byte) (s : State) : (taken b s).rd = (s.rd + 1) % s.cap := rfl
@[simp] theorem taken_wr (b : Byte) (s : State) : (taken b s).wr = s.wr := rfl
@[simp] theorem taken_cnt (b : Byte) (s : State) : (taken b s).cnt = s.cnt - 1 := rfl
@[simp] theorem taken_nin (b : Byte) (s : State) : (taken b s).nin = s.nin := rfl
@[simp] theorem taken_nout (b : Byte) (s : State) : (taken b s).nout = s.nout + 1 := rfl
@[simp] theorem taken_cap (b : Byte) (s : State) : (taken b s).cap = s.cap := rfl
@[simp] theorem taken_inited (b : Byte) (s : State) : (taken b s).inited = s.inited := rfl
@[simp] theorem taken_phase (b : Byte) (s : State) : (taken b s).phase = s.phase := rfl
@[simp] theorem taken_rem (b : Byte) (s : State) : (taken b s).rem = s.rem := rfl
@[simp] theorem taken_acc (b : Byte) (s : State) : (taken b s).acc = s.acc := rfl
@[simp] theorem taken_k (b : Byte) (s : State) : (taken b s).k = s.k := rfl
@[simp] theorem taken_unit (b : Byte) (s : State) : (taken b s).unit = s.unit := rfl
@[simp] theorem taken_cwait (b : Byte) (s : State) : (taken b s).cwait = false := rfl
@[simp] theorem taken_dreq (b : Byte) (s : State) : (taken b s).dreq = s.dreq := rfl
@[simp] theorem taken_dstate (b : Byte) (s : State) : (taken b s).dstate = s.dstate := rfl
@[simp] theorem taken_dpay (b : Byte) (s : State) : (taken b s).dpay = s.dpay := rfl
@[simp] theorem taken_tbusy (b : Byte) (s : State) : (taken b s).tbusy = s.tbusy := rfl
@[simp] theorem taken_tword (b : Byte) (s : State) : (taken b s).tword = s.tword := rfl
@[simp] theorem taken_hidx (b : Byte) (s : State) : (taken b s).hidx = s.hidx := rfl
@[simp] theorem taken_tier (b : Byte) (s : State) : (taken b s).tier = s.tier := rfl
@[simp] theorem taken_tticks (b : Byte) (s : State) : (taken b s).tticks = s.tticks := rfl
@[simp] theorem taken_chBusy (b : Byte) (s : State) : (taken b s).chBusy = s.chBusy := rfl
@[simp] theorem taken_chData (b : Byte) (s : State) : (taken b s).chData = s.chData := rfl
@[simp] theorem taken_chOther (b : Byte) (s : State) : (taken b s).chOther = s.chOther := rfl
@[simp] theorem taken_wire (b : Byte) (s : State) : (taken b s).wire = s.wire := rfl
@[simp] theorem taken_hostrx (b : Byte) (s : State) : (taken b s).hostrx = s.hostrx := rfl
@[simp] theorem taken_grant (b : Byte) (s : State) : (taken b s).grant = s.grant := rfl
@[simp] theorem taken_resp (b : Byte) (s : State) : (taken b s).resp = s.resp := rfl
@[simp] theorem taken_deqByte (b : Byte) (s : State) : (taken b s).deqByte = b := rfl
@[simp] theorem taken_mark (b : Byte) (s : State) : (taken b s).mark = s.mark := rfl
@[simp] theorem taken_issuer (b : Byte) (s : State) : (taken b s).issuer = s.issuer := rfl
@[simp] theorem taken_inbox (b : Byte) (s : State) : (taken b s).inbox = s.inbox := rfl
@[simp] theorem taken_draws (b : Byte) (s : State) : (taken b s).draws = s.draws := rfl
@[simp] theorem taken_params (b : Byte) (s : State) : (taken b s).params = s.params := rfl

/-! ### putAll -/

@[simp] theorem putAll_rd (bs : List Byte) (s : State) : (putAll bs s).rd = s.rd := by
  induction bs generalizing s with
  | nil => rfl
  | cons b bs ih => simp [putAll, ih]
@[simp] theorem putAll_cnt (bs : List Byte) (s : State) : (putAll bs s).cnt = s.cnt + bs.length := by
  induction bs generalizing s with
  | nil => rfl
  | cons b bs ih => simp [putAll, ih]; omega
@[simp] theorem putAll_nin (bs : List Byte) (s : State) : (putAll bs s).nin = s.nin + bs.length := by
  induction bs generalizing s with
  | nil => rfl
  | cons b bs ih => simp [putAll, ih]; omega
@[simp] theorem putAll_nout (bs : List Byte) (s : State) : (putAll bs s).nout = s.nout := by
  induction bs generalizing s with
  | nil => rfl
  | cons b bs ih => simp [putAll, ih]
@[simp] theorem putAll_cap (bs : List Byte) (s : State) : (putAll bs s).cap = s.cap := by
  induction bs generalizing s with
  | nil => rfl
  | cons b bs ih => simp [putAll, ih]
@[simp] theorem putAll_inited (bs : List Byte) (s : State) : (putAll bs s).inited = s.inited := by
  induction bs generalizing s with
  | nil => rfl
  | cons b bs ih => simp [putAll, ih]
@[simp] theorem putAll_phase (bs : List Byte) (s : State) : (putAll bs s).phase = s.phase := by
  induction bs generalizing s with
  | nil => rfl
  | cons b bs ih => simp [putAll, ih]
@[simp] theorem putAll_rem (bs : List Byte) (s : State) : (putAll bs s).rem = s.rem := by
  induction bs generalizing s with
  | nil => rfl
  | cons b bs ih => simp [putAll, ih]
@[simp] theorem putAll_acc (bs : List Byte) (s : State) : (putAll bs s).acc = s.acc := by
  induction bs generalizing s with
  | nil => rfl
  | cons b bs ih => simp [putAll, ih]
@[simp] theorem putAll_k (bs : List Byte) (s : State) : (putAll bs s).k = s.k := by
  induction bs generalizing s with
  | nil => rfl
  | cons b bs ih => simp [putAll, ih]
@[simp] theorem putAll_unit (bs : List Byte) (s : State) : (putAll bs s).unit = s.unit := by
  induction bs generalizing s with
  | nil => rfl
  | cons b bs ih => simp [putAll, ih]
@[simp] theorem putAll_cwait (bs : List Byte) (s : State) : (putAll bs s).cwait = s.cwait := by
  induction bs generalizing s with
  | nil => rfl
  | cons b bs ih => simp [putAll, ih]
@[simp] theorem putAll_dreq (bs : List Byte) (s : State) : (putAll bs s).dreq = s.dreq := by
  induction bs generalizing s with
  | nil => rfl
  | cons b bs ih => simp [putAll, ih]
@[simp] theorem putAll_dstate (bs : List Byte) (s : State) : (putAll bs s).dstate = s.dstate := by
  induction bs generalizing s with
  | nil => rfl
  | cons b bs ih => simp [putAll, ih]
@[simp] theorem putAll_dpay (bs : List Byte) (s : State) : (putAll bs s).dpay = s.dpay := by
  induction bs generalizing s with
  | nil => rfl
  | cons b bs ih => simp [putAll, ih]
@[simp] theorem putAll_tbusy (bs : List Byte) (s : State) : (putAll bs s).tbusy = s.tbusy := by
  induction bs generalizing s with
  | nil => rfl
  | cons b bs ih => simp [putAll, ih]
@[simp] theorem putAll_tword (bs : List Byte) (s : State) : (putAll bs s).tword = s.tword := by
  induction bs generalizing s with
  | nil => rfl
  | cons b bs ih => simp [putAll, ih]
@[simp] theorem putAll_hidx (bs : List Byte) (s : State) : (putAll bs s).hidx = s.hidx := by
  induction bs generalizing s with
  | nil => rfl
  | cons b bs ih => simp [putAll, ih]
@[simp] theorem putAll_tier (bs : List Byte) (s : State) : (putAll bs s).tier = s.tier := by
  induction bs generalizing s with
  | nil => rfl
  | cons b bs ih => simp [putAll, ih]
@[simp] theorem putAll_tticks (bs : List Byte) (s : State) : (putAll bs s).tticks = s.tticks := by
  induction bs generalizing s with
  | nil => rfl
  | cons b bs ih => simp [putAll, ih]
@[simp] theorem putAll_chBusy (bs : List Byte) (s : State) : (putAll bs s).chBusy = s.chBusy := by
  induction bs generalizing s with
  | nil => rfl
  | cons b bs ih => simp [putAll, ih]
@[simp] theorem putAll_chData (bs : List Byte) (s : State) : (putAll bs s).chData = s.chData := by
  induction bs generalizing s with
  | nil => rfl
  | cons b bs ih => simp [putAll, ih]
@[simp] theorem putAll_chOther (bs : List Byte) (s : State) : (putAll bs s).chOther = s.chOther := by
  induction bs generalizing s with
  | nil => rfl
  | cons b bs ih => simp [putAll, ih]
@[simp] theorem putAll_wire (bs : List Byte) (s : State) : (putAll bs s).wire = s.wire := by
  induction bs generalizing s with
  | nil => rfl
  | cons b bs ih => simp [putAll, ih]
@[simp] theorem putAll_hostrx (bs : List Byte) (s : State) : (putAll bs s).hostrx = s.hostrx := by
  induction bs generalizing s with
  | nil => rfl
  | cons b bs ih => simp [putAll, ih]
@[simp] theorem putAll_grant (bs : List Byte) (s : State) : (putAll bs s).grant = s.grant := by
  induction bs generalizing s with
  | nil => rfl
  | cons b bs ih => simp [putAll, ih]
@[simp] theorem putAll_resp (bs : List Byte) (s : State) : (putAll bs s).resp = s.resp := by
  induction bs generalizing s with
  | nil => rfl
  | cons b bs ih => simp [putAll, ih]
@[simp] theorem putAll_deqByte (bs : List Byte) (s : State) : (putAll bs s).deqByte = s.deqByte := by
  induction bs generalizing s with
  | nil => rfl
  | cons b bs ih => simp [putAll, ih]
@[simp] theorem putAll_mark (bs : List Byte) (s : State) : (putAll bs s).mark = s.mark := by
  induction bs generalizing s with
  | nil => rfl
  | cons b bs ih => simp [putAll, ih]
@[simp] theorem putAll_issuer (bs : List Byte) (s : State) : (putAll bs s).issuer = s.issuer := by
  induction bs generalizing s with
  | nil => rfl
  | cons b bs ih => simp [putAll, ih]
@[simp] theorem putAll_inbox (bs : List Byte) (s : State) : (putAll bs s).inbox = s.inbox := by
  induction bs generalizing s with
  | nil => rfl
  | cons b bs ih => simp [putAll, ih]
@[simp] theorem putAll_draws (bs : List Byte) (s : State) : (putAll bs s).draws = s.draws := by
  induction bs generalizing s with
  | nil => rfl
  | cons b bs ih => simp [putAll, ih]
@[simp] theorem putAll_params (bs : List Byte) (s : State) : (putAll bs s).params = s.params := by
  induction bs generalizing s with
  | nil => rfl
  | cons b bs ih => simp [putAll, ih]

/-! ### enqueued -/

@[simp] theorem enqueued_buf (bs : List Byte) (s : State) : (enqueued bs s).buf = (putAll bs s).buf := by simp [enqueued]
@[simp] theorem enqueued_rd (bs : List Byte) (s : State) : (enqueued bs s).rd = s.rd := by simp [enqueued]
@[simp] theorem enqueued_wr (bs : List Byte) (s : State) : (enqueued bs s).wr = (putAll bs s).wr := by simp [enqueued]
@[simp] theorem enqueued_cnt (bs : List Byte) (s : State) : (enqueued bs s).cnt = s.cnt + bs.length := by simp [enqueued]
@[simp] theorem enqueued_nin (bs : List Byte) (s : State) : (enqueued bs s).nin = s.nin + bs.length := by simp [enqueued]
@[simp] theorem enqueued_nout (bs : List Byte) (s : State) : (enqueued bs s).nout = s.nout := by simp [enqueued]
@[simp] theorem enqueued_cap (bs : List Byte) (s : State) : (enqueued bs s).cap = s.cap := by simp [enqueued]
@[simp] theorem enqueued_inited (bs : List Byte) (s : State) : (enqueued bs s).inited = s.inited := by simp [enqueued]
@[simp] theorem enqueued_phase (bs : List Byte) (s : State) : (enqueued bs s).phase = s.phase := by simp [enqueued]
@[simp] theorem enqueued_rem (bs : List Byte) (s : State) : (enqueued bs s).rem = s.rem := by simp [enqueued]
@[simp] theorem enqueued_acc (bs : List Byte) (s : State) : (enqueued bs s).acc = s.acc := by simp [enqueued]
@[simp] theorem enqueued_k (bs : List Byte) (s : State) : (enqueued bs s).k = s.k := by simp [enqueued]
@[simp] theorem enqueued_unit (bs : List Byte) (s : State) : (enqueued bs s).unit = s.unit := by simp [enqueued]
@[simp] theorem enqueued_cwait (bs : List Byte) (s : State) : (enqueued bs s).cwait = false := by simp [enqueued]
@[simp] theorem enqueued_dreq (bs : List Byte) (s : State) : (enqueued bs s).dreq = s.dreq := by simp [enqueued]
@[simp] theorem enqueued_dstate (bs : List Byte) (s : State) : (enqueued bs s).dstate = s.dstate := by simp [enqueued]
@[simp] theorem enqueued_dpay (bs : List Byte) (s : State) : (enqueued bs s).dpay = s.dpay := by simp [enqueued]
@[simp] theorem enqueued_tbusy (bs : List Byte) (s : State) : (enqueued bs s).tbusy = s.tbusy := by simp [enqueued]
@[simp] theorem enqueued_tword (bs : List Byte) (s : State) : (enqueued bs s).tword = s.tword := by simp [enqueued]
@[simp] theorem enqueued_hidx (bs : List Byte) (s : State) : (enqueued bs s).hidx = s.hidx := by simp [enqueued]
@[simp] theorem enqueued_tier (bs : List Byte) (s : State) : (enqueued bs s).tier = s.tier := by simp [enqueued]
@[simp] theorem enqueued_tticks (bs : List Byte) (s : State) : (enqueued bs s).tticks = s.tticks := by simp [enqueued]
@[simp] theorem enqueued_chBusy (bs : List Byte) (s : State) : (enqueued bs s).chBusy = s.chBusy := by simp [enqueued]
@[simp] theorem enqueued_chData (bs : List Byte) (s : State) : (enqueued bs s).chData = s.chData := by simp [enqueued]
@[simp] theorem enqueued_chOther (bs : List Byte) (s : State) : (enqueued bs s).chOther = s.chOther := by simp [enqueued]
@[simp] theorem enqueued_wire (bs : List Byte) (s : State) : (enqueued bs s).wire = s.wire := by simp [enqueued]
@[simp] theorem enqueued_hostrx (bs : List Byte) (s : State) : (enqueued bs s).hostrx = s.hostrx := by simp [enqueued]
@[simp] theorem enqueued_grant (bs : List Byte) (s : State) : (enqueued bs s).grant = s.grant := by simp [enqueued]
@[simp] theorem enqueued_resp (bs : List Byte) (s : State) : (enqueued bs s).resp = s.resp := by simp [enqueued]
@[simp] theorem enqueued_deqByte (bs : List Byte) (s : State) : (enqueued bs s).deqByte = s.deqByte := by simp [enqueued]
@[simp] theorem enqueued_mark (bs : List Byte) (s : State) : (enqueued bs s).mark = s.mark := by simp [enqueued]
@[simp] theorem enqueued_issuer (bs : List Byte) (s : State) : (enqueued bs s).issuer = s.issuer := by simp [enqueued]
@[simp] theorem enqueued_inbox (bs : List Byte) (s : State) : (enqueued bs s).inbox = s.inbox := by simp [enqueued]
@[simp] theorem enqueued_draws (bs : List Byte) (s : State) : (enqueued bs s).draws = s.draws := by simp [enqueued]
@[simp] theorem enqueued_params (bs : List Byte) (s : State) : (enqueued bs s).params = s.params := by simp [enqueued]

/-- A producer's response is the last entry set for it; other issuers have none. -/
theorem respond_of_producer {i : Nat} {s : State} (v : Word) (h : s.issuer.agent = .producer i) :
    respond v s = { s with resp := setResp s.resp i v } := by
  simp [respond, h]

end Sys2Proof.Machine
end

