-- ==== Sys2Proof/Laws/Fifo.lean ====
section
/-! SUPPORT. The ring buffer: what `putAll`, `enqueue` and `take` do, in terms of the bytes held. -/

namespace Sys2Proof.Machine

/-- Two offsets below the capacity that meet are equal. -/
theorem ring_offset_injective {c r i j : Nat} (hi : i < c) (hj : j < c) (h : (r + i) % c = (r + j) % c) : i = j := by
  have h' : i ≡ j [MOD c] := Nat.ModEq.add_left_cancel' r h
  have h'' : i % c = j % c := h'
  rwa [Nat.mod_eq_of_lt hi, Nat.mod_eq_of_lt hj] at h''

theorem putAll_wr (bs : List Byte) (s : State) (h : s.wr < s.cap) : (putAll bs s).wr = (s.wr + bs.length) % s.cap := by
  induction bs generalizing s with
  | nil => simp [putAll, Nat.mod_eq_of_lt h]
  | cons b bs ih =>
    have hc : 0 < s.cap := by omega
    rw [putAll, ih (put b s) (by simpa using Nat.mod_lt _ hc)]
    simp only [put_wr, put_cap, List.length_cons, Nat.mod_add_mod]
    congr 1
    omega

/-- An index that none of the bytes is written to keeps its contents. -/
theorem putAll_read_other (bs : List Byte) (s : State) (h : s.wr < s.cap) {a : Nat}
    (ha : ∀ j, j < bs.length → a ≠ (s.wr + j) % s.cap) : (putAll bs s).buf.read a = s.buf.read a := by
  induction bs generalizing s with
  | nil => rfl
  | cons b bs ih =>
    have hc : 0 < s.cap := by omega
    have h0 := ha 0 (by simp)
    rw [Nat.add_zero, Nat.mod_eq_of_lt h] at h0
    rw [putAll, ih (put b s) (by simpa using Nat.mod_lt _ hc)]
    · simp [Memory.read_write, h0]
    · intro j hj
      have := ha (j + 1) (by simpa using hj)
      simp only [put_wr, put_cap, Nat.mod_add_mod]
      rwa [show s.wr + 1 + j = s.wr + (j + 1) by omega]

/-- Every byte stands at its own index, if there are no more bytes than indices. -/
theorem putAll_read_same (bs : List Byte) (s : State) (h : s.wr < s.cap) (hl : bs.length ≤ s.cap) {j : Nat}
    (hj : j < bs.length) : (putAll bs s).buf.read ((s.wr + j) % s.cap) = some bs[j] := by
  induction bs generalizing s j with
  | nil => simp at hj
  | cons b bs ih =>
    have hc : 0 < s.cap := by omega
    have hw : (put b s).wr < (put b s).cap := by simpa using Nat.mod_lt _ hc
    rw [putAll]
    cases j with
    | zero =>
      rw [putAll_read_other bs (put b s) hw]
      · simp [Nat.mod_eq_of_lt h]
      · intro i hi heq
        simp only [put_wr, put_cap, Nat.mod_add_mod] at heq
        have := ring_offset_injective (i := 0) (j := i + 1) hc (by simp at hl; omega)
          (by rw [heq]; congr 1; omega)
        omega
    | succ j =>
      have := ih (put b s) hw (by simp at hl ⊢; omega) (j := j) (by simpa using hj)
      simp only [put_wr, put_cap, Nat.mod_add_mod] at this
      rw [show s.wr + (j + 1) = s.wr + 1 + j by omega, this]
      simp

theorem putAll_wf (bs : List Byte) (s : State) (h : s.buf.wf = true) : (putAll bs s).buf.wf = true := by
  induction bs generalizing s with
  | nil => exact h
  | cons b bs ih => exact ih (put b s) (by simpa using Memory.wf_write _ _ _ h)

theorem held_length (s : State) : (held s).length = s.cnt := by simp [held]

theorem held_getElem (s : State) (j : Nat) (h : j < (held s).length) : (held s)[j] = peek s ((s.rd + j) % s.cap) := by
  simp [held]

/-- What is held depends on the FIFO's fields alone. -/
theorem held_congr {s t : State} (hb : t.buf = s.buf) (hr : t.rd = s.rd) (hn : t.cnt = s.cnt) (hc : t.cap = s.cap) :
    held t = held s := by
  simp [held, peek, hb, hr, hn, hc]

/-- Bytes that fit are held after the ones held before (42_fifo.md R154, 20_memory.md R61). -/
theorem held_putAll (bs : List Byte) (s : State) (hr : s.rd < s.cap) (hw : s.wr = (s.rd + s.cnt) % s.cap)
    (hf : s.cnt + bs.length ≤ s.cap) : held (putAll bs s) = held s ++ bs := by
  have hc : 0 < s.cap := by omega
  have hwlt : s.wr < s.cap := by rw [hw]; exact Nat.mod_lt _ hc
  apply List.ext_getElem
  · simp [held_length]
  · intro j h1 h2
    simp only [held_length, putAll_cnt] at h1
    rw [held_getElem]
    simp only [putAll_rd, putAll_cap]
    by_cases hj : j < s.cnt
    · rw [List.getElem_append_left (by simpa [held_length] using hj), held_getElem]
      unfold peek Memory.byteAt
      rw [putAll_read_other bs s hwlt]
      intro i hi heq
      rw [hw, Nat.mod_add_mod, Nat.add_assoc] at heq
      have := ring_offset_injective (by omega) (by omega) heq
      omega
    · rw [List.getElem_append_right (by simpa [held_length] using hj)]
      obtain ⟨i, rfl⟩ : ∃ i, j = s.cnt + i := ⟨j - s.cnt, by omega⟩
      have := putAll_read_same bs s hwlt (by omega) (j := i) (by omega)
      rw [hw, Nat.mod_add_mod, Nat.add_assoc] at this
      simp [peek, Memory.byteAt, this, held_length]

/-- Enqueueing bytes that fit keeps the FIFO's invariant. -/
theorem FifoInv.putAll {s : State} (h : FifoInv s) (bs : List Byte) (hf : s.cnt + bs.length ≤ s.cap) :
    FifoInv (putAll bs s) := by
  have hc : 0 < s.cap := by have := h.capLow; omega
  have hwlt : s.wr < s.cap := by rw [h.wrEq]; exact Nat.mod_lt _ hc
  have hother := fun a => putAll_read_other bs s hwlt (a := a)
  have hsame := fun j hj => putAll_read_same bs s hwlt (by omega) (j := j) hj
  refine ⟨by simpa using h.capLow, by simpa using h.capHigh, by simpa using h.rdLt, ?_, by simpa using hf, ?_, ?_, ?_, ?_⟩
  · rw [putAll_wr bs s hwlt, h.wrEq]
    simp [Nat.mod_add_mod, Nat.add_assoc]
  · have := h.totals
    simp; omega
  · exact putAll_wf bs s h.wf
  · intro a ha
    by_cases hex : ∃ j, j < bs.length ∧ a = (s.wr + j) % s.cap
    · obtain ⟨j, -, rfl⟩ := hex
      simpa using Nat.mod_lt _ hc
    · push Not at hex
      rw [hother a hex] at ha
      simpa using h.inside a ha
  · intro j hj
    simp only [putAll_cnt, putAll_rd, putAll_cap] at hj ⊢
    by_cases hjc : j < s.cnt
    · rw [hother]
      · exact h.written j hjc
      · intro i hi heq
        rw [h.wrEq, Nat.mod_add_mod, Nat.add_assoc] at heq
        have := ring_offset_injective (by omega) (by omega) heq
        omega
    · obtain ⟨i, rfl⟩ : ∃ i, j = s.cnt + i := ⟨j - s.cnt, by omega⟩
      have := hsame i (by omega)
      rw [h.wrEq, Nat.mod_add_mod, Nat.add_assoc] at this
      simp [this]

/-- An enqueue writes the bytes and wakes the sequencer. -/
theorem held_enqueued (bs : List Byte) (s : State) : held (enqueued bs s) = held (putAll bs s) :=
  held_congr (by simp) (by simp) (by simp) (by simp)

/-- Everything a take can answer. -/
theorem take_cases (s : State) :
    (hasIndex s s.rd = true ∧ take s = .ok (peek s s.rd, taken (peek s s.rd) s)) ∨ take s = .error .fifoIndex := by
  unfold take taken peek
  cases hi : hasIndex s s.rd with
  | false => simp
  | true => simp

/-- Under the FIFO's invariant a byte is there to take, and it is the oldest one held (42_fifo.md R155). -/
theorem take_of_inv {s : State} (h : FifoInv s) (hn : 0 < s.cnt) :
    ∃ b, take s = .ok (b, taken b s) ∧ held s = b :: held (taken b s) ∧ peek s s.rd = b := by
  have hc : 0 < s.cap := by have := h.capLow; omega
  have hi : hasIndex s s.rd = true := by simp [hasIndex, h.rdLt, h.capHigh]
  refine ⟨peek s s.rd, by simp [take, hi, peek, taken], ?_, rfl⟩
  apply List.ext_getElem
  · simp [held_length, taken]; omega
  · intro j h1 h2
    rw [held_getElem]
    cases j with
    | zero => simp [Nat.mod_eq_of_lt h.rdLt]
    | succ j =>
      simp only [List.getElem_cons_succ]
      rw [held_getElem]
      show peek s _ = peek s ((adv s s.rd + j) % s.cap)
      simp only [adv, Nat.mod_add_mod]
      congr 2
      omega

/-- A take keeps the FIFO's invariant. -/
theorem FifoInv.taken {s : State} (h : FifoInv s) (hn : 0 < s.cnt) (b : Byte) : FifoInv (taken b s) := by
  have hc : 0 < s.cap := by have := h.capLow; omega
  refine ⟨h.capLow, h.capHigh, Nat.mod_lt _ hc, ?_, ?_, ?_, h.wf, h.inside, ?_⟩
  · show s.wr = ((s.rd + 1) % s.cap + (s.cnt - 1)) % s.cap
    rw [h.wrEq, Nat.mod_add_mod]
    congr 1
    omega
  · show s.cnt - 1 ≤ s.cap
    have := h.cntLe
    omega
  · show s.nin = s.nout + 1 + (s.cnt - 1)
    have := h.totals
    omega
  · intro j hj
    show s.buf.read (((s.rd + 1) % s.cap + j) % s.cap) ≠ none
    have := h.written (j + 1) (by simp [Machine.taken] at hj; omega)
    rw [Nat.mod_add_mod]
    rwa [show s.rd + 1 + j = s.rd + (j + 1) by omega]

/-- The FIFO's invariant depends on the FIFO's fields and the parameters alone. -/
theorem FifoInv.congr {s t : State} (h : FifoInv s) (hb : t.buf = s.buf) (hr : t.rd = s.rd) (hw : t.wr = s.wr)
    (hn : t.cnt = s.cnt) (hc : t.cap = s.cap) (hi : t.nin = s.nin) (ho : t.nout = s.nout) (hp : t.params = s.params) :
    FifoInv t := by
  obtain ⟨h1, h2, h3, h4, h5, h6, h7, h8, h9⟩ := h
  constructor <;> simp only [hb, hr, hw, hn, hc, hi, ho, hp] <;> assumption

/-- An enqueue that fits keeps the FIFO's invariant. -/
theorem FifoInv.enqueued {s : State} (h : FifoInv s) (bs : List Byte) (hf : s.cnt + bs.length ≤ s.cap) :
    FifoInv (enqueued bs s) :=
  (h.putAll bs hf).congr (by simp) (by simp) (by simp) (by simp) (by simp) (by simp) (by simp) (by simp)

theorem FifoInv.wrLt {s : State} (h : FifoInv s) : s.wr < s.cap := by
  rw [h.wrEq]
  exact Nat.mod_lt _ (by have := h.capLow; omega)

/-- Under the FIFO's invariant an enqueue does not fault. -/
theorem enqueue_of_inv {s : State} (h : FifoInv s) (bs : List Byte) : enqueue bs s = .ok (enqueued bs s) := by
  simp [enqueue, hasIndex, h.wrLt, h.capHigh]

theorem fits_iff (m : Nat) (s : State) : fits m s = true ↔ m + s.cnt ≤ s.cap := by
  unfold fits freeSpace
  rw [decide_eq_true_iff]
  omega

/-- Bytes that fit are enqueued with the success response (42_fifo.md R156). -/
theorem enqueueOrDrop_fits {s : State} {bs : List Byte} (a b : Word) (h : FifoInv s) (hf : bs.length + s.cnt ≤ s.cap) :
    enqueueOrDrop bs a b s = .next (respond a (enqueued bs s)) := by
  rw [enqueueOrDrop, if_pos ((fits_iff _ _).mpr hf), enqueue_of_inv h]
  rfl

/-- Bytes that do not fit change nothing but the response (42_fifo.md R156). -/
theorem enqueueOrDrop_drops {s : State} {bs : List Byte} (a b : Word) (hf : s.cap < bs.length + s.cnt) :
    enqueueOrDrop bs a b s = .next (respond b s) := by
  rw [enqueueOrDrop, if_neg (by rw [fits_iff]; omega)]

theorem peek_of_held {s : State} {j : Nat} {b : Byte} (h : (held s)[j]? = some b) : peek s ((s.rd + j) % s.cap) = b := by
  obtain ⟨hj, h⟩ := List.getElem?_eq_some_iff.mp h
  rw [← h, held_getElem]

/-- The byte at the read index is the oldest one held. -/
theorem peek_head {s : State} {b : Byte} {l : List Byte} (hr : s.rd < s.cap) (hh : held s = b :: l) : peek s s.rd = b := by
  have := peek_of_held (s := s) (j := 0) (b := b) (by rw [hh]; rfl)
  rwa [Nat.add_zero, Nat.mod_eq_of_lt hr] at this

end Sys2Proof.Machine
end

