-- ==== Sys2Proof/Laws/Exec.lean ====
section
/-! SUPPORT. What executing an instruction can do: admission and refusal, and every effect of a command that came on a port. -/

namespace Sys2Proof.Machine

/-! ### Admission and refusal (60_exceptions.md R205 to R212) -/

theorem refuse_eq (r : Reason) (s : State) : refuse r s = .next (marked r s) := rfl

@[simp] theorem admitted_none (f : State → Result) (s : State) : admitted none f s = f s := rfl

@[simp] theorem admitted_some (r : Reason) (f : State → Result) (s : State) :
    admitted (some r) f s = .next (marked r s) := rfl

/-- Either nothing refuses the command and its effect is taken, or the mark is set and nothing else changes. -/
theorem admitted_cases (r : Option Reason) (f : State → Result) (s : State) :
    (r = none ∧ admitted r f s = f s) ∨ ∃ reason, r = some reason ∧ admitted r f s = .next (marked reason s) := by
  cases r with
  | none => exact .inl ⟨rfl, rfl⟩
  | some reason => exact .inr ⟨reason, rfl, rfl⟩

theorem interrupt_not_permitted {c : OpClass} {i : Issuer} (h : permitted c i = true) : fromInterrupt c i = false := by
  cases c <;> simp [permitted] at h
  · cases ha : i.agent <;> simp_all [isProducer, isInterruptHandler, fromInterrupt]
  · simp [h.1, isInterruptHandler, fromInterrupt]
  · rfl

/-- When a command is not refused. -/
theorem admission_eq_none_iff (c : OpClass) (isInit rangeOk payloadOk : Bool) (s : State) :
    admission c isInit rangeOk payloadOk s = none ↔
      s.inited = !isInit ∧ permitted c s.issuer = true ∧ rangeOk = true ∧ payloadOk = true := by
  cases hp : permitted c s.issuer with
  | false =>
    unfold admission
    rw [hp]
    cases s.inited <;> cases isInit <;> cases fromInterrupt c s.issuer <;> cases c <;> simp
  | true =>
    have hi := interrupt_not_permitted hp
    have hc : c ≠ .reserved := by rintro rfl; simp [permitted] at hp
    unfold admission
    rw [hp, hi]
    cases s.inited <;> cases isInit <;> cases rangeOk <;> cases payloadOk <;> simp [hc]

/-- A command of its own class, initialised, in range and with its payload, is not refused. -/
theorem admission_of_admits {c : OpClass} {s : State} (h : admits c s) : admission c false true true s = none := by
  rw [admission_eq_none_iff]
  exact ⟨by simpa using h.1, h.2, rfl, rfl⟩

/-- What refuses a producer's command after INIT: its operand range, then its payload (60_exceptions.md R212). -/
theorem admission_of_byProducer {i : Nat} {s : State} (h : byProducer i s) (rangeOk payloadOk : Bool) :
    admission .producer false rangeOk payloadOk s =
      if rangeOk = false then some .operandRange else if payloadOk = false then some .payloadLength else none := by
  simp [admission, h.1, h.2, fromInterrupt, isInterruptHandler, permitted, isProducer]

/-- What refuses the client's command after INIT: its payload. -/
theorem admission_of_byClient {s : State} (h : byClient s) (payloadOk : Bool) :
    admission .direct false true payloadOk s = if payloadOk = false then some .payloadLength else none := by
  simp [admission, h.1, h.2, fromInterrupt, isInterruptHandler, permitted]

/-- Before INIT every other command is refused as not initialised (60_exceptions.md R206, R212). -/
theorem admission_not_initialised {s : State} (c : OpClass) (rangeOk payloadOk : Bool) (h : s.inited = false) :
    admission c false rangeOk payloadOk s = some .notInitialised := by
  simp [admission, h]

/-! ### Enqueues -/

theorem andThen_next {α : Type} {r : Except Fault α} {f : α → Result} {t : State} (h : andThen r f = .next t) :
    ∃ a, r = .ok a ∧ f a = .next t := by
  cases r with
  | ok a => exact ⟨a, rfl, h⟩
  | error e => simp [andThen] at h

theorem enqueue_next {bs : List Byte} {s : State} {f : State → Result} {t : State}
    (h : andThen (enqueue bs s) f = .next t) : f (enqueued bs s) = .next t := by
  obtain ⟨a, ha, h⟩ := andThen_next h
  unfold enqueue at ha
  split at ha
  · cases ha; exact h
  · cases ha

/-- What an all-or-nothing enqueue can answer. -/
theorem enqueueOrDrop_next {bs : List Byte} {a b : Word} {s t : State} (h : enqueueOrDrop bs a b s = .next t) :
    (fits bs.length s = true ∧ t = respond a (enqueued bs s)) ∨ t = respond b s := by
  unfold enqueueOrDrop at h
  split at h
  · rename_i hf
    have := enqueue_next h
    cases this
    exact .inl ⟨hf, rfl⟩
  · cases h; exact .inr rfl

/-! ### Every effect of a command on a port -/

/-- What a command that came on a port can do to the state. -/
inductive PortEffect (s : State) : State → Prop where
  /-- The client holds on a full latch. -/
  | hold : PortEffect s s
  /-- The command is refused. -/
  | refused (r : Reason) : PortEffect s (marked r s)
  /-- A result and nothing else. -/
  | result (v : Word) : s.inited = true → PortEffect s (respond v s)
  /-- A whole unit of the FIFO's byte stream is enqueued. -/
  | enqueued (u : FifoUnit) (v : Word) : s.inited = true → FifoUnit.ok u → s.cnt + (FifoUnit.bytes u).length ≤ s.cap →
      PortEffect s (respond v (Machine.enqueued (FifoUnit.bytes u) s))
  /-- A direct command is latched. -/
  | latched (cmd : DirectCmd) : s.inited = true → s.dstate = .none → cmdOk cmd → PortEffect s (latch cmd s)
  /-- INIT. -/
  | initialised (n : Nat) : s.inited = false → 2 ≤ n → n ≤ s.params.capmax → PortEffect s (respond 1 (initialised n s))

theorem matchesCount_bytes {n : Nat} {p : Payload} (h : p.matchesCount .one n = true) : p.byteList.length = n := by
  cases p <;> simp_all [Payload.matchesCount, Payload.unitSize, Payload.units, Payload.byteList]

theorem enqueueUnit_effect {u : FifoUnit} {a b : Word} {s t : State} (hi : s.inited = true) (hu : FifoUnit.ok u)
    (h : enqueueOrDrop (FifoUnit.bytes u) a b s = .next t) : PortEffect s t := by
  rcases enqueueOrDrop_next h with ⟨hf, rfl⟩ | rfl
  · have := (fits_iff _ _).mp hf
    exact .enqueued u a hi hu (by omega)
  · exact .result b hi

theorem putBytes_effect {n : Nat} {l : List Byte} {s t : State} (hi : s.inited = true) (hl : l.length = n)
    (h : putBytes n l s = .next t) : PortEffect s t := by
  unfold putBytes at h
  dsimp only at h
  split at h
  · rename_i ht
    have := enqueue_next h
    cases this
    have hlen : (l.take (truncLen n (freeSpace s)).toNat).length = (truncLen n (freeSpace s)).toNat := by
      rw [List.length_take]
      unfold truncLen at *
      omega
    have hu : FifoUnit.ok (.frame (l.take (truncLen n (freeSpace s)).toNat)) := by
      simp only [FifoUnit.ok, hlen]
      unfold truncLen at *
      omega
    have he : frameBytes (truncLen n (freeSpace s)).toNat (l.take (truncLen n (freeSpace s)).toNat) =
        FifoUnit.bytes (.frame (l.take (truncLen n (freeSpace s)).toNat)) := by
      simp only [FifoUnit.bytes, hlen]
    rw [he]
    refine .enqueued _ _ hi hu ?_
    simp only [FifoUnit.bytes, frameBytes, List.length_cons, hlen]
    unfold truncLen freeSpace at *
    omega
  · split at h
    · exact enqueueUnit_effect (u := .char 0x0A) hi trivial h
    · cases h; exact .result 0 hi

theorem units_small {u : UnitSize} {n : Nat} {p : Payload} (h : p.matchesCount u n = true) :
    p.units.length = n ∧ p.units.all (fun e => decide (e.toNat < 2 ^ (8 * u.bytes))) = true := by
  simp only [Payload.matchesCount, Bool.and_eq_true, Bool.or_eq_true, decide_eq_true_eq] at h
  refine ⟨h.1, ?_⟩
  obtain ⟨hl, rfl | rfl⟩ := h
  swap
  · rw [List.eq_nil_of_length_eq_zero hl]
    rfl
  rw [List.all_eq_true]
  intro e he
  cases p with
  | bytes l =>
    obtain ⟨b, -, rfl⟩ := List.mem_map.mp he
    have := b.isLt
    simp [Payload.unitSize, UnitSize.bytes]
    omega
  | halves l =>
    obtain ⟨b, -, rfl⟩ := List.mem_map.mp he
    have := b.isLt
    simp [Payload.unitSize, UnitSize.bytes]
    omega
  | words l =>
    rw [decide_eq_true_iff]
    exact e.isLt

theorem directCommand_effect {ok : Bool} {cmd : DirectCmd} {s t : State} (hok : ok = true → cmdOk cmd)
    (h : directCommand ok cmd s = .next t) : PortEffect s t := by
  unfold directCommand at h
  rcases admitted_cases (admission .direct false true (latchFull s || ok) s)
    (fun s => if latchFull s then hold s else .next (latch cmd s)) s with ⟨ha, he⟩ | ⟨r, -, he⟩
  · rw [he] at h
    rw [admission_eq_none_iff] at ha
    split at h
    · cases h; exact .hold
    · rename_i hf
      cases h
      refine .latched cmd (by simpa using ha.1) (by simpa [latchFull] using hf) (hok ?_)
      simpa [hf] using ha.2.2.2
  · rw [he] at h
    cases h; exact .refused r

theorem cmdOk_body {kind : BodyKind} {n : Half} {p : Payload} (h : p.matchesCount kind.unit n.toNat = true) :
    cmdOk (.body kind n p.units) := by
  obtain ⟨h1, h2⟩ := units_small h
  have := n.isLt
  refine ⟨h1, ?_⟩
  simp only [Message.ok, Bool.and_eq_true, decide_eq_true_eq]
  exact ⟨by omega, h2⟩

theorem admission_internal_port {rangeOk payloadOk : Bool} {s : State} (hp : s.issuer.port ≠ none) :
    ∃ r, admission .internal false rangeOk payloadOk s = some r := by
  rw [← Option.ne_none_iff_exists']
  intro h
  rw [admission_eq_none_iff] at h
  simp [permitted, hp] at h

theorem internal_effect {rangeOk payloadOk : Bool} {f : State → Result} {s t : State} (hp : s.issuer.port ≠ none)
    (h : admitted (admission .internal false rangeOk payloadOk s) f s = .next t) : PortEffect s t := by
  obtain ⟨r, hr⟩ := admission_internal_port (rangeOk := rangeOk) (payloadOk := payloadOk) hp
  rw [hr] at h
  cases h
  exact .refused r

/-- Splits a producer command into its refusal and its effect. -/
theorem producer_effect {rangeOk payloadOk : Bool} {f : State → Result} {s t : State}
    (hf : s.inited = true → rangeOk = true → payloadOk = true → f s = .next t → PortEffect s t)
    (h : admitted (admission .producer false rangeOk payloadOk s) f s = .next t) : PortEffect s t := by
  rcases admitted_cases (admission .producer false rangeOk payloadOk s) f s with ⟨ha, he⟩ | ⟨r, -, he⟩
  · rw [he] at h
    rw [admission_eq_none_iff] at ha
    exact hf (by simpa using ha.1) ha.2.2.1 ha.2.2.2 h
  · rw [he] at h
    cases h; exact .refused r

theorem reservedOpcode_effect {s t : State} (h : reservedOpcode s = .next t) : PortEffect s t := by
  unfold reservedOpcode at h
  rcases admitted_cases (admission .reserved false true true s) hold s with ⟨ha, he⟩ | ⟨r, -, he⟩
  · rw [admission_eq_none_iff] at ha
    simp [permitted] at ha
  · rw [he] at h
    cases h; exact .refused r

/-- Everything a command that came on a port can do. -/
theorem exec_port_effect {i : Instr} {s t : State} (hp : s.issuer.port ≠ none) (h : exec i s = .next t) :
    PortEffect s t := by
  cases i with
  | reserved0 rest => exact reservedOpcode_effect h
  | reservedE rest => exact reservedOpcode_effect h
  | free =>
    simp only [exec, execFree] at h
    exact producer_effect (fun hi _ _ h => by cases h; exact .result _ hi) h
  | enqf n p =>
    simp only [exec, execEnqf] at h
    refine producer_effect (fun hi hr hl h => ?_) h
    have hlen := matchesCount_bytes hl
    have hr' : 1 ≤ n.toNat ∧ n.toNat ≤ 255 := by simpa using hr
    have he : frameBytes n.toNat p.byteList = FifoUnit.bytes (.frame p.byteList) := by
      simp only [FifoUnit.bytes, hlen]
    rw [he] at h
    exact enqueueUnit_effect hi (by simpa [FifoUnit.ok, hlen] using hr') h
  | enqc c =>
    simp only [exec, execEnqc] at h
    exact producer_effect (fun hi _ _ h => enqueueUnit_effect (u := .char c) hi trivial h) h
  | putc c =>
    simp only [exec, execPutc] at h
    exact producer_effect (fun hi _ _ h => enqueueUnit_effect (u := .char c) hi trivial h) h
  | putb n p =>
    simp only [exec, execPutb] at h
    exact producer_effect (fun hi _ hl h => putBytes_effect hi (matchesCount_bytes hl) h) h
  | deq =>
    simp only [exec, execDeq] at h
    exact internal_effect hp h
  | sendword v =>
    simp only [exec, execSendword] at h
    exact internal_effect hp h
  | etrace id => exact directCommand_effect (cmd := .trace id) (fun _ => trivial) h
  | eascii n p => exact directCommand_effect (fun hk => cmdOk_body (kind := .ascii) hk) h
  | ehex1 n p => exact directCommand_effect (fun hk => cmdOk_body (kind := .hex1) hk) h
  | ehex2 n p => exact directCommand_effect (fun hk => cmdOk_body (kind := .hex2) hk) h
  | ehex4 n p => exact directCommand_effect (fun hk => cmdOk_body (kind := .hex4) hk) h
  | echar c => exact directCommand_effect (cmd := .char c) (fun _ => trivial) h
  | init n =>
    change execInit n s = .next t at h
    unfold execInit at h
    rcases admitted_cases (admission .producer true (decide (2 ≤ n.toNat ∧ n.toNat ≤ s.params.capmax)) true s)
      (fun s => .next (respond 1 (initialised n.toNat s))) s with ⟨ha, he⟩ | ⟨r, -, he⟩
    · rw [he] at h
      rw [admission_eq_none_iff] at ha
      cases h
      have hr : 2 ≤ n.toNat ∧ n.toNat ≤ s.params.capmax := by simpa using ha.2.2.1
      exact .initialised n.toNat (by simpa using ha.1) hr.1 hr.2
    · rw [he] at h
      cases h; exact .refused r
  | hdrTrace id =>
    simp only [exec, execHdrTrace, headerStep] at h
    exact internal_effect hp h
  | hdrAscii n =>
    simp only [exec, execHdrAscii, bodyHeaderStep, headerStep] at h
    exact internal_effect hp h
  | hdrHex1 n =>
    simp only [exec, execHdrHex1, bodyHeaderStep, headerStep] at h
    exact internal_effect hp h
  | hdrHex2 n =>
    simp only [exec, execHdrHex2, bodyHeaderStep, headerStep] at h
    exact internal_effect hp h
  | hdrHex4 n =>
    simp only [exec, execHdrHex4, bodyHeaderStep, headerStep] at h
    exact internal_effect hp h
  | hdrChar c =>
    simp only [exec, execHdrChar, headerStep] at h
    exact internal_effect hp h
  | qfFrame len =>
    simp only [exec, execQfFrame] at h
    exact internal_effect hp h
  | qfChar c =>
    simp only [exec, execQfChar] at h
    exact internal_effect hp h

/-- The issuer of a command is the transaction's agent on its port; a state that differs in the issuer only. -/
theorem commandTurn_effect {tr : Transaction} {s t : State} (h : commandTurn tr s = .next t) :
    t = s ∨ PortEffect { s with issuer := ⟨tr.agent, some tr.port⟩ } t := by
  unfold commandTurn at h
  split at h
  · cases h
  split at h
  · cases h; exact .inl rfl
  split at h
  · cases h; exact .inl rfl
  dsimp only at h
  split at h
  · exact .inr (exec_port_effect (by simp) h)
  · rename_i e he
    rcases admitted_cases (illegalReason e { s with issuer := ⟨tr.agent, some tr.port⟩ }) hold
      { s with issuer := ⟨tr.agent, some tr.port⟩ } with ⟨-, h'⟩ | ⟨r, -, h'⟩
    · rw [h'] at h
      cases h; exact .inr .hold
    · rw [h'] at h
      cases h; exact .inr (.refused r)

end Sys2Proof.Machine
end

