-- ==== Sys2Proof/Laws/Frames.lean ====
section
/-! SUPPORT. Whole units of the FIFO's byte stream, what is owed of them, and the two cases of a unit step. -/

namespace Sys2Proof.Machine

/-! ### Whole units (30_encoding.md R81, R82, 42_fifo.md R160) -/

theorem wholeUnits_nil : wholeUnits [] := ⟨[], by simp, rfl⟩

theorem wholeUnits_append {a b : List Byte} (ha : wholeUnits a) (hb : wholeUnits b) : wholeUnits (a ++ b) := by
  obtain ⟨us, h1, h2⟩ := ha
  obtain ⟨vs, h3, h4⟩ := hb
  refine ⟨us ++ vs, fun u hu => ?_, by simp [h2, h4]⟩
  rcases List.mem_append.mp hu with h | h
  · exact h1 u h
  · exact h3 u h

theorem wholeUnits_unit {u : FifoUnit} (h : FifoUnit.ok u) : wholeUnits (FifoUnit.bytes u) := ⟨[u], by simpa using h, by simp⟩

/-- The first byte of a sequence of whole units tells what follows: a marker its character, a length its payload. -/
theorem wholeUnits_head {b : Byte} {l : List Byte} (h : wholeUnits (b :: l)) :
    (b = 0 ∧ ∃ c l', l = c :: l' ∧ wholeUnits l') ∨
    (b ≠ 0 ∧ b.toNat ≤ l.length ∧ wholeUnits (l.drop b.toNat)) := by
  obtain ⟨us, h1, h2⟩ := h
  cases us with
  | nil => simp at h2
  | cons u us =>
    have hu := h1 u (by simp)
    have hus : wholeUnits (us.flatMap FifoUnit.bytes) := ⟨us, fun v hv => h1 v (by simp [hv]), rfl⟩
    rw [List.flatMap_cons] at h2
    cases u with
    | frame p =>
      right
      simp only [FifoUnit.bytes, frameBytes, List.cons_append, List.cons.injEq] at h2
      obtain ⟨rfl, rfl⟩ := h2
      simp only [FifoUnit.ok] at hu
      have hn : (BitVec.ofNat 8 p.length).toNat = p.length := by
        simp; omega
      refine ⟨?_, ?_, ?_⟩
      · intro h0
        rw [h0] at hn
        simp at hn
        omega
      · rw [hn]; simp
      · rw [hn]; simpa using hus
    | char c =>
      left
      simp only [FifoUnit.bytes, charBytes, List.cons_append, List.nil_append, List.cons.injEq] at h2
      obtain ⟨rfl, rfl⟩ := h2
      exact ⟨rfl, c, _, rfl, hus⟩

theorem owed_congr {s t : State} (hp : t.phase = s.phase) (hr : t.rem = s.rem) : owed t = owed s := by
  unfold owed
  rw [hp, hr]

theorem FramesInv.congr {s t : State} (h : FramesInv s) (hb : t.buf = s.buf) (hr : t.rd = s.rd) (hn : t.cnt = s.cnt)
    (hc : t.cap = s.cap) (ho : owed t = owed s) : FramesInv t := by
  unfold FramesInv at *
  rw [ho, hn, held_congr hb hr hn hc]
  exact h

/-! ### The unit step (41_frame_encoder.md R124) -/

/-- A unit that fills the word or is the last one: the word is emitted. -/
theorem unitStep_emits (e : Word) (s : State) (h : s.k + 1 = s.unit.perWord ∨ s.rem - 1 = 0) :
    unitStep e s =
      emit (align (shiftIn s.unit s.acc e) (s.k + 1) s.unit) { s with acc := 0, k := 0, rem := s.rem - 1 } := by
  simp only [unitStep, packUnit, if_pos h]

/-- Any other unit stays in the accumulator. -/
theorem unitStep_keeps (e : Word) (s : State) (h : ¬ (s.k + 1 = s.unit.perWord ∨ s.rem - 1 = 0)) :
    unitStep e s = { s with acc := shiftIn s.unit s.acc e, k := s.k + 1, rem := s.rem - 1 } := by
  simp only [unitStep, packUnit, if_neg h]

end Sys2Proof.Machine
end

