-- ==== Sys2Proof/Laws/Packing.lean ====
section
/-! SUPPORT. The packing of units into words: the shift rule, the alignment and the closed form, as numbers. -/
namespace Sys2Proof.Machine

theorem or_eq_add {x n : Nat} (y : Nat) (h : x < 2 ^ n) : x ||| y * 2 ^ n = x + y * 2 ^ n := by
  rw [Nat.lor_comm, ← Nat.shiftLeft_eq, ← Nat.shiftLeft_add_eq_or_of_lt h, Nat.add_comm]

theorem perWord_pos (u : UnitSize) : 0 < u.perWord := by cases u <;> simp [UnitSize.perWord]

theorem perWord_mul_bytes (u : UnitSize) : u.perWord * u.bytes = 4 := by cases u <;> rfl

/-- A unit enters at the most significant end (41_frame_encoder.md R124). -/
theorem shiftIn_toNat (u : UnitSize) (acc e : Word) (he : e.toNat < 2 ^ (8 * u.bytes)) :
    (shiftIn u acc e).toNat = acc.toNat / 2 ^ (8 * u.bytes) + e.toNat * 2 ^ (32 - 8 * u.bytes) := by
  have ha := acc.isLt
  rw [shiftIn, BitVec.toNat_or, BitVec.toNat_ushiftRight, BitVec.toNat_shiftLeft, Nat.shiftRight_eq_div_pow, Nat.shiftLeft_eq]
  cases u <;> simp only [UnitSize.bytes] at he ⊢ <;> rw [Nat.mod_eq_of_lt (by omega), or_eq_add _ (by omega)]

theorem align_toNat (acc : Word) (k : Nat) (u : UnitSize) :
    (align acc k u).toNat = acc.toNat / 2 ^ (8 * u.bytes * (u.perWord - k)) := by
  rw [align, BitVec.toNat_ushiftRight, Nat.shiftRight_eq_div_pow]

/-- The value of a list of units, the first in the low bits. -/
def unitsValue (u : UnitSize) : List Word → Nat
  | [] => 0
  | x :: xs => x.toNat + unitsValue u xs * 2 ^ (8 * u.bytes)

theorem unitsValue_lt (u : UnitSize) (xs : List Word) (h : ∀ e ∈ xs, e.toNat < 2 ^ (8 * u.bytes)) :
    unitsValue u xs < 2 ^ (8 * u.bytes * xs.length) := by
  induction xs with
  | nil => simp [unitsValue]
  | cons x xs ih =>
    have h1 := h x (by simp)
    have h2 := ih (fun e he => h e (by simp [he]))
    rw [unitsValue, List.length_cons, Nat.mul_add, Nat.mul_one, Nat.pow_add]
    calc _ < 2 ^ (8 * u.bytes) + unitsValue u xs * 2 ^ (8 * u.bytes) := by omega
      _ = (unitsValue u xs + 1) * 2 ^ (8 * u.bytes) := by ring
      _ ≤ _ := Nat.mul_le_mul_right _ h2

theorem unitsValue_append (u : UnitSize) (xs : List Word) (e : Word) :
    unitsValue u (xs ++ [e]) = unitsValue u xs + e.toNat * 2 ^ (8 * u.bytes * xs.length) := by
  induction xs with
  | nil => simp [unitsValue]
  | cons x xs ih =>
    rw [List.cons_append, unitsValue, unitsValue, ih, List.length_cons, Nat.mul_add, Nat.mul_one, Nat.pow_add]
    ring

/-- Unit `i` of the value stands at bits `8u*i` up. -/
theorem unitsValue_get (u : UnitSize) (xs : List Word) (i : Nat) (hi : i < xs.length)
    (h : ∀ e ∈ xs, e.toNat < 2 ^ (8 * u.bytes)) :
    unitsValue u xs / 2 ^ (8 * u.bytes * i) % 2 ^ (8 * u.bytes) = xs[i].toNat := by
  induction xs generalizing i with
  | nil => simp at hi
  | cons x xs ih =>
    have h1 := h x (by simp)
    cases i with
    | zero => simp [unitsValue, Nat.mod_eq_of_lt h1]
    | succ i =>
      rw [unitsValue, Nat.mul_add, Nat.mul_one, Nat.add_comm (8 * u.bytes * i), Nat.pow_add, ← Nat.div_div_eq_div_mul,
        Nat.add_mul_div_right _ _ (Nat.two_pow_pos _), Nat.div_eq_of_lt h1, Nat.zero_add]
      exact ih i (by simpa using hi) (fun e he => h e (by simp [he]))

/-- A body word holds the value of its units (41_frame_encoder.md R126). -/
theorem packWord_toNat (u : UnitSize) (xs : List Word) (hl : xs.length ≤ u.perWord)
    (h : ∀ e ∈ xs, e.toNat < 2 ^ (8 * u.bytes)) : (packWord u xs).toNat = unitsValue u xs := by
  induction xs with
  | nil => rfl
  | cons x xs ih =>
    have h2 := ih (by simp at hl; omega) (fun e he => h e (by simp [he]))
    have hv := unitsValue_lt u (x :: xs) h
    have h32 : 2 ^ (8 * u.bytes * (x :: xs).length) ≤ 2 ^ 32 := by
      refine Nat.pow_le_pow_right (by omega) ?_
      have := perWord_mul_bytes u
      calc _ ≤ 8 * u.bytes * u.perWord := Nat.mul_le_mul_left _ hl
        _ = 32 := by rw [Nat.mul_assoc, Nat.mul_comm u.bytes, this]
    rw [unitsValue] at hv ⊢
    rw [packWord, BitVec.toNat_add, BitVec.toNat_shiftLeft, Nat.shiftLeft_eq, h2, Nat.add_mod_mod, Nat.mod_eq_of_lt]
    omega

/-- The accumulator holds the units `ys` at its most significant end (10_state.md R32). -/
def AccHolds (u : UnitSize) (acc : Word) (ys : List Word) : Prop :=
  acc.toNat = unitsValue u ys * 2 ^ (8 * u.bytes * (u.perWord - ys.length))

theorem accHolds_nil (u : UnitSize) : AccHolds u 0 [] := by simp [AccHolds, unitsValue]

theorem accHolds_shiftIn {u : UnitSize} {acc e : Word} {ys : List Word} (h : AccHolds u acc ys) (hl : ys.length < u.perWord)
    (he : e.toNat < 2 ^ (8 * u.bytes)) : AccHolds u (shiftIn u acc e) (ys ++ [e]) := by
  unfold AccHolds at *
  rw [shiftIn_toNat u acc e he, h, unitsValue_append, List.length_append, List.length_singleton, Nat.add_mul, Nat.mul_assoc e.toNat,
    ← Nat.pow_add]
  obtain ⟨m, hm⟩ : ∃ m, u.perWord = ys.length + 1 + m := ⟨u.perWord - ys.length - 1, by omega⟩
  have h1 : u.perWord - ys.length = m + 1 := by omega
  have h2 : u.perWord - (ys.length + 1) = m := by omega
  have h3 : 8 * u.bytes * ys.length + 8 * u.bytes * m = 32 - 8 * u.bytes := by
    have := perWord_mul_bytes u
    rw [hm] at this
    have h4 : 8 * ((ys.length + 1 + m) * u.bytes) = 32 := by rw [this]
    have : 8 * u.bytes * ys.length + 8 * u.bytes * m + 8 * u.bytes = 8 * ((ys.length + 1 + m) * u.bytes) := by ring
    omega
  rw [h1, h2, h3, Nat.mul_add, Nat.mul_one, Nat.pow_add, ← Nat.mul_assoc, Nat.mul_div_cancel _ (Nat.two_pow_pos _)]

theorem align_of_accHolds {u : UnitSize} {acc : Word} {ys : List Word} (h : AccHolds u acc ys) (hl : ys.length ≤ u.perWord)
    (hs : ∀ e ∈ ys, e.toNat < 2 ^ (8 * u.bytes)) : align acc ys.length u = packWord u ys := by
  apply BitVec.eq_of_toNat_eq
  rw [align_toNat, h, Nat.mul_div_cancel _ (Nat.two_pow_pos _), packWord_toNat u ys hl hs]

theorem packFuel_enough (u : UnitSize) (f : Nat) (xs : List Word) (h : xs.length ≤ f) :
    packFuel u f xs = packFuel u xs.length xs := by
  have hp := perWord_pos u
  induction f using Nat.strong_induction_on generalizing xs with
  | _ f ih =>
    cases f with
    | zero =>
      obtain rfl : xs = [] := by simpa using h
      rfl
    | succ f =>
      cases xs with
      | nil => simp [packFuel]
      | cons x xs =>
        have hl : ((x :: xs).drop u.perWord).length ≤ xs.length := by simp; omega
        simp only [packFuel, List.length_cons] at h ⊢
        rw [ih f (by omega) _ (by omega)]
        by_cases hf : xs.length < f + 1
        · rw [← ih xs.length (by omega) _ hl]
        · omega

theorem packBody_nil (u : UnitSize) : packBody u [] = [] := rfl

/-- The first word of a body, and the rest (41_frame_encoder.md R126). -/
theorem packBody_cons (u : UnitSize) (x : Word) (xs : List Word) :
    packBody u (x :: xs) = packWord u ((x :: xs).take u.perWord) :: packBody u ((x :: xs).drop u.perWord) := by
  have hp := perWord_pos u
  simp only [packBody, List.length_cons, packFuel]
  rw [packFuel_enough u xs.length _ (by simp; omega)]

end Sys2Proof.Machine
end

