-- ==== Sys2Proof/Laws/PerInstr.lean ====
section
/-! SUPPORT. Per instruction: its encoded word has the bits that its row of spec/opcode_table.json fixes. -/

namespace Sys2Proof.Laws

/-- A fixed field of a row of the opcode table: the bits from `hi` down to `lo` hold `value`. -/
structure FixedField where
  hi : Nat
  lo : Nat
  value : Nat
  deriving DecidableEq, Repr

/-- The bits a row fixes, as the table's "fixed" has them; QF_FRAME's row fixes none. -/
def fixedFields : Instr → List FixedField
  | .reserved0 _ => [⟨3, 0, 0⟩]
  | .free => [⟨31, 0, 1⟩]
  | .enqf _ _ => [⟨15, 0, 2⟩]
  | .enqc _ => [⟨7, 0, 3⟩, ⟨31, 16, 0⟩]
  | .putc _ => [⟨7, 0, 4⟩, ⟨31, 16, 0⟩]
  | .putb _ _ => [⟨15, 0, 5⟩]
  | .deq => [⟨31, 0, 6⟩]
  | .sendword _ => [⟨31, 0, 7⟩]
  | .etrace _ => [⟨7, 0, 8⟩]
  | .eascii _ _ => [⟨15, 0, 9⟩]
  | .ehex1 _ _ => [⟨15, 0, 10⟩]
  | .ehex2 _ _ => [⟨15, 0, 11⟩]
  | .ehex4 _ _ => [⟨15, 0, 12⟩]
  | .echar _ => [⟨7, 0, 13⟩, ⟨31, 16, 0⟩]
  | .reservedE _ => [⟨3, 0, 14⟩]
  | .init _ => [⟨15, 0, 15⟩]
  | .hdrTrace _ => [⟨7, 0, 0⟩]
  | .hdrAscii _ => [⟨15, 0, 1⟩]
  | .hdrHex1 _ => [⟨15, 0, 257⟩]
  | .hdrHex2 _ => [⟨15, 0, 513⟩]
  | .hdrHex4 _ => [⟨15, 0, 1025⟩]
  | .hdrChar _ => [⟨7, 0, 2⟩, ⟨31, 16, 0⟩]
  | .qfFrame _ => []
  | .qfChar _ => [⟨15, 8, 0⟩]

/-- The encoded word as the table numbers its bits; the FIFO forms with the first byte the most significant. -/
def tableNumber : Encoded → Nat
  | .command w _ => w.toNat
  | .header h => h.toNat
  | .fifo bs => bs.foldl (fun acc b => acc * 256 + b.toNat) 0

/-- The word has the field's value in the field's place. -/
def FixedField.fits (f : FixedField) (w : Nat) : Prop := w / 2 ^ f.lo % 2 ^ (f.hi + 1 - f.lo) = f.value

namespace RowBits

/-- The encoded instruction has every bit its row fixes. -/
def Statement (i : Instr) : Prop := ∀ f ∈ fixedFields i, f.fits (tableNumber (encode i))

theorem reserved0 (rest : BitVec 28) : Statement (.reserved0 rest) := by
  simp [Statement, fixedFields, encode, tableNumber, FixedField.fits]

theorem free : Statement (.free) := by
  simp [Statement, fixedFields, encode, tableNumber, FixedField.fits]

theorem enqf (n : Half) (p : Payload) : Statement (.enqf n p) := by
  simp [Statement, fixedFields, encode, tableNumber, FixedField.fits]

theorem enqc (c : Byte) : Statement (.enqc c) := by
  have := c.isLt
  simp [Statement, fixedFields, encode, tableNumber, FixedField.fits]
  omega

theorem putc (c : Byte) : Statement (.putc c) := by
  have := c.isLt
  simp [Statement, fixedFields, encode, tableNumber, FixedField.fits]
  omega

theorem putb (n : Half) (p : Payload) : Statement (.putb n p) := by
  simp [Statement, fixedFields, encode, tableNumber, FixedField.fits]

theorem deq : Statement (.deq) := by
  simp [Statement, fixedFields, encode, tableNumber, FixedField.fits]

theorem sendword (v : Word) : Statement (.sendword v) := by
  simp [Statement, fixedFields, encode, tableNumber, FixedField.fits]

theorem etrace (id : BitVec 24) : Statement (.etrace id) := by
  simp [Statement, fixedFields, encode, tableNumber, FixedField.fits]

theorem eascii (n : Half) (p : Payload) : Statement (.eascii n p) := by
  simp [Statement, fixedFields, encode, tableNumber, FixedField.fits]

theorem ehex1 (n : Half) (p : Payload) : Statement (.ehex1 n p) := by
  simp [Statement, fixedFields, encode, tableNumber, FixedField.fits]

theorem ehex2 (n : Half) (p : Payload) : Statement (.ehex2 n p) := by
  simp [Statement, fixedFields, encode, tableNumber, FixedField.fits]

theorem ehex4 (n : Half) (p : Payload) : Statement (.ehex4 n p) := by
  simp [Statement, fixedFields, encode, tableNumber, FixedField.fits]

theorem echar (c : Byte) : Statement (.echar c) := by
  have := c.isLt
  simp [Statement, fixedFields, encode, tableNumber, FixedField.fits]
  omega

theorem reservedE (rest : BitVec 28) : Statement (.reservedE rest) := by
  simp [Statement, fixedFields, encode, tableNumber, FixedField.fits]

theorem init (n : Half) : Statement (.init n) := by
  simp [Statement, fixedFields, encode, tableNumber, FixedField.fits]

theorem hdrTrace (id : BitVec 24) : Statement (.hdrTrace id) := by
  simp [Statement, fixedFields, encode, tableNumber, FixedField.fits]

theorem hdrAscii (n : Half) : Statement (.hdrAscii n) := by
  simp [Statement, fixedFields, encode, tableNumber, FixedField.fits, BodyKind.tagBits]

theorem hdrHex1 (n : Half) : Statement (.hdrHex1 n) := by
  simp [Statement, fixedFields, encode, tableNumber, FixedField.fits, BodyKind.tagBits]

theorem hdrHex2 (n : Half) : Statement (.hdrHex2 n) := by
  simp [Statement, fixedFields, encode, tableNumber, FixedField.fits, BodyKind.tagBits]

theorem hdrHex4 (n : Half) : Statement (.hdrHex4 n) := by
  simp [Statement, fixedFields, encode, tableNumber, FixedField.fits, BodyKind.tagBits]

theorem hdrChar (c : Byte) : Statement (.hdrChar c) := by
  have := c.isLt
  simp [Statement, fixedFields, encode, tableNumber, FixedField.fits]
  omega

theorem qfFrame (len : Byte) : Statement (.qfFrame len) := by
  simp [Statement, fixedFields]

theorem qfChar (c : Byte) : Statement (.qfChar c) := by
  have := c.isLt
  simp [Statement, fixedFields, encode, tableNumber, FixedField.fits]
  omega

end RowBits

end Sys2Proof.Laws
end

