-- ==== Sys2Proof/Laws/Sequencer.lean ====
section
/-! SUPPORT. What a turn of the sequencer can do: its steps are those of spec/43_consumer.md R176. -/

namespace Sys2Proof.Machine

/-- The header word of a direct command. -/
def cmdHeader : DirectCmd → Word
  | .trace id => traceHeader id
  | .body kind n _ => bodyHeader kind n
  | .char c => charHeader c

/-- The set-up of a direct command's body; none for a message with no body. -/
def cmdSetup : DirectCmd → State → State
  | .trace _, s => s
  | .body kind n _, s => startBody kind.unit n.toNat s
  | .char _, s => s

theorem admission_sequencer {s : State} (rangeOk : Bool) (hi : s.inited = true) (hs : s.issuer = ⟨.sequencer, none⟩)
    (hr : rangeOk = true) : admission .internal false rangeOk true s = none := by
  rw [admission_eq_none_iff]
  simp [hi, hs, hr, permitted]

/-- The header step of the sequencer's own agent. -/
theorem headerStep_sequencer {s : State} (h : Word) (setup : State → State) (hi : s.inited = true)
    (hs : s.issuer = ⟨.sequencer, none⟩) (hb : s.tbusy = false) : headerStep h setup s = .next (emit h (setup s)) := by
  simp [headerStep, admission_sequencer true hi hs rfl, hb]

/-- Executing a direct command's header word issues it and sets up the body (41_frame_encoder.md R122). -/
theorem exec_headerInstr {s : State} (cmd : DirectCmd) (hi : s.inited = true) (hs : s.issuer = ⟨.sequencer, none⟩)
    (hb : s.tbusy = false) : exec (headerInstr cmd) s = .next (emit (cmdHeader cmd) (cmdSetup cmd s)) := by
  cases cmd with
  | trace id => exact headerStep_sequencer (traceHeader id) (fun s => s) hi hs hb
  | body kind n units => cases kind <;> exact headerStep_sequencer _ _ hi hs hb
  | char c => exact headerStep_sequencer (charHeader c) (fun s => s) hi hs hb

/-- The state of a direct command's start step. -/
def startedDirect (cmd : DirectCmd) (s : State) : State :=
  emit (cmdHeader cmd) (cmdSetup cmd (asSequencer { s with phase := .direct, dstate := .active, cwait := false }))

/-- The state of a framed message's length step, `len` the byte taken. -/
def startedFrame (len : Byte) (s : State) : State :=
  emit (bodyHeader .ascii (len.setWidth 16)) { startBody .one len.toNat (taken len (asSequencer s)) with phase := .streamFrame }

/-- The state of the marker step, `b` the byte taken. -/
def afterMarker (b : Byte) (s : State) : State :=
  if s.params.emptyAsciiBeforeChar then emit (bodyHeader .ascii 0) { taken b (asSequencer s) with phase := .streamChar }
  else { taken b (asSequencer s) with phase := .streamChar }

/-- The state of the character step, `c` the byte taken. -/
def afterCharacter (c : Byte) (s : State) : State :=
  emit (charHeader c) { taken c (asSequencer s) with phase := .awaitLength }

/-- The state of a frame body step, `b` the byte taken. -/
def afterFrameByte (b : Byte) (s : State) : State :=
  unitStep (b.setWidth 32)
    { taken b (asSequencer s) with phase := if s.rem = 1 then .awaitLength else .streamFrame }

/-- What a turn of the sequencer can do to the state. -/
inductive SequencerEffect (s : State) : State → Prop where
  | hold : SequencerEffect s s
  | suspend : s.inited = true → s.phase = .awaitLength → s.tbusy = false → s.cnt = 0 → s.cwait = false →
      SequencerEffect s { s with cwait := true }
  | frame (len : Byte) : s.inited = true → s.phase = .awaitLength → s.tbusy = false → 0 < s.cnt → len ≠ 0 →
      peek s s.rd = len → SequencerEffect s (startedFrame len s)
  | marker : s.inited = true → s.phase = .awaitLength → s.tbusy = false → 0 < s.cnt →
      peek s s.rd = 0 → SequencerEffect s (afterMarker 0 s)
  | character (c : Byte) : s.inited = true → s.phase = .streamChar → s.tbusy = false → 0 < s.cnt →
      peek s s.rd = c → SequencerEffect s (afterCharacter c s)
  | direct (cmd : DirectCmd) : s.inited = true → s.phase = .awaitLength → s.tbusy = false → s.dstate = .pending →
      s.dreq = some cmd → SequencerEffect s (startedDirect cmd s)
  | frameByte (b : Byte) : s.inited = true → s.phase = .streamFrame → s.tbusy = false → 0 < s.rem → 0 < s.cnt →
      peek s s.rd = b → SequencerEffect s (afterFrameByte b s)
  | directUnit (e : Word) (rest : List Word) : s.inited = true → s.phase = .direct → s.tbusy = false → 0 < s.rem →
      s.dpay = e :: rest → SequencerEffect s (unitStep e { asSequencer s with dpay := rest })
  | finish : s.inited = true → s.phase = .direct → s.tbusy = false → s.rem = 0 →
      SequencerEffect s { asSequencer s with phase := .awaitLength, dstate := .done }

theorem take_asSequencer {s : State} {b : Byte} {t : State} (h : take (asSequencer s) = .ok (b, t)) :
    peek s s.rd = b ∧ t = taken b (asSequencer s) := by
  rcases take_cases (asSequencer s) with ⟨-, ht⟩ | ht
  · rw [ht] at h
    cases h
    exact ⟨rfl, rfl⟩
  · rw [ht] at h; cases h

/-- Executing a frame form from the sequencer, at a boundary with a byte to take. -/
theorem exec_qfFrame_sequencer {s : State} {len : Byte} (hi : s.inited = true) (hp : s.phase = .awaitLength)
    (hb : s.tbusy = false) (hn : 0 < s.cnt) (hl : len ≠ 0) :
    exec (.qfFrame len) (asSequencer s) = andThen (take (asSequencer s)) (fun r =>
      .next (emit (bodyHeader .ascii (len.setWidth 16)) { startBody .one len.toNat r.2 with phase := .streamFrame })) := by
  simp only [exec, execQfFrame]
  rw [admission_sequencer _ (by simpa using hi) (by simp) (by simpa using hl)]
  simp [mayTake, hb, hn, hp]

theorem exec_qfChar_marker {s : State} {c : Byte} (hi : s.inited = true) (hp : s.phase = .awaitLength)
    (hb : s.tbusy = false) (hn : 0 < s.cnt) : exec (.qfChar c) (asSequencer s) = markerStep (asSequencer s) := by
  simp only [exec, execQfChar]
  rw [admission_sequencer _ (by simpa using hi) (by simp) rfl]
  simp [mayTake, hb, hn, hp]

theorem exec_qfChar_character {s : State} {c : Byte} (hi : s.inited = true) (hp : s.phase = .streamChar)
    (hb : s.tbusy = false) (hn : 0 < s.cnt) : exec (.qfChar c) (asSequencer s) = characterStep c (asSequencer s) := by
  simp only [exec, execQfChar]
  rw [admission_sequencer _ (by simpa using hi) (by simp) rfl]
  simp [mayTake, hb, hn, hp]

theorem exec_qfChar_empty {s : State} {c : Byte} (hi : s.inited = true) (hn : ¬ 0 < s.cnt) :
    exec (.qfChar c) (asSequencer s) = hold (asSequencer s) := by
  simp only [exec, execQfChar]
  rw [admission_sequencer _ (by simpa using hi) (by simp) rfl]
  simp [mayTake, hn]

theorem markerStep_next {s t : State} (h : markerStep (asSequencer s) = .next t) :
    ∃ b, peek s s.rd = b ∧ t = afterMarker b s := by
  unfold markerStep at h
  obtain ⟨r, hr, h⟩ := andThen_next h
  obtain ⟨hb, hr2⟩ := take_asSequencer hr
  refine ⟨r.1, hb, ?_⟩
  cases h
  simp [afterMarker, hr2]

theorem characterStep_next {s t : State} {c : Byte} (hc : peek s s.rd = c)
    (h : characterStep c (asSequencer s) = .next t) : t = afterCharacter c s := by
  unfold characterStep at h
  obtain ⟨r, hr, h⟩ := andThen_next h
  obtain ⟨hb, hr2⟩ := take_asSequencer hr
  have : r.1 = c := by rw [← hb, hc]
  cases h
  rw [hr2, this]
  rfl

/-- The length step: a frame's length byte or a marker. -/
theorem fifoStep_boundary {s t : State} (hi : s.inited = true) (hp : s.phase = .awaitLength) (hb : s.tbusy = false)
    (hn : 0 < s.cnt) (h : fifoStep s = .next t) : SequencerEffect s t := by
  unfold fifoStep fetchBytes at h
  rw [hp] at h
  simp only [decodeFifo] at h
  by_cases hz : peek s s.rd = 0
  · simp only [hz, if_true] at h
    rw [exec_qfChar_marker hi hp hb hn] at h
    obtain ⟨b, hr, rfl⟩ := markerStep_next h
    have : b = 0 := by rw [← hr]; exact hz
    subst this
    exact .marker hi hp hb hn hr
  · simp only [hz, if_false] at h
    rw [exec_qfFrame_sequencer hi hp hb hn hz] at h
    obtain ⟨r, hr, h⟩ := andThen_next h
    obtain ⟨hrd, hr2⟩ := take_asSequencer hr
    cases h
    rw [hr2, hrd]
    exact .frame r.1 hi hp hb hn (by rwa [hrd] at hz) hrd

theorem directStart_effect {s t : State} (hi : s.inited = true) (hp : s.phase = .awaitLength) (hb : s.tbusy = false)
    (hd : s.dstate = .pending) (h : directStart s = .next t) : SequencerEffect s t := by
  unfold directStart at h
  split at h
  · rename_i cmd hc
    rw [exec_headerInstr cmd (by simpa using hi) (by simp) (by simpa using hb)] at h
    cases h
    exact .direct cmd hi hp hb hd hc
  · cases h; exact .hold

theorem boundaryStep_effect {d : Bool} {s t : State} (hi : s.inited = true) (hp : s.phase = .awaitLength)
    (hb : s.tbusy = false) (h : boundaryStep d s = .next t) : SequencerEffect s t := by
  unfold boundaryStep at h
  split at h
  · rename_i hd
    exact directStart_effect hi hp hb (by simp at hd; exact hd.2) h
  · split at h
    · rename_i hn
      exact fifoStep_boundary hi hp hb hn h
    · rename_i hn
      split at h
      · rename_i hw
        cases h
        exact .suspend hi hp hb (by omega) hw
      · split at h
        · rename_i hd
          exact directStart_effect hi hp hb hd h
        · cases h; exact .hold

/-- Everything a turn of the sequencer can do. -/
theorem sequencerTurn_effect {d : Bool} {s t : State} (h : sequencerTurn d s = .next t) : SequencerEffect s t := by
  unfold sequencerTurn at h
  split at h
  · rename_i hg
    simp only [Bool.and_eq_true, decide_eq_true_eq] at hg
    obtain ⟨hi, hb⟩ := hg
    split at h
    · rename_i hp
      exact boundaryStep_effect hi hp hb h
    · rename_i hp
      split at h
      · rename_i hg
        unfold frameStep at h
        obtain ⟨r, hr, h⟩ := andThen_next h
        obtain ⟨hrd, hr2⟩ := take_asSequencer hr
        cases h
        rw [hr2]
        exact .frameByte r.1 hi hp hb hg.1 hg.2 hrd
      · cases h; exact .hold
    · rename_i hp
      split at h
      · rename_i hn
        unfold fifoStep fetchBytes at h
        rw [hp] at h
        simp only [decodeFifo, if_true] at h
        rw [exec_qfChar_character hi hp hb hn] at h
        rw [characterStep_next rfl h]
        exact .character _ hi hp hb hn rfl
      · cases h; exact .hold
    · rename_i hp
      split at h
      · rename_i hr
        unfold directUnit at h
        split at h
        · rename_i e rest he
          cases h
          exact .directUnit e rest hi hp hb hr he
        · cases h; exact .hold
      · rename_i hr
        cases h
        exact .finish hi hp hb (by omega)
  · cases h; exact .hold

end Sys2Proof.Machine
end

