-- ==== Sys2Proof/Laws/Transport.lean ====
section
/-! SUPPORT. The word transfer: what a poll sees, and everything a turn of the controller, the host, the client or the tick
source can do. -/

namespace Sys2Proof.Machine

theorem getLsbD_putBit (w : Word) (i : Fin 32) (b : Bool) : (putBit w i b).getLsbD i.val = b := by
  unfold putBit bitMask
  have := i.isLt
  cases b <;> simp [this]

/-- A poll sees the busy flag, whatever the parameters and the register's other bits (40_word_transport.md R102). -/
@[simp] theorem pollBusy_eq (s : State) : pollBusy s = s.chBusy := getLsbD_putBit _ _ _

theorem wordByte_eq (w : Word) (j : Nat) : wordByte w j = (w >>> (8 * j)).setWidth 8 := by
  apply BitVec.eq_of_toNat_eq
  simp [wordByte, Nat.shiftRight_eq_div_pow]

theorem escalate_eq (s : State) : escalate s = { s with tier := (escalate s).tier } := by
  unfold escalate
  split <;> rfl

/-- Everything a turn of the controller can do: nothing; a poll that finds BUSY = 1; the write of its variant. -/
theorem controllerTurn_cases {s t : State} (h : controllerTurn s = .next t) :
    t = s ∨
    (s.inited = true ∧ s.tbusy = true ∧ s.chBusy = true ∧ t = escalate s) ∨
    (s.inited = true ∧ s.tbusy = true ∧ s.chBusy = false ∧ s.params.variant = .modern ∧ s.hidx < 4 ∧ t = handshake s) ∨
    (s.inited = true ∧ s.tbusy = true ∧ s.chBusy = false ∧ s.params.variant = .legacy ∧ t = wordWrite s) := by
  unfold controllerTurn at h
  rw [pollBusy_eq] at h
  split at h
  · rename_i hg
    simp only [Bool.and_eq_true] at hg
    split at h
    · rename_i hc
      cases h
      exact .inr (.inl ⟨hg.1, hg.2, hc, rfl⟩)
    · rename_i hc
      have hc : s.chBusy = false := by simpa using hc
      split at h
      · rename_i hv
        split at h
        · rename_i h4
          cases h
          exact .inr (.inr (.inl ⟨hg.1, hg.2, hc, hv, h4, rfl⟩))
        · cases h
          exact .inl rfl
      · rename_i hv
        cases h
        exact .inr (.inr (.inr ⟨hg.1, hg.2, hc, hv, rfl⟩))
  · cases h
    exact .inl rfl

/-- Everything a turn of the host can do (60_exceptions.md R215). -/
theorem hostTurn_cases {s t : State} (h : hostTurn s = .next t) :
    t = s ∨ (s.inited = true ∧ s.chBusy = true ∧ t = { s with hostrx := s.hostrx ++ [s.chData], chBusy := false }) := by
  unfold hostTurn at h
  split at h
  · rename_i hg
    simp only [Bool.and_eq_true] at hg
    cases h
    exact .inr ⟨hg.1, hg.2, rfl⟩
  · cases h
    exact .inl rfl

/-- Everything a turn of the direct client can do (41_frame_encoder.md R121). -/
theorem clientTurn_cases {s t : State} (h : clientTurn s = .next t) :
    t = s ∨ (s.inited = true ∧ s.dstate = .done ∧ t = { s with dreq := none, dpay := [], dstate := .none }) := by
  unfold clientTurn at h
  split at h
  · rename_i hg
    simp only [Bool.and_eq_true, decide_eq_true_eq] at hg
    cases h
    exact .inr ⟨hg.1, hg.2, rfl⟩
  · cases h
    exact .inl rfl

/-- Everything a tick can do (40_word_transport.md R106). -/
theorem tickTurn_cases {s t : State} (h : tickTurn s = .next t) :
    t = s ∨ (s.inited = true ∧ s.tbusy = true ∧ s.chBusy = true ∧ t = escalate { s with tticks := s.tticks + 1 }) := by
  unfold tickTurn at h
  split at h
  · rename_i hg
    simp only [Bool.and_eq_true] at hg
    cases h
    exact .inr ⟨hg.1.1, hg.1.2, hg.2, rfl⟩
  · cases h
    exact .inl rfl

/-- A step is its turn, taken in the state without it. -/
theorem runTurn_of_step {s t : State} (h : step s = .next t) : runTurn (nextTurn s) (popTurn s) = .next t := by
  unfold step at h
  split at h
  · cases h
  · exact h

end Sys2Proof.Machine
end

