-- ==== Sys2Proof/Tests/Slice0.lean ====
section
/-! SUPPORT. The tests: well-formedness, decoding of words written from the spec, one step each from spec/95_test_vectors.md
(named by their vector), and a witness for the hypotheses of every obligation. -/

namespace Sys2Proof.Tests

open Sys2Proof Sys2Proof.Machine

/-! ### Helpers -/

/-- The parameters with `VARIANT = LEGACY`, as spec/95_test_vectors.md assumes. -/
def legacy : Params := { Params.default with variant := .legacy }

/-- An initialised idle block of capacity `n`, its channel free. -/
def idle (n : Nat) (p : Params := legacy) : State := { State.reset with inited := true, cap := n, params := p }

/-- `s` with the bytes enqueued. -/
def holding (bs : List Byte) (s : State) : State := putAll bs s

/-- `s` seen by the direct client, on its port. -/
def asClient (s : State) : State := { s with issuer := ⟨.client, some .direct⟩ }

/-- A block with a direct command pending in its latch. -/
def pendingCmd (cmd : DirectCmd) (s : State) : State := latch cmd s

/-- A block inside a direct body, `l` the units still to come. -/
def inDirect (u : UnitSize) (l : List Word) (s : State) : State :=
  { s with phase := .direct, dstate := .active, dreq := some (.trace 0), unit := u, rem := l.length, dpay := l }

/-- A block inside a frame, `n` bytes still to come. -/
def inFrame (n : Nat) (s : State) : State := { s with phase := .streamFrame, rem := n }

/-- A field of a next state. -/
def field {α : Type} (f : State → α) : Result → Option α
  | .next s => some (f s)
  | .fault _ => none
  | .refused _ => none

/-- The mark of a next state. -/
def markOf (r : Result) : Option (Option Reason) := field (·.mark) r

/-- What a command answers: the response to P1 and the bytes held. -/
def answer (r : Result) : Option (Option Word × List Byte) := field (fun s => (respOf s 1, held s)) r

/-! ### Well-formedness refuses -/

theorem test_wf_reserved0 : (Instr.reserved0 0).wellFormed = false := by decide
theorem test_wf_reservedE : (Instr.reservedE 1).wellFormed = false := by decide
theorem test_wf_enqf_zero : (Instr.enqf 0 (.bytes [])).wellFormed = false := by decide
theorem test_wf_enqf_long : (Instr.enqf 256 (.bytes [])).wellFormed = false := by decide
theorem test_wf_enqf_payload : (Instr.enqf 2 (.bytes [0x61])).wellFormed = false := by decide
theorem test_wf_putb_payload : (Instr.putb 3 (.bytes [0x61, 0x62])).wellFormed = false := by decide
theorem test_wf_eascii_unit : (Instr.eascii 1 (.halves [1])).wellFormed = false := by decide
theorem test_wf_ehex1_unit : (Instr.ehex1 1 (.words [1])).wellFormed = false := by decide
theorem test_wf_ehex2_unit : (Instr.ehex2 1 (.bytes [1])).wellFormed = false := by decide
theorem test_wf_ehex4_count : (Instr.ehex4 2 (.words [1])).wellFormed = false := by decide
theorem test_wf_init_small : (Instr.init 1).wellFormed = false := by decide
theorem test_wf_frame_zero : (Instr.qfFrame 0).wellFormed = false := by decide
theorem test_wf_accepts : (Instr.ehex2 3 (.halves [1, 2, 3])).wellFormed = true := by decide

/-! ### Decoding words written from the spec's encodings (30_encoding.md R71, R73, R77, R81, R82) -/

theorem test_decode_reserved0 : decodeCommand 0x00000010 (.bytes []) = .ok (.reserved0 1) := by decide
theorem test_decode_free : decodeCommand 0x00000001 (.bytes []) = .ok .free := by decide
theorem test_decode_enqf : decodeCommand 0x00030002 (.bytes [7, 8, 9]) = .ok (.enqf 3 (.bytes [7, 8, 9])) := by decide
theorem test_decode_enqc : decodeCommand 0x00004103 (.bytes []) = .ok (.enqc 0x41) := by decide
theorem test_decode_putc : decodeCommand 0x00002104 (.bytes []) = .ok (.putc 0x21) := by decide
theorem test_decode_putb : decodeCommand 0x00020005 (.bytes [1, 2]) = .ok (.putb 2 (.bytes [1, 2])) := by decide
theorem test_decode_deq : decodeCommand 0x00000006 (.bytes []) = .ok .deq := by decide
theorem test_decode_sendword : decodeCommand 0x00000007 (.words [0xDEADBEEF]) = .ok (.sendword 0xDEADBEEF) := by decide
theorem test_decode_sendword_bare : decodeCommand 0x00000007 (.words []) = .error .missingOperandWord := by decide
theorem test_decode_etrace : decodeCommand 0x12345608 (.bytes []) = .ok (.etrace 0x123456) := by decide
theorem test_decode_eascii : decodeCommand 0xFFFF0009 (.bytes []) = .ok (.eascii 65535 (.bytes [])) := by decide
theorem test_decode_ehex1 : decodeCommand 0x0005000A (.bytes [1, 2, 3, 4, 5]) = .ok (.ehex1 5 (.bytes [1, 2, 3, 4, 5])) := by
  decide
theorem test_decode_ehex2 : decodeCommand 0x0003000B (.halves [1, 2, 3]) = .ok (.ehex2 3 (.halves [1, 2, 3])) := by decide
theorem test_decode_ehex4 : decodeCommand 0x0002000C (.words [1, 2]) = .ok (.ehex4 2 (.words [1, 2])) := by decide
theorem test_decode_echar : decodeCommand 0x00005A0D (.bytes []) = .ok (.echar 0x5A) := by decide
theorem test_decode_reservedE : decodeCommand 0xFFFFFFFE (.bytes []) = .ok (.reservedE 0xFFFFFFF) := by decide
theorem test_decode_init : decodeCommand 0x0008000F (.bytes []) = .ok (.init 8) := by decide
theorem test_decode_hdr_trace : decodeHeader 0x12345600 = .ok (.hdrTrace 0x123456) := by decide
theorem test_decode_hdr_ascii : decodeHeader 0x00050001 = .ok (.hdrAscii 5) := by decide
theorem test_decode_hdr_hex1 : decodeHeader 0x00050101 = .ok (.hdrHex1 5) := by decide
theorem test_decode_hdr_hex2 : decodeHeader 0x00030201 = .ok (.hdrHex2 3) := by decide
theorem test_decode_hdr_hex4 : decodeHeader 0x00000401 = .ok (.hdrHex4 0) := by decide
theorem test_decode_hdr_char : decodeHeader 0x00000A02 = .ok (.hdrChar 0x0A) := by decide
theorem test_decode_frame : decodeFifo [2, 0x48, 0x69] = .ok (.qfFrame 2, [0x48, 0x69]) := by decide
theorem test_decode_char : decodeFifo [0, 0] = .ok (.qfChar 0, []) := by decide

/-- T-D3, T-D7, T-D21, T-D22: a must-be-zero bit set, and reserved headers. -/
theorem test_decode_refuses :
    decodeCommand 0x00000011 (.bytes []) = .error (.mustBeZero 1) ∧
    decodeCommand 0x00014103 (.bytes []) = .error (.mustBeZero 3) ∧
    decodeHeader 0x00000301 = .error (.reservedHeader 0x00000301) ∧
    decodeHeader 0x00000003 = .error (.reservedHeader 0x00000003) := by decide

/-- The rows' words of the opcode table, each at its own length. -/
theorem test_table_words :
    decodeTableWord 8 0x10 = some (.reserved0 1) ∧ decodeTableWord 32 0x1 = some .free ∧
    decodeTableWord 16 0x2 = some (.enqf 0 (.bytes [])) ∧ decodeTableWord 8 0x5 = some (.qfFrame 5) ∧
    decodeTableWord 16 0x41 = some (.qfChar 0x41) ∧ decodeTableWord 32 0x4102 = some (.hdrChar 0x41) ∧
    decodeTableWord 16 0x101 = some (.hdrHex1 0) ∧ decodeTableWord 32 0x7 = some (.sendword 0) := by decide

/-- The first step after reset runs the placed instruction: INIT on the port, a header through the latch, a FIFO form. -/
theorem test_fetch_init : field (fun s => (s.inited, s.cap)) (step (State.reset.withFetchWord 32 0x0008000F)) = some (true, 8) := by
  decide
theorem test_fetch_header : field (·.tword) (step (State.reset.withFetchWord 16 0x0201)) = some 0x0201 := by decide
theorem test_fetch_frame : field (·.tword) (step (State.reset.withFetchWord 8 2)) = some 0x00020001 := by decide

/-! ### One step each, from spec/95_test_vectors.md -/

/-- T-D14 after INIT. -/
theorem test_reserved0 : markOf (exec (.reserved0 0) (idle 8)) = some (some .reservedOpcode) := by decide
/-- T-X3. -/
theorem test_reservedE : markOf (exec (.reservedE 0) (idle 8)) = some (some .reservedOpcode) := by decide
/-- T-X2. -/
theorem test_reservedE_before : markOf (exec (.reservedE 0) State.reset) = some (some .notInitialised) := by decide
/-- T-F1b. -/
theorem test_free : answer (exec .free (holding [2, 0x61, 0x62] (idle 8))) = some (some 5, [2, 0x61, 0x62]) := by decide
/-- T-X1. -/
theorem test_free_before : markOf (exec .free State.reset) = some (some .notInitialised) := by decide
/-- T-F2. -/
theorem test_enqf : answer (exec (.enqf 3 (.bytes [0x61, 0x62, 0x63])) (idle 4)) = some (some 1, [3, 0x61, 0x62, 0x63]) := by
  decide
/-- T-F4: the bytes wrap inside the frame. -/
theorem test_enqf_wraps :
    field (fun s => (s.buf, s.wr)) (exec (.enqf 2 (.bytes [0x78, 0x79])) { idle 5 with rd := 3, wr := 3 }) =
      some ([(0, 0x79), (3, 2), (4, 0x78)], 1) := by decide
/-- T-F6. -/
theorem test_enqc : answer (exec (.enqc 0x41) (holding [0, 0x62] (idle 4))) = some (some 1, [0, 0x62, 0, 0x41]) := by decide
/-- T-F6b. -/
theorem test_enqc_drops : answer (exec (.enqc 0x41) (holding [2, 0x61, 0x62] (idle 4))) = some (some 0, [2, 0x61, 0x62]) := by
  decide
/-- T-P3. -/
theorem test_putc : answer (exec (.putc 0xFF) (idle 8)) = some (some 0x000000FF, [0, 0xFF]) := by decide
/-- T-P2. -/
theorem test_putc_fails : answer (exec (.putc 0x41) (holding [1, 0x61] (idle 3))) = some (some 0xFFFFFFFF, [1, 0x61]) := by
  decide
/-- T-P7: free space 5, five bytes. -/
theorem test_putb :
    answer (exec (.putb 5 (.bytes [0x61, 0x62, 0x63, 0x64, 0x65])) (idle 5)) =
      some (some 4, [4, 0x61, 0x62, 0x63, 0x64]) := by decide
/-- T-P10: no free space. -/
theorem test_putb_full : answer (exec (.putb 1 (.bytes [0x7A])) (holding [1, 0x61] (idle 2))) = some (some 0, [1, 0x61]) := by
  decide
/-- T-F5's first DEQ. -/
theorem test_deq : field (fun s => (s.deqByte, held s, s.rd)) (exec .deq (asSequencer (holding [2, 0x78, 0x79] (idle 5)))) =
    some (2, [0x78, 0x79], 1) := by decide
/-- T-D10. -/
theorem test_deq_on_port : markOf (exec .deq (idle 8)) = some (some .wrongAgent) := by decide
/-- T-W3's start. -/
theorem test_sendword : field (fun s => (s.tbusy, s.tword)) (exec (.sendword 0x00020001) (asSequencer (idle 8))) =
    some (true, 0x00020001) := by decide
/-- T-X7. -/
theorem test_sendword_on_port : markOf (exec (.sendword 0) (idle 8)) = some (some .wrongAgent) := by decide
/-- T-E1. -/
theorem test_etrace : field (·.tword) (runTurn (.sequencer true) (pendingCmd (.trace 0x123456) (idle 8))) = some 0x12345600 := by
  decide
theorem test_etrace_latched : field (·.dreq) (exec (.etrace 0x123456) (asClient (idle 8))) = some (some (.trace 0x123456)) := by
  decide
theorem test_eascii : field (fun s => (s.dpay, s.dstate)) (exec (.eascii 2 (.bytes [0x61, 0x62])) (asClient (idle 8))) =
    some ([0x61, 0x62], .pending) := by decide
/-- T-E4: the words of "abcde". -/
theorem test_eascii_words : messageWords (.body .ascii [0x61, 0x62, 0x63, 0x64, 0x65]) = [0x00050001, 0x64636261, 0x00000065] := by
  decide
theorem test_ehex1 : field (·.dpay) (exec (.ehex1 1 (.bytes [0xFF])) (asClient (idle 8))) = some [0xFF] := by decide
/-- T-E7. -/
theorem test_ehex1_words : messageWords (.body .hex1 [1, 2, 3, 4, 5]) = [0x00050101, 0x04030201, 0x00000005] := by decide
theorem test_ehex2 : field (·.dpay) (exec (.ehex2 1 (.halves [0xABCD])) (asClient (idle 8))) = some [0xABCD] := by decide
/-- T-E8. -/
theorem test_ehex2_words : messageWords (.body .hex2 [0x1111, 0x2222, 0x3333]) = [0x00030201, 0x22221111, 0x00003333] := by decide
theorem test_ehex4 : field (·.dpay) (exec (.ehex4 1 (.words [0xDEADBEEF])) (asClient (idle 8))) = some [0xDEADBEEF] := by decide
/-- T-E10. -/
theorem test_ehex4_words : messageWords (.body .hex4 [0xDEADBEEF, 0x01234567]) = [0x00020401, 0xDEADBEEF, 0x01234567] := by decide
/-- T-E11. -/
theorem test_echar : field (·.tword) (runTurn (.sequencer true) (pendingCmd (.char 0x5A) (idle 8))) = some 0x00005A02 := by decide
/-- T-E17: a second command is not taken while the latch is full. -/
theorem test_echar_holds : field (·.dreq) (exec (.echar 0x42) (asClient (pendingCmd (.char 0x41) (idle 8)))) =
    some (some (.char 0x41)) := by decide
/-- T-R1. -/
theorem test_init : field (fun s => (s.cap, s.cnt, s.inited, respOf s 1)) (exec (.init 8) State.reset) =
    some (8, 0, true, some 1) := by decide
/-- T-X6. -/
theorem test_init_again : markOf (exec (.init 8) (idle 8)) = some (some .reInit) := by decide
theorem test_hdr_trace : field (·.tword) (exec (.hdrTrace 0xFFFFFF) (asSequencer (idle 8))) = some 0xFFFFFF00 := by decide
theorem test_hdr_ascii : field (fun s => (s.tword, s.unit, s.rem)) (exec (.hdrAscii 5) (asSequencer (idle 8))) =
    some (0x00050001, .one, 5) := by decide
theorem test_hdr_hex1 : field (fun s => (s.tword, s.unit, s.rem)) (exec (.hdrHex1 5) (asSequencer (idle 8))) =
    some (0x00050101, .one, 5) := by decide
theorem test_hdr_hex2 : field (fun s => (s.tword, s.unit, s.rem)) (exec (.hdrHex2 3) (asSequencer (idle 8))) =
    some (0x00030201, .two, 3) := by decide
theorem test_hdr_hex4 : field (fun s => (s.tword, s.unit, s.rem)) (exec (.hdrHex4 65535) (asSequencer (idle 8))) =
    some (0xFFFF0401, .four, 65535) := by decide
theorem test_hdr_char : field (·.tword) (exec (.hdrChar 0) (asSequencer (idle 8))) = some 0x00000002 := by decide
/-- T-C1, step 1. -/
theorem test_frame : field (fun s => (s.tword, s.phase, s.rem, held s)) (runTurn (.sequencer false) (holding [2, 0x48, 0x69] (idle 8))) =
    some (0x00020001, .streamFrame, 2, [0x48, 0x69]) := by decide
/-- T-C1, step 3. -/
theorem test_frame_last :
    field (fun s => (s.tword, s.phase)) (runTurn (.sequencer false)
      { inFrame 1 (holding [0x69] (idle 8)) with acc := 0x48000000, k := 1 }) = some (0x00006948, .awaitLength) := by decide
/-- T-C6: the marker step with the empty AsciiText header. -/
theorem test_char_marker :
    field (fun s => (s.tword, s.phase)) (runTurn (.sequencer false)
      (holding [0, 0x79] (idle 8 { legacy with emptyAsciiBeforeChar := true }))) = some (0x00000001, .streamChar) := by decide
/-- T-C5: a 0 after a marker is a character. -/
theorem test_char_zero :
    field (fun s => (s.tword, s.phase)) (runTurn (.sequencer false) { holding [0] (idle 8) with phase := .streamChar }) =
      some (0x00000002, .awaitLength) := by decide
/-- T-W1's first write. -/
theorem test_handshake :
    field (fun s => (channelRead s, s.hidx, s.wire)) (runTurn .controller
      { idle 8 Params.default with tbusy := true, tword := 0x00020001 }) = some (0x0101, 1, [0x01]) := by decide
/-- T-W3. -/
theorem test_word_write :
    field (fun s => (s.tbusy, s.chBusy, s.wire)) (runTurn .controller { idle 8 with tbusy := true, tword := 0x00020001 }) =
      some (false, true, [0x00020001]) := by decide
/-- T-W5. -/
theorem test_reassembly : reassemble .modern [0x61, 0x62, 0x63, 0x64] = [0x64636261] := by decide
/-- R209, R72: the empty list is exactly 0 units, whatever units its type holds. -/
theorem test_empty_payload : answer (exec (.putb 0 (.halves [])) (idle 8)) = some (some 0, [0, 0x0A]) := by decide
/-- T-F10: the suspend step. -/
theorem test_suspend : field (·.cwait) (runTurn (.sequencer false) (idle 8)) = some true := by decide
/-- R34, R224: not suspended once a byte is held. -/
theorem test_resume : field (·.cwait) (exec (.enqc 0x41) { idle 8 with cwait := true }) = some false := by decide
/-- T-X4. -/
theorem test_interrupt : markOf (exec (.putc 0x41) { idle 8 with issuer := ⟨.interruptHandler 0, some .producer⟩ }) =
    some (some .interruptContext) := by decide

/-! ### Invariants of the helper states -/

theorem fifoInv_idle (n : Nat) (p : Params) (h2 : 2 ≤ n) (hn : n ≤ p.capmax) : FifoInv (idle n p) where
  capLow := h2
  capHigh := hn
  rdLt := by show 0 < n; omega
  wrEq := by simp [idle, State.reset]
  cntLe := Nat.zero_le _
  totals := rfl
  wf := rfl
  inside := fun a ha => absurd rfl ha
  written := fun j hj => absurd hj (Nat.not_lt_zero j)

theorem fifoInv_holding {bs : List Byte} {n : Nat} {p : Params} (h2 : 2 ≤ n) (hn : n ≤ p.capmax) (hb : bs.length ≤ n) :
    FifoInv (holding bs (idle n p)) :=
  (fifoInv_idle n p h2 hn).putAll bs (by simpa [idle, State.reset] using hb)

theorem held_holding {bs : List Byte} {n : Nat} {p : Params} (h2 : 2 ≤ n) (hb : bs.length ≤ n) :
    held (holding bs (idle n p)) = bs := by
  have h := held_putAll bs (idle n p) (by show 0 < n; omega) (by simp [idle, State.reset]) (by simpa [idle, State.reset] using hb)
  simpa [holding, held, idle, State.reset] using h

/-- The invariant of a run for a state that holds `bs` and is otherwise described by its other parts. -/
theorem inv_of {bs : List Byte} {n : Nat} {p : Params} (s : State) (h2 : 2 ≤ n) (hn : n ≤ p.capmax) (hb : bs.length ≤ n)
    (hf : { s with phase := .awaitLength, dstate := .none, dreq := none, dpay := [], unit := .one, rem := 0, acc := 0, k := 0,
                   tbusy := false, hidx := 0, issuer := State.reset.issuer } = holding bs (idle n p))
    (hfr : owed s ≤ bs.length ∧ wholeUnits (bs.drop (owed s))) (he : EncoderInv s) (hl : LatchInv s) (ht : TransferInv s) :
    Inv s := by
  have hF := fifoInv_holding (p := p) h2 hn hb
  have hh : held s = bs := by
    rw [← held_holding (p := p) h2 hb, ← hf]
    rfl
  rw [← hf] at hF
  have hs : s.chBusy = (holding bs (idle n p)).chBusy ∧ s.wire = (holding bs (idle n p)).wire ∧
      s.hostrx = (holding bs (idle n p)).hostrx ∧ s.grant = (holding bs (idle n p)).grant ∧
      s.cwait = (holding bs (idle n p)).cwait := by
    rw [← hf]
    exact ⟨rfl, rfl, rfl, rfl, rfl⟩
  refine ⟨fun _ => hF.congr rfl rfl rfl rfl rfl rfl rfl rfl, fun _ => ⟨?_, ?_⟩, fun _ => he, fun _ => hl, fun _ => ht,
    fun _ hc => ?_, fun _ => ⟨[], by simp, ?_⟩, fun _ => ?_⟩
  · rw [← held_length, hh]
    exact hfr.1
  · rw [hh]
    exact hfr.2
  · rw [hs.2.2.2.2] at hc
    simp [holding, idle, State.reset] at hc
  · rw [hs.1, hs.2.1, hs.2.2.1]
    simp [holding, idle, State.reset]
  · rw [hs.2.2.2.1]
    simp [holding, idle, State.reset]

/-- At a message boundary: whole units held. -/
theorem inv_boundary {bs : List Byte} {n : Nat} {p : Params} (h2 : 2 ≤ n) (hn : n ≤ p.capmax) (hb : bs.length ≤ n)
    (hw : wholeUnits bs) : Inv (holding bs (idle n p)) := by
  refine inv_of (p := p) _ h2 hn hb ?_ ⟨?_, ?_⟩ ?_ ?_ ?_
  · have h : ∀ t : State, t.phase = .awaitLength → t.dstate = .none → t.dreq = none → t.dpay = [] → t.unit = .one → t.rem = 0 →
        t.acc = 0 → t.k = 0 → t.tbusy = false → t.hidx = 0 → t.issuer = State.reset.issuer →
        { t with phase := .awaitLength, dstate := .none, dreq := none, dpay := [], unit := .one, rem := 0, acc := 0, k := 0,
                 tbusy := false, hidx := 0, issuer := State.reset.issuer } = t := by
      intro t
      cases t
      simp only
      rintro rfl rfl rfl rfl rfl rfl rfl rfl rfl rfl rfl
      rfl
    apply h <;> simp [holding, idle, State.reset]
  · simp [owed, holding, idle, State.reset]
  · simpa [owed, holding, idle, State.reset] using hw
  · simp [EncoderInv, holding, idle, State.reset, UnitSize.perWord]
  · simp [LatchInv, holding, idle, State.reset]
  · simp [TransferInv, holding, idle, State.reset]

theorem whole_frame (l : List Byte) (h1 : 1 ≤ l.length) (h2 : l.length ≤ 255) : wholeUnits (BitVec.ofNat 8 l.length :: l) :=
  wholeUnits_unit (u := .frame l) ⟨h1, h2⟩

theorem whole_char (c : Byte) : wholeUnits [0, c] := wholeUnits_unit (u := .char c) trivial

/-- The marker is taken, its character is held. -/
theorem inv_streamChar : Inv { holding [0x0A] (idle 8) with phase := .streamChar } :=
  inv_of (bs := [0x0A]) (n := 8) (p := legacy) _ (by decide) (by decide) (by decide) (by decide)
    ⟨by decide, wholeUnits_nil⟩ (by simp [EncoderInv, holding, idle, State.reset, UnitSize.perWord])
    (by simp [LatchInv, holding, idle, State.reset]) (by simp [TransferInv, holding, idle, State.reset])

/-- Inside a frame: two bytes to come, or the last one. -/
theorem inv_frame_two : Inv (inFrame 2 (holding [0x48, 0x69] (idle 8))) :=
  inv_of (bs := [0x48, 0x69]) (n := 8) (p := legacy) _ (by decide) (by decide) (by decide) (by decide)
    ⟨by decide, wholeUnits_nil⟩ (by simp [EncoderInv, inFrame, holding, idle, State.reset, UnitSize.perWord])
    (by simp [LatchInv, inFrame, holding, idle, State.reset]) (by simp [TransferInv, inFrame, holding, idle, State.reset])

theorem inv_frame_last : Inv { inFrame 1 (holding [0x69] (idle 8)) with acc := 0x48000000, k := 1 } :=
  inv_of (bs := [0x69]) (n := 8) (p := legacy) _ (by decide) (by decide) (by decide) (by decide)
    ⟨by decide, wholeUnits_nil⟩ (by simp [EncoderInv, inFrame, holding, idle, State.reset, UnitSize.perWord])
    (by simp [LatchInv, inFrame, holding, idle, State.reset]) (by simp [TransferInv, inFrame, holding, idle, State.reset])

/-- Inside a direct body. -/
theorem inv_direct : Inv (inDirect .two [0x1111, 0x2222] (idle 8)) :=
  inv_of (bs := []) (n := 8) (p := legacy) _ (by decide) (by decide) (by decide) (by decide)
    ⟨by decide, wholeUnits_nil⟩ (by simp [EncoderInv, inDirect, idle, State.reset, UnitSize.perWord])
    (by simp [LatchInv, inDirect, idle, State.reset]) (by simp [TransferInv, inDirect, idle, State.reset])

/-- A direct command pending. -/
theorem inv_pending (cmd : DirectCmd) (h : cmdOk cmd) : Inv (pendingCmd cmd (idle 8)) := by
  refine inv_of (bs := []) (n := 8) (p := legacy) _ (by decide) (by decide) (by decide) ?_ ⟨?_, ?_⟩ ?_ ⟨cmd, rfl, h, rfl⟩ ?_
  · rfl
  · exact Nat.le_refl 0
  · exact wholeUnits_nil
  · simp [EncoderInv, pendingCmd, idle, State.reset, UnitSize.perWord]
  · simp [TransferInv, pendingCmd, idle, State.reset]

/-- The sequencer suspended, nothing held, nothing scheduled; and the same with a value the host has not taken. -/
def quiet : State := { idle 8 with cwait := true }

def untaken : State := { quiet with chBusy := true, chData := 5, wire := [5] }

theorem inv_quiet : Inv quiet := by
  have h := inv_boundary (bs := []) (n := 8) (p := legacy) (by decide) (by decide) (by decide) wholeUnits_nil
  exact ⟨fun _ => (h.fifo rfl).congr rfl rfl rfl rfl rfl rfl rfl rfl, fun _ => (h.frames rfl).congr rfl rfl rfl rfl rfl,
    fun _ => h.encoder rfl, fun _ => h.latch rfl, fun _ => h.transfer rfl, fun _ _ => ⟨rfl, rfl, rfl⟩, fun _ => h.channel rfl,
    fun _ => rfl⟩

theorem inv_untaken : Inv untaken := by
  have h := inv_quiet
  exact ⟨fun _ => (h.fifo rfl).congr rfl rfl rfl rfl rfl rfl rfl rfl, fun _ => (h.frames rfl).congr rfl rfl rfl rfl rfl,
    fun _ => h.encoder rfl, fun _ => h.latch rfl, fun _ => h.transfer rfl, fun _ _ => ⟨rfl, rfl, rfl⟩,
    fun _ => ⟨[], by decide, rfl⟩, fun _ => rfl⟩

theorem ended_quiet : ended true quiet := by
  intro t hp _
  cases t with
  | command tr => cases hp tr rfl
  | sequencer _ => rfl
  | controller => rfl
  | client => rfl
  | host => rfl
  | tick => rfl

theorem ended_untaken : ended false untaken := by
  intro t hp hh
  cases t with
  | command tr => cases hp tr rfl
  | sequencer _ => rfl
  | controller => rfl
  | client => rfl
  | host => cases hh rfl
  | tick => rfl

/-! ### Witnesses: for every obligation with hypotheses, a state and operands that meet them, clause by clause -/

theorem witness_EveryInstructionDecodesBack :
    (Instr.qfFrame 1).encodable = true ∧ (Instr.qfFrame 255).encodable = true ∧ (Instr.hdrAscii 65535).encodable = true := by decide

theorem witness_CommandWordHasOneReading : decodeCommand 0xFFFF0005 (.bytes []) = .ok (.putb 65535 (.bytes [])) := by decide

theorem witness_MessageDecodesBack :
    Message.ok (.body .hex2 [0, 0xFFFF, 1]) = true ∧ Message.ok (.body .ascii []) = true ∧
    Message.ok (.body .hex4 (List.replicate 65535 0xFFFFFFFF)) = true := by
  refine ⟨by decide, by decide, ?_⟩
  rw [Message.ok, List.length_replicate, List.all_replicate]
  rfl

theorem witness_EncoderPacksAsClosedForm :
    (∀ e ∈ ([0, 0xFF, 1, 2, 3] : List Word), e.toNat < 2 ^ (8 * UnitSize.one.bytes)) ∧
    (∀ e ∈ ([0xFFFFFFFF] : List Word), e.toNat < 2 ^ (8 * UnitSize.four.bytes)) := by simp [UnitSize.bytes]

theorem witness_BodyUnitsStandLittleEndian :
    (2 < ([0xFFFF, 0, 1] : List Word).length) ∧
    (∀ e ∈ ([0xFFFF, 0, 1] : List Word), e.toNat < 2 ^ (8 * UnitSize.two.bytes)) := by simp [UnitSize.bytes]

theorem producer_idle (n : Nat) (bs : List Byte) : byProducer 1 (holding bs (idle n)) := by
  simp [byProducer, holding, idle, State.reset]

theorem witness_FreeReturnsFreeSpace :
    (byProducer 1 (idle 8) ∧ (idle 8).cnt ≤ (idle 8).cap) ∧
    byProducer 1 (holding [1, 0x61] (idle 2)) ∧ (holding [1, 0x61] (idle 2)).cnt ≤ (holding [1, 0x61] (idle 2)).cap :=
  ⟨⟨producer_idle 8 [], by decide⟩, producer_idle 2 _, by decide⟩

theorem witness_EnqfIsAllOrNothing :
    byProducer 1 (holding [2, 0x61, 0x62] (idle 4)) ∧ byProducer 1 (idle 4) ∧ FifoInv (idle 4) ∧
    ¬ (1 ≤ (0 : Half).toNat ∧ (0 : Half).toNat ≤ 255) ∧ ¬ (1 ≤ (256 : Half).toNat ∧ (256 : Half).toNat ≤ 255) ∧
    (¬ ∃ l, Payload.bytes [0x61] = .bytes l ∧ l.length = (255 : Half).toNat) ∧
    (holding [2, 0x61, 0x62] (idle 4)).cap < (1 : Half).toNat + 1 + (holding [2, 0x61, 0x62] (idle 4)).cnt ∧
    (3 : Half).toNat + 1 + (idle 4).cnt ≤ (idle 4).cap ∧ ([1, 2, 3] : List Byte).length = (3 : Half).toNat := by
  refine ⟨producer_idle 4 _, producer_idle 4 [], fifoInv_idle 4 legacy (by decide) (by decide), by decide, by decide, ?_,
    by decide, by decide, by decide⟩
  rintro ⟨l, h, h'⟩
  cases h
  exact absurd h' (by decide)

/-- One byte free is too few for two, two bytes free are enough: ENQC, PUTC and PUTB's separator. -/
theorem witness_EnqcIsAllOrNothing :
    byProducer 1 (holding [2, 0x61, 0x62] (idle 4)) ∧
    (holding [2, 0x61, 0x62] (idle 4)).cap < 2 + (holding [2, 0x61, 0x62] (idle 4)).cnt ∧
    byProducer 1 (holding [0, 0x62] (idle 4)) ∧ 2 + (holding [0, 0x62] (idle 4)).cnt ≤ (holding [0, 0x62] (idle 4)).cap ∧
    FifoInv (holding [0, 0x62] (idle 4)) :=
  ⟨producer_idle 4 _, by decide, producer_idle 4 _, by decide, fifoInv_holding (by decide) (by decide) (by decide)⟩

theorem witness_PutcReturnsCharacterOrFailure :
    byProducer 1 (holding [1, 0x61] (idle 3)) ∧ (holding [1, 0x61] (idle 3)).cap < 2 + (holding [1, 0x61] (idle 3)).cnt ∧
    byProducer 1 (idle 2) ∧ 2 + (idle 2).cnt ≤ (idle 2).cap ∧ FifoInv (idle 2) ∧ State.reset.inited = false :=
  ⟨producer_idle 3 _, by decide, producer_idle 2 [], by decide, fifoInv_idle 2 legacy (by decide) (by decide), rfl⟩

/-- Free space 2, 1 and 0 at entry, and a payload that is too short. -/
theorem witness_PutbTruncatesOrDrops :
    (byProducer 1 (idle 2) ∧ FifoInv (idle 2) ∧ ([7, 8] : List Byte).length = (2 : Half).toNat ∧
      (1 : Int) = min (min ((2 : Half).toNat : Int) (2 - 1)) 255 ∧ ((idle 2).cap : Int) - ((idle 2).cnt : Int) = 2) ∧
    (byProducer 1 (holding [1, 0x61] (idle 3)) ∧
      ((holding [1, 0x61] (idle 3)).cap : Int) - ((holding [1, 0x61] (idle 3)).cnt : Int) = 1 ∧
      (0 : Int) = min (min ((1 : Half).toNat : Int) (1 - 1)) 255) ∧
    (byProducer 1 (holding [1, 0x61] (idle 2)) ∧
      ((holding [1, 0x61] (idle 2)).cap : Int) - ((holding [1, 0x61] (idle 2)).cnt : Int) = 0 ∧
      (-1 : Int) = min (min ((1 : Half).toNat : Int) (0 - 1)) 255) ∧
    (¬ ∃ l, Payload.bytes [0x61, 0x62] = .bytes l ∧ l.length = (3 : Half).toNat) ∧
    ¬ ((3 : Half).toNat = 0 ∧ (Payload.bytes [0x61, 0x62]).units = []) ∧
    (Payload.halves []).units = [] ∧ (Payload.words []).units = [] ∧
    (∃ f, byProducer 1 (idle 2) ∧ (0 : Half).toNat = 0 ∧ f = ((idle 2).cap : Int) - ((idle 2).cnt : Int) ∧ 2 ≤ f) ∧
    State.reset.inited = false := by
  refine ⟨⟨producer_idle 2 [], fifoInv_idle 2 legacy (by decide) (by decide), by decide, by decide, by decide⟩,
    ⟨producer_idle 3 _, by decide, by decide⟩, ⟨producer_idle 2 _, by decide, by decide⟩, ?_, by decide, rfl, rfl,
    ⟨2, producer_idle 2 [], rfl, by decide, by decide⟩, rfl⟩
  rintro ⟨l, h, h'⟩
  cases h
  exact absurd h' (by decide)

theorem witness_PutbResultIsBounded :
    byProducer 1 (idle 8) ∧ FifoInv (idle 8) ∧ ([] : List Byte).length = (0 : Half).toNat ∧
    (List.replicate 65535 (0 : Byte)).length = (65535 : Half).toNat :=
  ⟨producer_idle 8 [], fifoInv_idle 8 legacy (by decide) (by decide), rfl, List.length_replicate⟩

theorem witness_ProducerCommandsNeverWait :
    byProducer 1 (holding [1, 0x61] (idle 2)) ∧ FifoInv (holding [1, 0x61] (idle 2)) ∧
    (Instr.enqf 2 (.bytes [1, 2])).wellFormed = true ∧ (Instr.putb 0 (.bytes [])).wellFormed = true ∧ Instr.free.wellFormed = true ∧
    (Instr.enqc 0).wellFormed = true ∧ (Instr.putc 0).wellFormed = true :=
  ⟨producer_idle 2 _, fifoInv_holding (by decide) (by decide) (by decide), by decide, by decide, by decide, by decide, by decide⟩

theorem witness_DroppedCommandsChangeOnlyTheResult :
    byProducer 1 (holding [1, 0x61] (idle 2)) ∧ FifoInv (holding [1, 0x61] (idle 2)) ∧
    conditionCode (.enqf 1 (.bytes [7])) (holding [1, 0x61] (idle 2)) = .qfDrop ∧
    conditionCode (.enqc 7) (holding [1, 0x61] (idle 2)) = .qfDrop ∧
    conditionCode (.putc 7) (holding [1, 0x61] (idle 2)) = .qfDrop ∧
    conditionCode (.putb 0 (.bytes [])) (holding [1, 0x61] (idle 2)) = .qfDrop ∧
    conditionCode (.putb 1 (.bytes [7])) (holding [1, 0x61] (idle 2)) = .qfDrop ∧
    byProducer 1 (idle 5) ∧ FifoInv (idle 5) ∧ conditionCode (.putb 5 (.bytes [1, 2, 3, 4, 5])) (idle 5) = .qfTrunc :=
  ⟨producer_idle 2 _, fifoInv_holding (by decide) (by decide) (by decide), by decide, by decide, by decide, by decide, by decide,
    producer_idle 5 [], fifoInv_idle 5 legacy (by decide) (by decide), by decide⟩

theorem witness_DeqTakesTheOldestByte :
    (bySequencer (asSequencer (holding [1, 0x61] (idle 2))) ∧ FifoInv (asSequencer (holding [1, 0x61] (idle 2))) ∧
      0 < (asSequencer (holding [1, 0x61] (idle 2))).cnt) ∧
    bySequencer (asSequencer (idle 2)) ∧ FifoInv (asSequencer (idle 2)) ∧ (asSequencer (idle 2)).cnt = 0 :=
  ⟨⟨⟨by decide, rfl⟩, (fifoInv_holding (bs := [1, 0x61]) (n := 2) (p := legacy) (by decide) (by decide) (by decide)).congr
      rfl rfl rfl rfl rfl rfl rfl rfl, by decide⟩, ⟨rfl, rfl⟩,
    (fifoInv_idle 2 legacy (by decide) (by decide)).congr rfl rfl rfl rfl rfl rfl rfl rfl, rfl⟩

theorem witness_ResponsesAreKeptPerAgent : (2 : Nat) ≠ 1 := by decide

theorem witness_StorageReadsBackWhatWasWritten :
    Memory.wf [(0, 1), (4, 2)] = true ∧ (∀ a, Memory.read [(0, 1)] a = Memory.read (Memory.write [] 0 1) a) :=
  ⟨by decide, fun _ => rfl⟩

theorem witness_OnlyInitBeforeInit : State.reset.inited = false ∧ (∀ n, Instr.putc 0 ≠ .init n) := ⟨rfl, fun n h => by cases h⟩

theorem witness_ReservedOpcodesAreRefused : (idle 8).inited = true := rfl

theorem witness_InterruptHandlersAreRefused :
    ({ idle 8 with issuer := ⟨.interruptHandler 3, some .producer⟩ } : State).issuer.agent = .interruptHandler 3 ∧
    ({ idle 8 with issuer := ⟨.interruptHandler 3, some .producer⟩ } : State).inited = true := ⟨rfl, rfl⟩

theorem witness_WrongAgentsAreRefused :
    (idle 8).inited = true ∧ (idle 8).issuer ≠ ⟨.sequencer, none⟩ ∧ (∀ k, (idle 8).issuer.agent ≠ .interruptHandler k) ∧
    (idle 8).issuer.port = some .producer ∧ (asClient (idle 8)).issuer.port = some .direct ∧
    (∀ k, (asClient (idle 8)).issuer.agent ≠ .interruptHandler k) :=
  ⟨rfl, by decide, (fun k => nofun), rfl, rfl, (fun k => nofun)⟩

/-- Each clause: an ordinary word and INIT's before and after INIT, a direct word with the latch empty and full. -/
theorem witness_IllegalWordsAreRefused :
    (idle 8).inited = true ∧ (idle 8).grant = none ∧ agentExists (idle 8) (.producer 1) = true ∧
    State.reset.inited = false ∧ State.reset.grant = none ∧ agentExists State.reset (.producer 1) = true ∧
    permitted (opClass 1) ⟨.producer 1, some .producer⟩ = true ∧
    decodeCommand 0x00000011 (.bytes []) = .error (.mustBeZero 1) ∧
    permitted (opClass 15) ⟨.producer 1, some .producer⟩ = true ∧
    decodeCommand 0x0008001F (.bytes []) = .error (.mustBeZero 15) ∧ agentExists (idle 8) .client = true ∧
    permitted (opClass 13) ⟨.client, some .direct⟩ = true ∧
    decodeCommand 0x00015A0D (.bytes []) = .error (.mustBeZero 13) ∧ (idle 8).dstate = .none ∧
    (pendingCmd (.char 7) (idle 8)).inited = true ∧ (pendingCmd (.char 7) (idle 8)).grant = none ∧
    agentExists (pendingCmd (.char 7) (idle 8)) .client = true ∧ (pendingCmd (.char 7) (idle 8)).dstate ≠ .none := by decide

theorem witness_RefusedRunHasNoFurtherMeaning :
    (let s := { idle 8 with mark := some .wrongAgent }
     s.mark = some .wrongAgent ∧ markOf (exec (.enqf 0 (.bytes [])) s) = some (some .wrongAgent)) := by decide

/-- ENQF answers a next state for each reason and for none. -/
theorem witness_RefusalsComeInTheirOrder :
    (idle 8).mark = none ∧ markOf (exec (.enqf 0 (.bytes [7])) State.reset) = some (some .notInitialised) ∧
    markOf (exec (.enqf 0 (.bytes [7])) { idle 8 with issuer := ⟨.interruptHandler 0, some .direct⟩ }) =
      some (some .interruptContext) ∧
    markOf (exec (.enqf 0 (.bytes [7])) (asClient (idle 8))) = some (some .wrongAgent) ∧
    markOf (exec (.enqf 0 (.bytes [7])) (idle 8)) = some (some .operandRange) ∧
    markOf (exec (.enqf 256 (.bytes [7])) (idle 8)) = some (some .operandRange) ∧
    markOf (exec (.enqf 2 (.bytes [7])) (idle 8)) = some (some .payloadLength) ∧
    markOf (exec (.enqf 1 (.bytes [7])) (idle 8)) = some none := by decide

theorem witness_InitSetsTheTable :
    (idle 8).issuer = ⟨.producer 1, some .producer⟩ ∧ (idle 8).inited = true ∧
    State.reset.issuer = ⟨.producer 1, some .producer⟩ ∧ State.reset.inited = false ∧
    (1 : Half).toNat < 2 ∧ ({ State.reset with params := { legacy with capmax := 8 } } : State).params.capmax < (9 : Half).toNat ∧
    2 ≤ (2 : Half).toNat ∧ (65535 : Half).toNat ≤ State.reset.params.capmax := by decide

theorem witness_InitForgetsPowerOnValues :
    State.reset.inited = false ∧ ({ State.reset with cnt := 5, tbusy := true } : State).inited = false ∧
    ({ State.reset with cnt := 5, tbusy := true } : State).issuer = State.reset.issuer ∧
    State.reset.issuer = ⟨.producer 1, some .producer⟩ ∧ 2 ≤ (2 : Half).toNat ∧
    (65535 : Half).toNat ≤ State.reset.params.capmax := by decide

theorem witness_DirectCommandsAreLatched :
    byClient (asClient (idle 8)) ∧ (asClient (idle 8)).dstate = .none ∧ ([] : List Byte).length = (0 : Half).toNat ∧
    ([1, 2, 3] : List Half).length = (3 : Half).toNat ∧ (List.replicate 65535 (0 : Word)).length = (65535 : Half).toNat ∧
    (¬ ∃ l, Payload.halves [1] = .bytes l ∧ l.length = (1 : Half).toNat) ∧
    (¬ ∃ l, Payload.bytes [1] = .halves l ∧ l.length = (1 : Half).toNat) ∧
    (¬ ∃ l, Payload.bytes [1] = .words l ∧ l.length = (1 : Half).toNat) ∧
    ¬ ((1 : Half).toNat = 0 ∧ (Payload.bytes [1]).units = []) ∧ (Payload.bytes []).units = [] ∧ (Payload.halves []).units = [] :=
  ⟨⟨rfl, rfl⟩, rfl, rfl, rfl, List.length_replicate, by simp, by simp, by simp, by simp, rfl, rfl⟩

theorem witness_FullLatchHoldsTheClient :
    byClient (asClient (pendingCmd (.char 7) (idle 8))) ∧ (asClient (pendingCmd (.char 7) (idle 8))).dstate ≠ .none ∧
    (pendingCmd (.char 7) (idle 8)).inited = true ∧ (pendingCmd (.char 7) (idle 8)).dstate ≠ .done ∧
    ({ idle 8 with dreq := some (.char 7), dstate := .done } : State).dstate = .done :=
  ⟨⟨rfl, rfl⟩, by decide, rfl, by decide, rfl⟩

theorem witness_HeaderStepIssuesTheHeader :
    bySequencer (asSequencer (idle 8)) ∧ (asSequencer (idle 8)).tbusy = false := ⟨⟨rfl, rfl⟩, rfl⟩

theorem witness_SendwordStartsTheTransfer :
    bySequencer (asSequencer (idle 8)) ∧ (asSequencer (idle 8)).tbusy = false ∧
    bySequencer (asSequencer { idle 8 with tbusy := true }) ∧ (asSequencer { idle 8 with tbusy := true }).tbusy = true :=
  ⟨⟨rfl, rfl⟩, rfl, ⟨rfl, rfl⟩, rfl⟩

/-- A unit that fills the word, one that does not, the last one, and none left. -/
theorem witness_DirectUnitStepPacksAndFinishes :
    (let s := { inDirect .two [0x1111, 0x2222] (idle 8) with k := 1 }
     s.inited = true ∧ s.phase = .direct ∧ s.tbusy = false ∧ 0 < s.rem ∧ s.dpay = [0x1111, 0x2222] ∧ s.k + 1 = 4 / s.unit.bytes) ∧
    (let s := inDirect .one [1, 2] (idle 8)
     s.inited = true ∧ s.phase = .direct ∧ s.tbusy = false ∧ 0 < s.rem ∧ s.dpay = [1, 2] ∧ s.k + 1 ≠ 4 / s.unit.bytes ∧ s.rem ≠ 1) ∧
    (inDirect .one [1] (idle 8)).rem = 1 ∧
    (let s := inDirect .one [] (idle 8)
     s.inited = true ∧ s.phase = .direct ∧ s.tbusy = false ∧ s.rem = 0) := by decide

/-- A byte that stays, the last byte; and the fourth byte of a word. -/
theorem witness_FrameBodyStepPacks :
    (let s := inFrame 2 (holding [0x48, 0x69] (idle 8))
     Inv s ∧ s.inited = true ∧ s.phase = .streamFrame ∧ s.tbusy = false ∧ s.k + 1 ≠ 4 ∧ s.rem ≠ 1) ∧
    (let s := { inFrame 1 (holding [0x69] (idle 8)) with acc := 0x48000000, k := 1 }
     Inv s ∧ s.inited = true ∧ s.phase = .streamFrame ∧ s.tbusy = false ∧ s.rem = 1) ∧
    ({ inFrame 2 (holding [0x48, 0x69] (idle 8)) with k := 3 } : State).k + 1 = 4 :=
  ⟨⟨inv_frame_two, by decide, rfl, by decide, by decide, by decide⟩, ⟨inv_frame_last, by decide, rfl, by decide, rfl⟩, rfl⟩

theorem witness_BodyWordsAreConserved :
    (let s := inFrame 2 (holding [0x48, 0x69] (idle 8))
     Inv s ∧ s.inited = true ∧ s.tbusy = false ∧ 0 < s.rem ∧ s.phase = .streamFrame) ∧
    (let s := inDirect .two [0x1111, 0x2222] (idle 8)
     Inv s ∧ s.inited = true ∧ s.tbusy = false ∧ 0 < s.rem ∧ s.phase = .direct) :=
  ⟨⟨inv_frame_two, by decide, by decide, by decide, rfl⟩, ⟨inv_direct, by decide, by decide, by decide, rfl⟩⟩

/-- Each kind of direct command, the body with no unit and with an odd number of them. -/
theorem witness_DirectMessageIsIssuedWhole :
    Inv (pendingCmd (.trace 0xFFFFFF) (idle 8)) ∧ Inv (pendingCmd (.char 0) (idle 8)) ∧
    Inv (pendingCmd (.body .ascii 0 []) (idle 8)) ∧ Inv (pendingCmd (.body .hex1 1 [0xFF]) (idle 8)) ∧
    Inv (pendingCmd (.body .hex2 3 [1, 0xFFFF, 2]) (idle 8)) ∧ Inv (pendingCmd (.body .hex4 1 [0xFFFFFFFF]) (idle 8)) ∧
    (let s := pendingCmd (.body .hex2 3 [1, 0xFFFF, 2]) (idle 8)
     s.inited = true ∧ s.tbusy = false ∧ s.phase = .awaitLength ∧ s.dstate = .pending ∧
       s.dreq = some (.body .hex2 3 [1, 0xFFFF, 2])) :=
  ⟨inv_pending _ trivial, inv_pending _ trivial, inv_pending _ ⟨rfl, by decide⟩, inv_pending _ ⟨rfl, by decide⟩,
    inv_pending _ ⟨rfl, by decide⟩, inv_pending _ ⟨rfl, by decide⟩, by decide⟩

theorem witness_FrameFormStartsAsciiText :
    bySequencer (asSequencer (holding [2, 0x48, 0x69] (idle 8))) ∧
    FifoInv (asSequencer (holding [2, 0x48, 0x69] (idle 8))) ∧
    (let s := asSequencer (holding [2, 0x48, 0x69] (idle 8)); s.phase = .awaitLength ∧ s.tbusy = false ∧ 0 < s.cnt) ∧
    (1 : Byte) ≠ 0 ∧ (255 : Byte) ≠ 0 :=
  ⟨⟨by decide, rfl⟩, (fifoInv_holding (bs := [2, 0x48, 0x69]) (n := 8) (p := legacy) (by decide) (by decide) (by decide)).congr
    rfl rfl rfl rfl rfl rfl rfl rfl, by decide, by decide, by decide⟩

theorem witness_CharFormTakesMarkerThenCharacter :
    (let s : State := { holding [0x0A] (idle 8) with phase := .streamChar }
     Inv s ∧ s.inited = true ∧ s.phase = .streamChar) ∧
    bySequencer (asSequencer (holding [0, 0x0A] (idle 8))) ∧ FifoInv (asSequencer (holding [0, 0x0A] (idle 8))) ∧
    (let s := asSequencer (holding [0, 0x0A] (idle 8))
     s.tbusy = false ∧ 0 < s.cnt ∧ s.phase = .awaitLength ∧ s.params.emptyAsciiBeforeChar = false) ∧
    ({ legacy with emptyAsciiBeforeChar := true } : Params).emptyAsciiBeforeChar = true :=
  ⟨⟨inv_streamChar, by decide, rfl⟩, ⟨by decide, rfl⟩,
    (fifoInv_holding (bs := [0, 0x0A]) (n := 8) (p := legacy) (by decide) (by decide) (by decide)).congr
      rfl rfl rfl rfl rfl rfl rfl rfl, by decide, rfl⟩

/-- A frame of one byte with a raw character behind it, and one of 255 bytes. -/
theorem witness_FrameIsSentAsItsMessage :
    (let s := holding [1, 0x78, 0, 0x79] (idle 8)
     Inv s ∧ s.inited = true ∧ s.tbusy = false ∧ s.phase = .awaitLength ∧ held s = 1 :: ([0x78] ++ [0, 0x79])) ∧
    (let l : List Byte := List.replicate 255 0x41
     let s := holding (BitVec.ofNat 8 l.length :: l) (idle 256)
     Inv s ∧ l.length = 255 ∧ held s = BitVec.ofNat 8 l.length :: (l ++ [])) := by
  have hl : (List.replicate 255 (0x41 : Byte)).length = 255 := List.length_replicate
  generalize List.replicate 255 (0x41 : Byte) = l at hl
  have hb : (BitVec.ofNat 8 l.length :: l).length ≤ 256 := by rw [List.length_cons, hl]
  refine ⟨⟨inv_boundary (by decide) (by decide) (by decide) ?_, by decide, by decide, by decide, by decide⟩, ?_, hl, ?_⟩
  · exact wholeUnits_append (whole_frame [0x78] (by decide) (by decide)) (whole_char 0x79)
  · exact inv_boundary (by decide) (by decide) hb (whole_frame l (by omega) (by omega))
  · rw [List.append_nil]
    exact held_holding (by decide) hb

theorem witness_CharacterIsSentAsSingleChar :
    (let s := holding [0, 0] (idle 2)
     Inv s ∧ s.inited = true ∧ s.tbusy = false ∧ s.phase = .awaitLength ∧ s.params.emptyAsciiBeforeChar = false ∧
       held s = 0 :: 0 :: []) :=
  ⟨inv_boundary (by decide) (by decide) (by decide) (whole_char 0), by decide, by decide, by decide, by decide, by decide⟩

theorem witness_BoundaryChoiceIsOpen :
    (let s := pendingCmd (.char 0x42) (holding [0, 0x41] (idle 8))
     FifoInv s ∧ s.inited = true ∧ s.tbusy = false ∧ s.phase = .awaitLength ∧ s.dstate = .pending ∧
       s.dreq = some (.char 0x42) ∧ decodeFifo (held s) = .ok (.qfChar 0x41, [])) :=
  ⟨(fifoInv_holding (bs := [0, 0x41]) (n := 8) (p := legacy) (by decide) (by decide) (by decide)).congr
    rfl rfl rfl rfl rfl rfl rfl rfl, by decide, by decide, by decide, rfl, rfl, by decide⟩

/-- A transfer in progress: LEGACY, and MODERN before its last byte. -/
theorem witness_SequencerWaitsForTheTransfer :
    (let s := { idle 8 with tbusy := true }
     s.inited = true ∧ s.tbusy = true ∧ s.chBusy = false ∧ s.params.variant = .legacy) ∧
    (let s := { idle 8 Params.default with tbusy := true, hidx := 3 }
     s.inited = true ∧ s.tbusy = true ∧ s.chBusy = false ∧ s.hidx = 3) := by decide

theorem witness_SequencerSuspendsOnEmptyFifo :
    (let s := idle 2
     s.inited = true ∧ s.tbusy = false ∧ s.phase = .awaitLength ∧ s.cnt = 0 ∧ s.dstate ≠ .pending ∧ s.cwait = false) ∧
    (quiet.cwait = true ∧ byProducer 1 quiet ∧ FifoInv quiet ∧ quiet.tbusy = false ∧ quiet.phase = .awaitLength ∧ quiet.cnt = 0) ∧
    field (fun t => (decide (t.cnt ≠ quiet.cnt), t.cwait)) (exec (.putc 0x41) quiet) = some (true, false) ∧
    field (fun t => (decide (t.cnt ≠ quiet.cnt), t.cwait)) (exec (.enqf 9 (.bytes [1, 2, 3, 4, 5, 6, 7, 8, 9])) quiet) =
      some (false, true) :=
  ⟨by decide, ⟨rfl, ⟨rfl, rfl⟩, inv_quiet.fifo rfl, rfl, rfl, rfl⟩, by decide, by decide⟩

theorem witness_SequencerHoldsOnlyOnEmptyOrTransfer :
    (Inv quiet ∧ quiet.inited = true ∧ holds (.sequencer true) quiet) ∧
    (let s := { idle 8 with tbusy := true }
     Inv s ∧ s.inited = true ∧ holds (.sequencer false) s) :=
  ⟨⟨inv_quiet, rfl, rfl⟩,
    inv_of (bs := []) (n := 8) (p := legacy) _ (by decide) (by decide) (by decide) rfl ⟨Nat.le_refl 0, wholeUnits_nil⟩
      (by simp [EncoderInv, idle, State.reset, UnitSize.perWord]) (by simp [LatchInv, idle, State.reset])
      (by simp [TransferInv, idle, State.reset]), rfl, rfl⟩

/-- The first byte of a word and the last; the parameters are legal. -/
theorem witness_ModernHandshakeWritesOneByte :
    (let s := { idle 8 Params.default with tbusy := true, tword := 0x00020001 }
     s.inited = true ∧ s.tbusy = true ∧ s.hidx < 4 ∧ s.chBusy = false ∧ s.params.variant = .modern ∧
       BitVec.setWidth 8 (BitVec.ushiftRight s.tword (8 * s.hidx)) = (1 : Byte) ∧ s.params.legal = true) ∧
    (let s := { idle 8 Params.default with tbusy := true, tword := 0xFF020001, hidx := 3 }
     s.inited = true ∧ s.tbusy = true ∧ s.hidx < 4 ∧ s.chBusy = false ∧ s.params.variant = .modern ∧
       BitVec.setWidth 8 (BitVec.ushiftRight s.tword (8 * s.hidx)) = (255 : Byte)) := by decide

theorem witness_LegacyWriteSendsTheWord :
    (let s := { idle 8 with tbusy := true, tword := 0x00020001 }
     s.inited = true ∧ s.tbusy = true ∧ s.chBusy = false ∧ s.params.variant = .legacy) := by decide

theorem witness_BusyPollChangesOnlyTheTimer :
    (let s := { idle 8 with tbusy := true, chBusy := true }
     s.inited = true ∧ s.tbusy = true ∧ s.chBusy = true) ∧ (idle 8).tbusy = false ∧
    (let s := { idle 8 with tbusy := true, chBusy := true, inbox := [.host] }
     field (·.chBusy) (step s) = some false) := by decide

theorem witness_TierTurnsSlowAtTheThreshold :
    (let s := { idle 8 with tbusy := true, chBusy := true, tticks := 2 }
     s.inited = true ∧ s.tbusy = true ∧ s.chBusy = true ∧ s.params.spinTicks ≤ s.tticks + 1) ∧
    (let s := { idle 8 with tbusy := true, chBusy := true, tticks := 1 }
     ¬ s.params.spinTicks ≤ s.tticks + 1) ∧ (idle 8).tbusy = false ∧ (idle 8).chBusy = false := by decide

theorem witness_HostTakesTheValue :
    (let s := { idle 8 with chBusy := true, chData := 5 }
     s.inited = true ∧ s.chBusy = true) ∧ (idle 8).chBusy = false := by decide

theorem witness_WordCrossesTheChannelWhole :
    (let s := { idle 8 with tbusy := true, tword := 0x00020001 }
     s.inited = true ∧ s.tbusy = true ∧ s.hidx = 0 ∧ s.chBusy = false ∧ s.params.variant = .legacy) ∧
    (let s := { idle 8 Params.default with tbusy := true, tword := 0x00020001 }
     s.inited = true ∧ s.tbusy = true ∧ s.hidx = 0 ∧ s.chBusy = false ∧ s.params.variant = .modern) := by decide

theorem witness_StepTakesTheNextTurn :
    (let s := { idle 8 with inbox := [.host, .tick] }
     s.mark = none ∧ s.inbox = [.host, .tick]) ∧ (idle 8).mark = none ∧ (idle 8).inbox = [] := by decide

theorem witness_StepExecutesThePresentedCommand :
    (let tr : Transaction := ⟨.producer 1, .producer, 0x00004104, .bytes []⟩
     let s := { idle 8 with inbox := [.command tr] }
     s.mark = none ∧ s.grant = none ∧ s.inbox = [.command tr] ∧ agentExists s tr.agent = true ∧
       ¬ (tr.agent = .client ∧ s.inited = true ∧ s.dstate ≠ .none) ∧
       decodeCommand tr.word tr.payload = .ok (.putc 0x41)) ∧
    (let tr : Transaction := ⟨.client, .direct, 0x0000420D, .bytes []⟩
     let s := { pendingCmd (.char 0x41) (idle 8) with inbox := [.command tr] }
     s.mark = none ∧ s.grant = none ∧ s.inbox = [.command tr] ∧ agentExists s tr.agent = true ∧
       tr.agent = .client ∧ s.inited = true ∧ s.dstate ≠ .none) := by decide

theorem witness_StepExecutesTheFifoForm :
    (let s := { holding [2, 0x48, 0x69] (idle 8) with inbox := [.sequencer false] }
     s.mark = none ∧ s.inited = true ∧ s.tbusy = false ∧ FifoInv s ∧ s.phase = .awaitLength ∧ s.inbox = [.sequencer false] ∧
       decodeFifo (held s) = .ok (.qfFrame 2, [0x48, 0x69])) ∧
    (let s := { holding [0x0A] (idle 8) with phase := .streamChar, inbox := [.sequencer true] }
     s.mark = none ∧ s.inited = true ∧ s.tbusy = false ∧ FifoInv s ∧ s.phase = .streamChar ∧ s.inbox = [.sequencer true] ∧
       held s = 0x0A :: []) :=
  ⟨⟨by decide, by decide, by decide, (fifoInv_holding (bs := [2, 0x48, 0x69]) (n := 8) (p := legacy) (by decide) (by decide)
      (by decide)).congr rfl rfl rfl rfl rfl rfl rfl rfl, by decide, rfl, by decide⟩,
    by decide, by decide, by decide, (fifoInv_holding (bs := [0x0A]) (n := 8) (p := legacy) (by decide) (by decide)
      (by decide)).congr rfl rfl rfl rfl rfl rfl rfl rfl, rfl, rfl, by decide⟩

/-- The three invariant statements: a state of a run whose step answers a next state. -/
def running : State := { inFrame 2 (holding [0x48, 0x69] (idle 8)) with inbox := [.sequencer false, .controller] }

theorem inv_running : Inv running := by
  have h := inv_frame_two
  exact ⟨fun _ => (h.fifo (by decide)).congr rfl rfl rfl rfl rfl rfl rfl rfl,
    fun _ => (h.frames (by decide)).congr rfl rfl rfl rfl rfl, fun _ => h.encoder (by decide), fun _ => h.latch (by decide),
    fun _ => h.transfer (by decide), fun _ => h.wait (by decide), fun _ => h.channel (by decide),
    fun _ => h.portIdle (by decide)⟩

theorem witness_StepKeepsTheInvariant : Inv running ∧ field (·.acc) (step running) = some 0x48000000 := ⟨inv_running, by decide⟩

theorem witness_NoStepOfARunFaults : Inv running := inv_running

/-- One byte off the front, a whole unit at the back, nothing. -/
theorem witness_QueueOrderIsKept :
    Inv running ∧ running.inited = true ∧ field held (step running) = some [0x69] ∧
    field held (step { running with inbox := [.command ⟨.producer 1, .producer, 0x00004104, .bytes []⟩] }) =
      some [0x48, 0x69, 0, 0x41] ∧
    field held (step { running with inbox := [.host] }) = some [0x48, 0x69] :=
  ⟨inv_running, by decide, by decide, by decide, by decide⟩

/-- A step of an initialised block, and INIT of one that is not. -/
theorem witness_CapacityAndParametersAreFixed :
    running.inited = true ∧ field (·.cap) (step running) = some 8 ∧ State.reset.inited = false ∧
    field (·.cap) (step { State.reset with inbox := [.command ⟨.producer 1, .producer, 0x0002000F, .bytes []⟩] }) = some 2 := by
  decide

/-- The controller's only write, a MODERN one that is not the last, a take of the host, and a start by the sequencer. -/
theorem witness_ChannelIsWrittenOnlyWhenFree :
    (let s := { idle 8 with tbusy := true, tword := 5, inbox := [.controller] }
     s.inited = true ∧ s.chBusy = false ∧ s.tbusy = true ∧
       field (fun t => (t.wire, t.chData, t.chBusy, t.tbusy)) (step s) = some ([5], 5, true, false)) ∧
    (let s := { idle 8 Params.default with tbusy := true, tword := 5, inbox := [.controller] }
     s.inited = true ∧ s.tbusy = true ∧ field (fun t => (t.tbusy, t.tword, t.hidx)) (step s) = some (true, 5, 1)) ∧
    (let s := { idle 8 with chBusy := true, inbox := [.host] }
     s.inited = true ∧ s.chBusy = true ∧ field (·.chBusy) (step s) = some false) ∧
    (let s := { holding [2, 0x48, 0x69] (idle 8) with inbox := [.sequencer true] }
     s.inited = true ∧ s.tbusy = false ∧ field (·.tbusy) (step s) = some true) := by decide

theorem witness_HostReceivesInOrder :
    (let s := { idle 8 with chBusy := true, chData := 5, wire := [5], inbox := [.host] }
     s.inited = true ∧ s.wire = s.hostrx ++ (if s.chBusy = true then [s.chData] else []) ∧
       field (fun t => (t.wire, t.hostrx)) (step s) = some ([5], [5])) ∧
    (let s := idle 8
     s.wire = s.hostrx ++ (if s.chBusy = true then [s.chData] else [])) ∧
    (let s := { State.reset with inbox := [.command ⟨.producer 1, .producer, 0x0008000F, .bytes []⟩] }
     s.inited = false ∧ field (·.inited) (step s) = some true) := by decide

theorem witness_CleanEndLeavesNothingToDo :
    (hasStep .host quiet = false ∧ hasStep .controller untaken = false) ∧
    (endedCleanly quiet ∧ pendingTurn .host quiet) ∧ (Inv quiet ∧ quiet.inited = true ∧ ended true quiet) ∧
    (Inv untaken ∧ untaken.inited = true ∧ endedStuck untaken) ∧ ((idle 8).inited = true ∧ drained (idle 8)) ∧
    (pendingTurn (.command ⟨.client, .direct, 0, .bytes []⟩)
      { idle 8 with inbox := [.command ⟨.client, .direct, 0, .bytes []⟩] }) :=
  ⟨⟨rfl, rfl⟩, ⟨⟨ended_quiet, rfl, rfl, rfl, rfl, rfl⟩, nofun⟩, ⟨inv_quiet, rfl, ended_quiet⟩,
    ⟨inv_untaken, rfl, ended_untaken, fun h => absurd h.2.2.2.2.2 (by decide)⟩, ⟨rfl, rfl, rfl, rfl, rfl, rfl⟩,
    fun tr h => by simp⟩

end Sys2Proof.Tests
end

section
/-! The turn a step fetches, in each of the two shapes of the inbox, and what a step without a refusal mark is. -/

namespace Sys2Proof.Machine

/-! ### Fetching the turn (60_exceptions.md R217) -/

theorem nextTurn_of_scheduled {s : State} {t : Turn} {rest : List Turn} (h : s.inbox = t :: rest) : nextTurn s = t := by
  simp only [nextTurn, h]

theorem nextTurn_of_unscheduled {s : State} (h : s.inbox = []) : nextTurn s = Config.freeTurn s.draws := by
  simp only [nextTurn, h]

theorem popTurn_of_scheduled {s : State} {t : Turn} {rest : List Turn} (h : s.inbox = t :: rest) :
    popTurn s = { s with inbox := rest } := by
  simp only [popTurn, h]

theorem popTurn_of_unscheduled {s : State} (h : s.inbox = []) : popTurn s = { s with draws := s.draws + 1 } := by
  simp only [popTurn, h]

/-- The converse of `runTurn_of_step`, whatever the outcome (60_exceptions.md R205). -/
theorem step_of_unmarked {s : State} (h : s.mark = none) : step s = runTurn (nextTurn s) (popTurn s) := by
  simp only [step, h]

/-! ### Scheduled and free turns (O50) -/

/-- Settles O50: an unmarked step runs the fetched turn, and the two clauses are the two shapes of the inbox it is
fetched from. -/
theorem stepTakesTheNextTurn : Obligations.StepTakesTheNextTurn := by
  unfold Obligations.StepTakesTheNextTurn
  constructor
  · intro s t rest hmark hinbox
    rw [step_of_unmarked hmark, nextTurn_of_scheduled hinbox, popTurn_of_scheduled hinbox]
  · intro s hmark hinbox
    rw [step_of_unmarked hmark, nextTurn_of_unscheduled hinbox, popTurn_of_unscheduled hinbox]

end Sys2Proof.Machine
end

section
/-! The responses and the FIFO storage as maps: reading another key after a write, and the canonical form as what makes the
reading decide the list. -/

namespace Sys2Proof.Machine

/-! ### Responses kept per producer (O17) -/

/-- Setting producer `i`'s response leaves what is read for any other producer. -/
theorem find_setResp_other (l : List (Nat × Word)) {i j : Nat} (v : Word) (h : j ≠ i) :
    ((setResp l i v).find? (fun e => e.1 == j)).map (·.2) = (l.find? (fun e => e.1 == j)).map (·.2) := by
  have hij : ¬ i = j := fun he => h he.symm
  induction l with
  | nil => simp [setResp, hij]
  | cons e l ih =>
    obtain ⟨k, w⟩ := e
    simp only [setResp]
    split
    · simp [hij]
    · split
      · next hik => subst hik; simp [hij]
      · by_cases hk : k = j
        · simp [hk]
        · simpa [hk] using ih

/-- Settles O17: the response read is the entry last set for that producer, and an entry set for another is not it. -/
theorem responsesAreKeptPerAgent : Obligations.ResponsesAreKeptPerAgent := by
  unfold Obligations.ResponsesAreKeptPerAgent
  intro s i j v
  exact ⟨find_setResp s.resp i v, find_setResp_other s.resp v⟩

/-! ### The storage in canonical form (O18) -/

/-- In canonical form a byte reads at an index exactly if that pair is listed. -/
theorem Memory.read_eq_some_iff {m : Memory} (h : m.wf = true) (a : Nat) (b : Byte) :
    m.read a = some b ↔ (a, b) ∈ m := by
  rw [Memory.wf_iff] at h
  induction m with
  | nil => simp
  | cons e m ih =>
    obtain ⟨a', b'⟩ := e
    obtain ⟨hhead, htail⟩ := List.pairwise_cons.mp h
    by_cases ha : a' = a
    · subst ha
      have hnot : (a', b) ∉ m := fun hm => Nat.lt_irrefl a' (hhead _ hm)
      simp [Memory.read, hnot, eq_comm]
    · simp [Memory.read, ha, Ne.symm ha, ih htail]

/-- Canonical storages that read alike are one list: their pairs are the same, and strictly rising indices leave one order. -/
theorem Memory.eq_of_read_eq {m m' : Memory} (h : m.wf = true) (h' : m'.wf = true)
    (hread : ∀ a, m.read a = m'.read a) : m = m' := by
  have : Std.Irrefl (fun x y : Host.Cell => x.1 < y.1) := ⟨fun x => Nat.lt_irrefl x.1⟩
  have : Std.Antisymm (fun x y : Host.Cell => x.1 < y.1) := ⟨fun _ _ hlt hgt => absurd hlt (Nat.lt_asymm hgt)⟩
  refine ((Memory.wf_iff m).mp h).eq_of_mem_iff ((Memory.wf_iff m').mp h') ?_
  rintro ⟨a, b⟩
  rw [← Memory.read_eq_some_iff h, ← Memory.read_eq_some_iff h', hread]

/-- The byte of an index after a write: the written one, or what the index had, listed or not (log 7). -/
theorem Memory.byteAt_write (m : Memory) (a c : Nat) (b : Byte) :
    (m.write a b).byteAt c = if c = a then b else m.byteAt c := by
  unfold Memory.byteAt
  rw [Memory.read_write]
  split <;> rfl

/-- Settles O18: the reads from `read_write`, the canonical form from `wf_write` and `eq_of_read_eq`, and an index of the
empty storage is an unlisted one. -/
theorem storageReadsBackWhatWasWritten : Obligations.StorageReadsBackWhatWasWritten := by
  unfold Obligations.StorageReadsBackWhatWasWritten
  exact ⟨Memory.read_write, Memory.wf_write, fun _ _ h h' hread => Memory.eq_of_read_eq h h' hread,
    Memory.byteAt_write, fun _ => rfl⟩

end Sys2Proof.Machine
end

section
/-! The invariant at power-on (O53). -/

namespace Sys2Proof.Machine

/-- Before INIT the invariant claims nothing (70_reset_and_hazards.md R232). -/
theorem inv_of_not_initialised {s : State} (h : s.inited = false) : Inv s := by
  constructor <;> intro hi <;> rw [h] at hi <;> cases hi

/-- Settles O53: power-on is not initialised, so the invariant claims nothing of it. -/
theorem powerOnMeetsTheInvariant : Obligations.PowerOnMeetsTheInvariant := by
  unfold Obligations.PowerOnMeetsTheInvariant
  exact ⟨inv_of_not_initialised rfl, rfl, rfl, rfl⟩

end Sys2Proof.Machine
end

section
/-! What a turn of each agent does to INIT's settings: before INIT only an INIT command changes them, after it nothing does. -/

namespace Sys2Proof.Machine

/-! ### Before INIT (60_exceptions.md R206) -/

theorem admitted_before_init {s : State} {c : OpClass} {rangeOk payloadOk : Bool} {f : State → Result}
    (h : s.inited = false) :
    admitted (admission c false rangeOk payloadOk s) f s = .next (marked .notInitialised s) := by
  rw [admission_not_initialised c rangeOk payloadOk h, admitted_some]

/-- Every instruction but INIT passes an admission that is not INIT's. -/
theorem exec_before_init {i : Instr} {s : State} (h : s.inited = false) (hne : ∀ n, i ≠ .init n) :
    exec i s = .next (marked .notInitialised s) := by
  cases i with
  | init n => exact absurd rfl (hne n)
  | _ =>
    simp only [exec, execEtrace, execEascii, execEhex1, execEhex2, execEhex4, execEchar, directCommand, execHdrTrace,
      execHdrAscii, execHdrHex1, execHdrHex2, execHdrHex4, execHdrChar, bodyHeaderStep, headerStep]
    exact admitted_before_init h

/-- INIT is refused, or sets the table with its operand as the capacity (70_reset_and_hazards.md R230). -/
theorem exec_init_cases {n : Half} {s t : State} (h : exec (.init n) s = .next t) :
    (∃ r, t = marked r s) ∨
    (s.inited = false ∧ 2 ≤ n.toNat ∧ n.toNat ≤ s.params.capmax ∧ t = respond 1 (initialised n.toNat s)) := by
  change admitted (admission .producer true (decide (2 ≤ n.toNat ∧ n.toNat ≤ s.params.capmax)) true s)
    (fun s => .next (respond 1 (initialised n.toNat s))) s = .next t at h
  cases hadm : admission .producer true (decide (2 ≤ n.toNat ∧ n.toNat ≤ s.params.capmax)) true s with
  | some r =>
    rw [hadm] at h
    cases h
    exact .inl ⟨r, rfl⟩
  | none =>
    rw [hadm] at h
    cases h
    obtain ⟨hi, -, hrange, -⟩ := (admission_eq_none_iff _ _ _ _ _).mp hadm
    obtain ⟨hlow, hhigh⟩ := of_decide_eq_true hrange
    exact .inr ⟨by simpa using hi, hlow, hhigh, rfl⟩

/-! ### The fields that only INIT writes (10_state.md R28, R40) -/

/-- No field that only INIT writes has changed: the initialised bit, the capacity, the parameters and the grant. -/
structure KeepsSettings (s t : State) : Prop where
  inited : t.inited = s.inited
  cap : t.cap = s.cap
  params : t.params = s.params
  grant : t.grant = s.grant

theorem KeepsSettings.refl (s : State) : KeepsSettings s s := ⟨rfl, rfl, rfl, rfl⟩

/-- After INIT no command on a port changes a setting. -/
theorem PortEffect.keepsSettings {s t : State} (h : PortEffect s t) (hi : s.inited = true) : KeepsSettings s t := by
  cases h with
  | hold => exact .refl s
  | refused r => exact ⟨rfl, rfl, rfl, rfl⟩
  | result v _ => constructor <;> simp
  | enqueued u v _ _ _ => constructor <;> simp
  | latched cmd _ _ _ => exact ⟨rfl, rfl, rfl, rfl⟩
  | initialised n hn _ _ => rw [hi] at hn; cases hn

theorem SequencerEffect.keepsSettings {s t : State} (h : SequencerEffect s t) : KeepsSettings s t := by
  cases h with
  | direct cmd _ _ _ _ _ => cases cmd <;> exact ⟨rfl, rfl, rfl, rfl⟩
  | marker _ _ _ _ _ => unfold afterMarker; split <;> exact ⟨rfl, rfl, rfl, rfl⟩
  | frameByte b _ _ _ _ _ _ => constructor <;> simp [afterFrameByte]
  | directUnit e rest _ _ _ _ _ => constructor <;> simp
  | _ => exact ⟨rfl, rfl, rfl, rfl⟩

theorem handshake_keepsSettings (s : State) : KeepsSettings s (handshake s) := by
  unfold handshake
  dsimp only
  split <;> exact ⟨rfl, rfl, rfl, rfl⟩

theorem escalate_keepsSettings (s : State) : KeepsSettings s (escalate s) := by constructor <;> simp

/-- The state in which a presented command is executed: its issuer recorded (log 13). -/
def presented (tr : Transaction) (s : State) : State := { s with issuer := ⟨tr.agent, some tr.port⟩ }

@[simp] theorem presented_params (tr : Transaction) (s : State) : (presented tr s).params = s.params := rfl

@[simp] theorem initialised_inited (n : Nat) (s : State) : (initialised n s).inited = true := rfl
@[simp] theorem initialised_cap (n : Nat) (s : State) : (initialised n s).cap = n := rfl
@[simp] theorem initialised_params (n : Nat) (s : State) : (initialised n s).params = s.params := rfl

/-- A transaction holds, is refused, or executes the instruction its word decodes to. -/
theorem commandTurn_cases {tr : Transaction} {s t : State} (h : commandTurn tr s = .next t) :
    t = s ∨ t = presented tr s ∨ (∃ r, t = marked r (presented tr s)) ∨
    ∃ i, decodeCommand tr.word tr.payload = .ok i ∧ exec i (presented tr s) = .next t := by
  unfold commandTurn at h
  split at h
  · cases h
  split at h
  · cases h; exact .inl rfl
  split at h
  · cases h; exact .inl rfl
  dsimp only at h
  split at h
  next i hi => exact .inr (.inr (.inr ⟨i, hi, h⟩))
  next e he =>
    rcases admitted_cases (illegalReason e (presented tr s)) hold (presented tr s) with ⟨-, hr⟩ | ⟨r, -, hr⟩
    · cases hr.symm.trans h
      exact .inr (.inl rfl)
    · cases hr.symm.trans h
      exact .inr (.inr (.inl ⟨r, rfl⟩))

/-- A turn is the INIT command with operand `n` that brings the block up: `t` is the state it leaves. -/
structure Initialises (tn : Turn) (tr : Transaction) (n : Half) (s t : State) : Prop where
  turn : tn = .command tr
  decodes : decodeCommand tr.word tr.payload = .ok (.init n)
  before : s.inited = false
  low : 2 ≤ n.toNat
  high : n.toNat ≤ s.params.capmax
  after : t = respond 1 (initialised n.toNat (presented tr s))

theorem commandTurn_settings {tr : Transaction} {s t : State} (h : commandTurn tr s = .next t) :
    KeepsSettings s t ∨ ∃ n, Initialises (.command tr) tr n s t := by
  rcases commandTurn_cases h with rfl | rfl | ⟨r, rfl⟩ | ⟨i, hdec, hexec⟩
  · exact .inl (.refl t)
  · exact .inl ⟨rfl, rfl, rfl, rfl⟩
  · exact .inl ⟨rfl, rfl, rfl, rfl⟩
  by_cases hinit : ∃ n, i = .init n
  · obtain ⟨n, rfl⟩ := hinit
    rcases exec_init_cases hexec with ⟨r, rfl⟩ | ⟨hi, hlow, hhigh, rfl⟩
    · exact .inl ⟨rfl, rfl, rfl, rfl⟩
    · exact .inr ⟨n, rfl, hdec, hi, hlow, hhigh, rfl⟩
  · left
    cases hi : s.inited with
    | false =>
      rw [exec_before_init (s := presented tr s) hi (fun n hn => hinit ⟨n, hn⟩)] at hexec
      cases hexec
      exact ⟨rfl, rfl, rfl, rfl⟩
    | true =>
      obtain ⟨hinited, hcap, hparams, hgrant⟩ := (exec_port_effect (by simp [presented]) hexec).keepsSettings hi
      exact ⟨hinited, hcap, hparams, hgrant⟩

/-- A turn keeps every setting, or it is the INIT command that brings the block up. -/
theorem runTurn_settings {tn : Turn} {s t : State} (h : runTurn tn s = .next t) :
    KeepsSettings s t ∨ ∃ tr n, Initialises tn tr n s t := by
  cases tn with
  | command tr =>
    rcases commandTurn_settings h with hk | ⟨n, hn⟩
    · exact .inl hk
    · exact .inr ⟨tr, n, hn⟩
  | sequencer d => exact .inl (sequencerTurn_effect h).keepsSettings
  | controller =>
    rcases controllerTurn_cases h with rfl | ⟨-, -, -, rfl⟩ | ⟨-, -, -, -, -, rfl⟩ | ⟨-, -, -, -, rfl⟩
    · exact .inl (.refl t)
    · exact .inl (escalate_keepsSettings s)
    · exact .inl (handshake_keepsSettings s)
    · exact .inl ⟨rfl, rfl, rfl, rfl⟩
  | client => rcases clientTurn_cases h with rfl | ⟨-, -, rfl⟩ <;> exact .inl ⟨rfl, rfl, rfl, rfl⟩
  | host => rcases hostTurn_cases h with rfl | ⟨-, -, rfl⟩ <;> exact .inl ⟨rfl, rfl, rfl, rfl⟩
  | tick =>
    rcases tickTurn_cases h with rfl | ⟨-, -, -, rfl⟩
    · exact .inl (.refl t)
    · left; constructor <;> simp

/-- Fetching the turn changes no setting, so what holds of the turn holds of the step. -/
theorem step_settings {s t : State} (h : step s = .next t) :
    KeepsSettings s t ∨ ∃ tr n, Initialises (nextTurn s) tr n (popTurn s) t := by
  rcases runTurn_settings (runTurn_of_step h) with ⟨hi, hc, hp, hg⟩ | hinit
  · exact .inl ⟨by simpa using hi, by simpa using hc, by simpa using hp, by simpa using hg⟩
  · exact .inr hinit

/-! ### The capacity and the parameters (O57) -/

/-- Settles O57: a step keeps every setting but for the INIT command, which before INIT sets the capacity to its operand. -/
theorem capacityAndParametersAreFixed : Obligations.CapacityAndParametersAreFixed := by
  unfold Obligations.CapacityAndParametersAreFixed
  intro s t h
  rcases step_settings h with hk | ⟨tr, n, hn⟩
  · exact ⟨hk.params, fun hi => ⟨hk.inited.trans hi, hk.cap⟩, fun hi => .inl (hk.inited.trans hi)⟩
  · obtain ⟨hturn, hdec, hbefore, hlow, hhigh, rfl⟩ := hn
    have hhalf : n.toNat ≤ 65535 := Nat.le_of_lt_succ n.isLt
    rw [popTurn_inited] at hbefore
    rw [popTurn_params] at hhigh
    simp only [respond_params, respond_inited, respond_cap, initialised_params, initialised_inited, initialised_cap,
      presented_params, popTurn_params, hbefore]
    exact ⟨trivial, nofun, fun _ => .inr ⟨trivial, hlow, hhigh, hhalf, tr, n, hturn, hdec, rfl⟩⟩

end Sys2Proof.Machine
end

section
/-! What a turn does to the channel: nothing, one write by the controller, or one take by the host. -/

namespace Sys2Proof.Machine

/-! ### The channel's moves (10_state.md R38, R39) -/

/-- What a turn after INIT can do to the channel and to the two lists of its values. -/
inductive ChannelMove (s t : State) : Prop where
  /-- Nothing. -/
  | keeps : t.chBusy = s.chBusy → t.chData = s.chData → t.wire = s.wire → t.hostrx = s.hostrx → ChannelMove s t
  /-- The controller writes the free channel. -/
  | writes : s.chBusy = false → t.chBusy = true → t.wire = s.wire ++ [t.chData] → t.hostrx = s.hostrx → ChannelMove s t
  /-- The host takes the value of the busy channel. -/
  | takes : s.chBusy = true → t.chBusy = false → t.wire = s.wire → t.hostrx = s.hostrx ++ [s.chData] → ChannelMove s t

theorem ChannelMove.refl (s : State) : ChannelMove s s := .keeps rfl rfl rfl rfl

/-- After INIT no command on a port touches the channel. -/
theorem PortEffect.channelMove {s t : State} (h : PortEffect s t) (hi : s.inited = true) : ChannelMove s t := by
  cases h with
  | hold => exact .refl s
  | refused r => exact .keeps rfl rfl rfl rfl
  | result v _ => apply ChannelMove.keeps <;> simp
  | enqueued u v _ _ _ => apply ChannelMove.keeps <;> simp
  | latched cmd _ _ _ => exact .keeps rfl rfl rfl rfl
  | initialised n hn _ _ => rw [hi] at hn; cases hn

/-- No step of the sequencer touches the channel: it only starts transfers. -/
theorem SequencerEffect.channelMove {s t : State} (h : SequencerEffect s t) : ChannelMove s t := by
  cases h with
  | direct cmd _ _ _ _ _ => cases cmd <;> exact .keeps rfl rfl rfl rfl
  | marker _ _ _ _ _ => unfold afterMarker; split <;> exact .keeps rfl rfl rfl rfl
  | frameByte b _ _ _ _ _ _ => apply ChannelMove.keeps <;> simp [afterFrameByte]
  | directUnit e rest _ _ _ _ _ => apply ChannelMove.keeps <;> simp
  | _ => exact .keeps rfl rfl rfl rfl

theorem handshake_channelMove {s : State} (hb : s.chBusy = false) : ChannelMove s (handshake s) := by
  unfold handshake
  dsimp only
  split <;> exact .writes hb rfl rfl rfl

theorem runTurn_channelMove {tn : Turn} {s t : State} (hi : s.inited = true) (h : runTurn tn s = .next t) :
    ChannelMove s t := by
  cases tn with
  | command tr =>
    rcases commandTurn_effect h with rfl | heff
    · exact .refl t
    · cases heff.channelMove hi with
      | keeps hb hd hw hr => exact .keeps hb hd hw hr
      | writes hb hb' hw hr => exact .writes hb hb' hw hr
      | takes hb hb' hw hr => exact .takes hb hb' hw hr
  | sequencer d => exact (sequencerTurn_effect h).channelMove
  | controller =>
    rcases controllerTurn_cases h with rfl | ⟨-, -, -, rfl⟩ | ⟨-, -, hb, -, -, rfl⟩ | ⟨-, -, hb, -, rfl⟩
    · exact .refl t
    · apply ChannelMove.keeps <;> simp
    · exact handshake_channelMove hb
    · exact .writes hb rfl rfl rfl
  | client => rcases clientTurn_cases h with rfl | ⟨-, -, rfl⟩ <;> exact .keeps rfl rfl rfl rfl
  | host =>
    rcases hostTurn_cases h with rfl | ⟨-, hb, rfl⟩
    · exact .refl t
    · exact .takes hb rfl rfl rfl
  | tick =>
    rcases tickTurn_cases h with rfl | ⟨-, -, -, rfl⟩
    · exact .refl t
    · apply ChannelMove.keeps <;> simp

/-- A move keeps the order of the channel's values, whatever stood before the first one written (log 10): a write puts at the
back what the channel then holds, a take moves what it held. -/
theorem ChannelMove.inOrder {s t : State} (h : ChannelMove s t) {stale : List Word}
    (hs : stale ++ s.wire = s.hostrx ++ (if s.chBusy = true then [s.chData] else [])) :
    stale ++ t.wire = t.hostrx ++ (if t.chBusy = true then [t.chData] else []) := by
  cases h with
  | keeps hb hd hw hr => rw [hb, hd, hw, hr, hs]
  | writes hb hb' hw hr =>
    have hs' : stale ++ s.wire = s.hostrx := by simpa [hb] using hs
    rw [hw, hr, if_pos hb', ← List.append_assoc, hs']
  | takes hb hb' hw hr =>
    rw [hw, hr, hs, if_pos hb, hb']
    simp

/-! ### What the host has taken (O59) -/

/-- Settles O59: after INIT a step is a move of the channel; the step that initialises is INIT, which empties both lists. -/
theorem hostReceivesInOrder : Obligations.HostReceivesInOrder := by
  unfold Obligations.HostReceivesInOrder
  constructor
  · intro s t hi hs h
    have hmove := runTurn_channelMove (by simpa using hi) (runTurn_of_step h)
    exact hmove.inOrder (stale := []) (by simpa using hs)
  · intro s t hi h ht
    rcases step_settings h with hk | ⟨tr, n, hn⟩
    · rw [hk.inited, hi] at ht
      cases ht
    · have hw : t.wire = [] := by rw [hn.after]; simp [initialised]
      have hr : t.hostrx = [] := by rw [hn.after]; simp [initialised]
      exact ⟨hw, hr, fun hb => by simp [hw, hr, hb]⟩

end Sys2Proof.Machine
end

section
/-! The invariant of a run, clause by clause: what each operation of a step does to the clauses about the FIFO, the encoder,
the latch, the transfer and the wait bit. -/

namespace Sys2Proof.Machine

/-- The clauses of the invariant about the block's inside, without the channel and the write port. -/
structure BlockInv (s : State) : Prop where
  fifo : FifoInv s
  frames : FramesInv s
  encoder : EncoderInv s
  latch : LatchInv s
  transfer : TransferInv s
  wait : WaitInv s

theorem Inv.block {s : State} (h : Inv s) (hi : s.inited = true) : BlockInv s :=
  ⟨h.fifo hi, h.frames hi, h.encoder hi, h.latch hi, h.transfer hi, h.wait hi⟩

/-- The invariant after INIT is the clauses about the block's inside, the channel's and the write port's. -/
theorem BlockInv.inv {s : State} (h : BlockInv s) (hc : ChannelInv s) (hg : s.grant = none) : Inv s :=
  ⟨fun _ => h.fifo, fun _ => h.frames, fun _ => h.encoder, fun _ => h.latch, fun _ => h.transfer, fun _ => h.wait,
    fun _ => hc, fun _ => hg⟩

/-! ### Steps outside the FIFO, the encoder and the latch -/

/-- `t` has the FIFO, the encoder and the latch of `s`: the two differ at most in the transfer's and the channel's fields, the
ports' and the model's own. -/
def SameQueueAndEncoder (s t : State) : Prop :=
  t = { s with inited := t.inited, tbusy := t.tbusy, tword := t.tword, hidx := t.hidx, tier := t.tier, tticks := t.tticks,
               chBusy := t.chBusy, chData := t.chData, chOther := t.chOther, wire := t.wire, hostrx := t.hostrx,
               grant := t.grant, resp := t.resp, deqByte := t.deqByte, mark := t.mark, issuer := t.issuer,
               inbox := t.inbox, draws := t.draws }

/-- Only the clauses of the transfer and of the wait bit are left to show where the rest is the same. -/
theorem BlockInv.of_same {s t : State} (h : BlockInv s) (he : SameQueueAndEncoder s t) (ht : TransferInv t)
    (hw : WaitInv t) : BlockInv t := by
  refine ⟨?_, ?_, ?_, ?_, ht, hw⟩ <;> rw [he]
  · exact h.fifo.congr rfl rfl rfl rfl rfl rfl rfl rfl
  · exact h.frames.congr rfl rfl rfl rfl rfl
  · exact h.encoder
  · exact h.latch

/-- A step that leaves the transfer's progress too keeps the whole. -/
theorem BlockInv.of_unread {s t : State} (h : BlockInv s) (he : SameQueueAndEncoder s t) (hb : t.tbusy = s.tbusy)
    (hx : t.hidx = s.hidx) : BlockInv t := by
  refine h.of_same he ?_ ?_
  · unfold TransferInv
    rw [hb, hx]
    exact h.transfer
  · unfold WaitInv
    rw [hb, he]
    exact h.wait

theorem popTurn_same (s : State) : SameQueueAndEncoder s (popTurn s) := by unfold popTurn; split <;> rfl

theorem respond_same (v : Word) (s : State) : SameQueueAndEncoder s (respond v s) := by unfold respond; split <;> rfl

theorem escalate_same (s : State) : SameQueueAndEncoder s (escalate s) := by unfold escalate; split <;> rfl

theorem handshake_same (s : State) : SameQueueAndEncoder s (handshake s) := by
  unfold handshake
  dsimp only
  split <;> rfl

theorem BlockInv.popTurn {s : State} (h : BlockInv s) : BlockInv (popTurn s) :=
  h.of_unread (popTurn_same s) (by simp) (by simp)

theorem BlockInv.respond {s : State} (h : BlockInv s) (v : Word) : BlockInv (respond v s) :=
  h.of_unread (respond_same v s) (by simp) (by simp)

theorem BlockInv.escalate {s : State} (h : BlockInv s) : BlockInv (escalate s) :=
  h.of_unread (escalate_same s) (by simp) (by simp)

/-! ### The wait bit and the transfer (10_state.md R34, R36) -/

/-- A sequencer that is not suspended meets the clause of the wait bit. -/
theorem waitInv_of_awake {s : State} (h : s.cwait = false) : WaitInv s := by
  intro hw
  rw [h] at hw
  cases hw

/-- While a transfer is in progress the sequencer is not suspended. -/
theorem WaitInv.awake {s : State} (h : WaitInv s) (hb : s.tbusy = true) : s.cwait = false := by
  by_contra hw
  obtain ⟨-, -, hb'⟩ := h (by simpa using hw)
  rw [hb] at hb'
  cases hb'

/-- Inside a message the sequencer is not suspended. -/
theorem WaitInv.awake_of_phase {s : State} (h : WaitInv s) (hp : s.phase ≠ .awaitLength) : s.cwait = false := by
  by_contra hw
  obtain ⟨-, hp', -⟩ := h (by simpa using hw)
  exact hp hp'

theorem transferInv_emit (w : Word) (s : State) : TransferInv (emit w s) := by simp [TransferInv]

/-- A word issued by a sequencer that is not suspended. -/
theorem BlockInv.emit {s : State} (h : BlockInv s) (w : Word) (hw : s.cwait = false) : BlockInv (emit w s) :=
  h.of_same rfl (transferInv_emit w s) (waitInv_of_awake hw)

/-! ### Units into the accumulator (41_frame_encoder.md R124) -/

/-- After a unit step the accumulator is empty or a word is being built, and no word is once no unit is to come. -/
theorem unitStep_accumulator (e : Word) {s : State} (hk : s.k < s.unit.perWord) :
    ((unitStep e s).k = 0 → (unitStep e s).acc = 0) ∧ (unitStep e s).k < s.unit.perWord ∧
    (s.rem - 1 = 0 → (unitStep e s).k = 0) := by
  by_cases hfull : s.k + 1 = s.unit.perWord ∨ s.rem - 1 = 0
  · rw [unitStep_emits e s hfull]
    exact ⟨fun _ => rfl, perWord_pos s.unit, fun _ => rfl⟩
  · rw [unitStep_keeps e s hfull]
    obtain ⟨hword, hrem⟩ := not_or.mp hfull
    exact ⟨nofun, by change s.k + 1 < _; omega, fun h => absurd h hrem⟩

theorem TransferInv.unitStep {s : State} (h : TransferInv s) (e : Word) : TransferInv (unitStep e s) := by
  by_cases hfull : s.k + 1 = s.unit.perWord ∨ s.rem - 1 = 0
  · rw [unitStep_emits e s hfull]
    exact transferInv_emit _ _
  · rw [unitStep_keeps e s hfull]
    exact h

theorem FifoInv.unitStep {s : State} (h : FifoInv s) (e : Word) : FifoInv (unitStep e s) :=
  h.congr (by simp) (by simp) (by simp) (by simp) (by simp) (by simp) (by simp) (by simp)

theorem held_unitStep (e : Word) (s : State) : held (unitStep e s) = held s :=
  held_congr (by simp) (by simp) (by simp) (by simp)

/-! ### The encoder and the latch (10_state.md R30 to R35) -/

theorem EncoderInv.congr {s t : State} (h : EncoderInv s) (hp : t.phase = s.phase) (hr : t.rem = s.rem) (ha : t.acc = s.acc)
    (hk : t.k = s.k) (hu : t.unit = s.unit) (hd : t.dstate = s.dstate) (hl : t.dpay = s.dpay) : EncoderInv t := by
  unfold EncoderInv
  rw [hp, hr, ha, hk, hu, hd, hl]
  exact h

theorem LatchInv.congr {s t : State} (h : LatchInv s) (hd : t.dstate = s.dstate) (hq : t.dreq = s.dreq)
    (hl : t.dpay = s.dpay) : LatchInv t := by
  unfold LatchInv
  rw [hd, hq, hl]
  exact h

theorem EncoderInv.direct_iff {s : State} (h : EncoderInv s) : s.phase = .direct ↔ s.dstate = .active := by
  obtain ⟨-, -, -, hdirect, -⟩ := h
  exact hdirect

theorem EncoderInv.not_active {s : State} (h : EncoderInv s) (hp : s.phase ≠ .direct) : s.dstate ≠ .active :=
  fun hd => hp (h.direct_iff.mpr hd)

theorem EncoderInv.k_lt {s : State} (h : EncoderInv s) : s.k < s.unit.perWord := by
  obtain ⟨-, hk, -⟩ := h
  exact hk

theorem EncoderInv.rem_of_awaitLength {s : State} (h : EncoderInv s) (hp : s.phase = .awaitLength) : s.rem = 0 := by
  obtain ⟨-, -, -, -, hrest⟩ := h
  simpa only [hp] using hrest

theorem EncoderInv.rem_of_streamChar {s : State} (h : EncoderInv s) (hp : s.phase = .streamChar) : s.rem = 0 := by
  obtain ⟨-, -, -, -, hrest⟩ := h
  simpa only [hp] using hrest

theorem EncoderInv.of_streamFrame {s : State} (h : EncoderInv s) (hp : s.phase = .streamFrame) :
    s.unit = .one ∧ 1 ≤ s.rem ∧ s.rem ≤ 255 := by
  obtain ⟨-, -, -, -, hrest⟩ := h
  simpa only [hp] using hrest

theorem EncoderInv.dpay_of_direct {s : State} (h : EncoderInv s) (hp : s.phase = .direct) : s.dpay.length = s.rem := by
  obtain ⟨-, -, -, -, hrest⟩ := h
  simpa only [hp] using hrest

/-- Between two bodies, with the accumulator as it was, the phase may be either of those that take a unit's first byte or a
character. -/
theorem EncoderInv.of_no_body {s t : State} (h : EncoderInv s) (hr : s.rem = 0) (hr' : t.rem = s.rem) (ha : t.acc = s.acc)
    (hk : t.k = s.k) (hu : t.unit = s.unit) (hp : t.phase = .awaitLength ∨ t.phase = .streamChar)
    (hd : t.dstate ≠ .active) : EncoderInv t := by
  obtain ⟨hacc, hlt, hrem, -, -⟩ := h
  unfold EncoderInv
  rw [hr', ha, hk, hu]
  refine ⟨hacc, hlt, hrem, ?_⟩
  rcases hp with hp | hp <;> rw [hp] <;> exact ⟨⟨nofun, fun h => absurd h hd⟩, hr⟩

/-- The latch's status may change between values other than ACTIVE, and its payload with it: outside DIRECT the encoder's clause
does not read them. -/
theorem EncoderInv.of_latch {s : State} (h : EncoderInv s) (hs : s.dstate ≠ .active) {d : DState} (hd : d ≠ .active)
    (cmd : Option DirectCmd) (l : List Word) : EncoderInv { s with dreq := cmd, dpay := l, dstate := d } := by
  have hp : s.phase ≠ .direct := fun hp => hs (h.direct_iff.mp hp)
  obtain ⟨hacc, hk, hrem, -, hrest⟩ := h
  refine ⟨hacc, hk, hrem, ⟨fun h => absurd h hp, fun h => absurd h hd⟩, ?_⟩
  cases hph : s.phase with
  | direct => exact absurd hph hp
  | _ => simpa only [hph] using hrest

end Sys2Proof.Machine
end

section
/-! The invariant of a run, step by step: every effect of a turn after INIT keeps the clauses about the block's inside, and INIT
establishes them. -/

namespace Sys2Proof.Machine

/-! ### Commands on a port -/

/-- A whole unit behind whole units leaves whole units, behind the same bytes owed (42_fifo.md R160). -/
theorem FramesInv.enqueued {s : State} (h : FramesInv s) (hf : FifoInv s) {u : FifoUnit} (hu : FifoUnit.ok u)
    (hfit : s.cnt + (FifoUnit.bytes u).length ≤ s.cap) : FramesInv (enqueued (FifoUnit.bytes u) s) := by
  obtain ⟨howed, hwhole⟩ := h
  have ho : owed (Machine.enqueued (FifoUnit.bytes u) s) = owed s := owed_congr (by simp) (by simp)
  refine ⟨by rw [ho, enqueued_cnt]; omega, ?_⟩
  rw [ho, held_enqueued, held_putAll _ s hf.rdLt hf.wrEq hfit, List.drop_append_of_le_length (by rwa [held_length])]
  exact wholeUnits_append hwhole (wholeUnits_unit hu)

theorem BlockInv.enqueued {s : State} (h : BlockInv s) {u : FifoUnit} (hu : FifoUnit.ok u)
    (hfit : s.cnt + (FifoUnit.bytes u).length ≤ s.cap) : BlockInv (enqueued (FifoUnit.bytes u) s) where
  fifo := h.fifo.enqueued _ hfit
  frames := h.frames.enqueued h.fifo hu hfit
  encoder := h.encoder.congr (by simp) (by simp) (by simp) (by simp) (by simp) (by simp) (by simp)
  latch := h.latch.congr (by simp) (by simp) (by simp)
  transfer := by simpa [TransferInv] using h.transfer
  wait := waitInv_of_awake (by simp)

theorem BlockInv.latched {s : State} (h : BlockInv s) {cmd : DirectCmd} (hd : s.dstate = .none) (hc : cmdOk cmd) :
    BlockInv (Machine.latch cmd s) where
  fifo := h.fifo.congr rfl rfl rfl rfl rfl rfl rfl rfl
  frames := h.frames.congr rfl rfl rfl rfl rfl
  encoder := h.encoder.of_latch (by simp [hd]) (by simp) _ _
  latch := ⟨cmd, rfl, hc, rfl⟩
  transfer := h.transfer
  wait := h.wait

/-- After INIT every effect of a command on a port keeps the clauses. -/
theorem PortEffect.blockInv {s t : State} (h : PortEffect s t) (hi : s.inited = true) (hs : BlockInv s) : BlockInv t := by
  cases h with
  | hold => exact hs
  | refused r => exact hs.of_unread rfl rfl rfl
  | result v _ => exact hs.respond v
  | enqueued u v _ hu hfit => exact (hs.enqueued hu hfit).respond v
  | latched cmd _ hd hc => exact hs.latched hd hc
  | initialised n hn _ _ => rw [hi] at hn; cases hn

/-! ### The bytes owed after a take (10_state.md R45) -/

/-- A byte taken from inside a unit is one byte owed less. -/
theorem framesInv_of_taken_owed {s t : State} {b : Byte} (h : FramesInv s) (hh : held s = b :: held t)
    (ho : owed s = owed t + 1) : FramesInv t := by
  obtain ⟨howed, hwhole⟩ := h
  rw [hh, ho, List.drop_succ_cons] at hwhole
  have hlen : s.cnt = t.cnt + 1 := by rw [← held_length s, ← held_length t, hh, List.length_cons]
  exact ⟨by omega, hwhole⟩

/-- A length byte taken at a boundary leaves its payload owed. -/
theorem framesInv_of_taken_length {s t : State} {len : Byte} (h : FramesInv s) (hp : s.phase = .awaitLength)
    (hh : held s = len :: held t) (hl : len ≠ 0) (ho : owed t = len.toNat) : FramesInv t := by
  have hwhole : wholeUnits (len :: held t) := by simpa [owed, hp, hh] using h.2
  rcases wholeUnits_head hwhole with ⟨h0, -⟩ | ⟨-, hlen, hrest⟩
  · exact absurd h0 hl
  · exact ⟨by rwa [ho, ← held_length t], by rwa [ho]⟩

/-- A marker taken at a boundary leaves its character owed. -/
theorem framesInv_of_taken_marker {s t : State} (h : FramesInv s) (hp : s.phase = .awaitLength)
    (hh : held s = 0 :: held t) (ho : owed t = 1) : FramesInv t := by
  have hwhole : wholeUnits (0 :: held t) := by simpa [owed, hp, hh] using h.2
  rcases wholeUnits_head hwhole with ⟨-, c, l, hl, hrest⟩ | ⟨h0, -⟩
  · refine ⟨?_, by rwa [ho, hl]⟩
    rw [ho, ← held_length t, hl]
    simp
  · exact absurd rfl h0

/-- What a sequencer's step that takes the oldest byte leaves held. -/
theorem held_of_taken {s t : State} {b : Byte} (h : FifoInv s) (hn : 0 < s.cnt) (hb : peek s s.rd = b)
    (ht : held t = held (taken b s)) : held s = b :: held t := by
  obtain ⟨b', -, hheld, hpeek⟩ := take_of_inv h hn
  rw [ht, ← hb, hpeek]
  exact hheld

/-! ### The sequencer's steps (43_consumer.md R176) -/

theorem BlockInv.suspended {s : State} (h : BlockInv s) (hp : s.phase = .awaitLength) (hb : s.tbusy = false)
    (hn : s.cnt = 0) : BlockInv { s with cwait := true } where
  fifo := h.fifo.congr rfl rfl rfl rfl rfl rfl rfl rfl
  frames := h.frames.congr rfl rfl rfl rfl rfl
  encoder := h.encoder
  latch := h.latch
  transfer := h.transfer
  wait := fun _ => ⟨hn, hp, hb⟩

theorem BlockInv.startedFrame {s : State} {len : Byte} (h : BlockInv s) (hp : s.phase = .awaitLength) (hn : 0 < s.cnt)
    (hl : len ≠ 0) (hpeek : peek s s.rd = len) : BlockInv (startedFrame len s) := by
  have hlen : 1 ≤ len.toNat ∧ len.toNat ≤ 255 := by
    have := len.isLt
    have : len.toNat ≠ 0 := fun h0 => hl (BitVec.eq_of_toNat_eq h0)
    omega
  have hactive : s.dstate ≠ .active := h.encoder.not_active (by simp [hp])
  exact {
    fifo := (h.fifo.taken hn len).congr rfl rfl rfl rfl rfl rfl rfl rfl
    frames := framesInv_of_taken_length h.frames hp (held_of_taken h.fifo hn hpeek (held_congr rfl rfl rfl rfl)) hl rfl
    encoder := ⟨fun _ => rfl, perWord_pos .one, fun _ => rfl, ⟨nofun, fun hd => absurd hd hactive⟩, rfl, hlen⟩
    latch := h.latch
    transfer := transferInv_emit _ _
    wait := waitInv_of_awake rfl }

theorem BlockInv.afterMarker {s : State} (h : BlockInv s) (hp : s.phase = .awaitLength) (hn : 0 < s.cnt)
    (hpeek : peek s s.rd = 0) : BlockInv (afterMarker 0 s) := by
  have hbefore : BlockInv { taken 0 (Machine.asSequencer s) with phase := .streamChar } := {
    fifo := (h.fifo.taken hn 0).congr rfl rfl rfl rfl rfl rfl rfl rfl
    frames := framesInv_of_taken_marker h.frames hp (held_of_taken h.fifo hn hpeek (held_congr rfl rfl rfl rfl)) rfl
    encoder := h.encoder.of_no_body (h.encoder.rem_of_awaitLength hp) rfl rfl rfl rfl (.inr rfl)
      (h.encoder.not_active (by simp [hp]))
    latch := h.latch
    transfer := h.transfer
    wait := waitInv_of_awake rfl }
  unfold Machine.afterMarker
  split
  · exact hbefore.emit _ rfl
  · exact hbefore

theorem BlockInv.afterCharacter {s : State} {c : Byte} (h : BlockInv s) (hp : s.phase = .streamChar) (hn : 0 < s.cnt)
    (hpeek : peek s s.rd = c) : BlockInv (afterCharacter c s) where
  fifo := (h.fifo.taken hn c).congr rfl rfl rfl rfl rfl rfl rfl rfl
  frames := framesInv_of_taken_owed h.frames (held_of_taken h.fifo hn hpeek (held_congr rfl rfl rfl rfl))
    (by rw [owed, hp]; rfl)
  encoder := h.encoder.of_no_body (h.encoder.rem_of_streamChar hp) rfl rfl rfl rfl (.inl rfl)
    (h.encoder.not_active (by simp [hp]))
  latch := h.latch
  transfer := transferInv_emit _ _
  wait := waitInv_of_awake rfl

theorem owed_afterFrameByte {s : State} (b : Byte) (hp : s.phase = .streamFrame) (hrem : 1 ≤ s.rem) :
    owed s = owed (afterFrameByte b s) + 1 := by
  by_cases hlast : s.rem = 1
  · simp [owed, hp, afterFrameByte, hlast]
  · simp only [owed, hp, afterFrameByte, hlast, unitStep_phase, unitStep_rem, if_false]
    change s.rem = s.rem - 1 + 1
    omega

theorem EncoderInv.afterFrameByte {s : State} (h : EncoderInv s) (hp : s.phase = .streamFrame) (b : Byte) :
    EncoderInv (afterFrameByte b s) := by
  obtain ⟨hunit, hlow, hhigh⟩ := h.of_streamFrame hp
  have hactive : s.dstate ≠ .active := h.not_active (by simp [hp])
  obtain ⟨hacc, hk, hrem⟩ := unitStep_accumulator (b.setWidth 32)
    (s := { taken b (asSequencer s) with phase := if s.rem = 1 then .awaitLength else .streamFrame }) h.k_lt
  unfold EncoderInv Machine.afterFrameByte
  simp only [unitStep_unit, unitStep_rem, unitStep_phase, unitStep_dstate, unitStep_dpay]
  refine ⟨hacc, hk, hrem, ?_⟩
  by_cases hlast : s.rem = 1
  · simp [hlast, hactive]
  · simp only [hlast, if_false]
    exact ⟨⟨nofun, fun hd => absurd hd hactive⟩, hunit, by change 1 ≤ s.rem - 1; omega, by change s.rem - 1 ≤ 255; omega⟩

theorem BlockInv.afterFrameByte {s : State} {b : Byte} (h : BlockInv s) (hp : s.phase = .streamFrame) (hn : 0 < s.cnt)
    (hrem : 0 < s.rem) (hpeek : peek s s.rd = b) : BlockInv (afterFrameByte b s) where
  fifo := FifoInv.unitStep (s := { taken b (Machine.asSequencer s) with phase := _ })
    ((h.fifo.taken hn b).congr rfl rfl rfl rfl rfl rfl rfl rfl) _
  frames := framesInv_of_taken_owed h.frames
    (held_of_taken h.fifo hn hpeek ((held_unitStep _ _).trans (held_congr rfl rfl rfl rfl))) (owed_afterFrameByte b hp hrem)
  encoder := h.encoder.afterFrameByte hp b
  latch := h.latch.congr (by simp [Machine.afterFrameByte]) (by simp [Machine.afterFrameByte])
    (by simp [Machine.afterFrameByte])
  transfer := TransferInv.unitStep (s := { taken b (Machine.asSequencer s) with phase := _ }) h.transfer _
  wait := waitInv_of_awake (by simp [Machine.afterFrameByte])

/-! ### A direct command's steps (41_frame_encoder.md R121 to R124) -/

/-- The start step of a latched command, field by field: it sets up a body in phase DIRECT and issues the header. -/
theorem startedDirect_eq (cmd : DirectCmd) (s : State) :
    startedDirect cmd s =
      { s with unit := (startedDirect cmd s).unit, rem := (startedDirect cmd s).rem, acc := (startedDirect cmd s).acc,
               k := (startedDirect cmd s).k, phase := .direct, dstate := .active, cwait := false, tbusy := true,
               tword := cmdHeader cmd, hidx := 0, tier := .fast, tticks := 0, issuer := ⟨.sequencer, none⟩ } := by
  cases cmd <;> rfl

/-- The latched command's payload is as long as the body its header announces; a message with no body has none. -/
theorem startedDirect_rem {cmd : DirectCmd} {s : State} (hc : cmdOk cmd) (hr : s.rem = 0) :
    (directPayload cmd).length = (startedDirect cmd s).rem := by
  cases cmd with
  | trace id => exact hr.symm
  | body kind n units =>
    obtain ⟨hlen, -⟩ := hc
    exact hlen
  | char c => exact hr.symm

/-- The start step leaves the accumulator empty, or for a message with no body as it was. -/
theorem startedDirect_accumulator (cmd : DirectCmd) {s : State} (h : EncoderInv s) :
    ((startedDirect cmd s).k = 0 → (startedDirect cmd s).acc = 0) ∧
    (startedDirect cmd s).k < (startedDirect cmd s).unit.perWord ∧
    ((startedDirect cmd s).rem = 0 → (startedDirect cmd s).k = 0) := by
  obtain ⟨hacc, hk, hrem, -, -⟩ := h
  cases cmd with
  | trace id => exact ⟨hacc, hk, hrem⟩
  | body kind n units => exact ⟨fun _ => rfl, perWord_pos kind.unit, fun _ => rfl⟩
  | char c => exact ⟨hacc, hk, hrem⟩

/-- Starting the latched command at a boundary (43_consumer.md R175). -/
theorem BlockInv.startedDirect {s : State} {cmd : DirectCmd} (h : BlockInv s) (hp : s.phase = .awaitLength)
    (hd : s.dstate = .pending) (hq : s.dreq = some cmd) : BlockInv (startedDirect cmd s) := by
  obtain ⟨cmd', hq', hc, hpay⟩ : ∃ cmd', s.dreq = some cmd' ∧ cmdOk cmd' ∧ s.dpay = directPayload cmd' := by
    simpa only [LatchInv, hd] using h.latch
  obtain rfl : cmd = cmd' := Option.some.inj (hq.symm.trans hq')
  have hlen : s.dpay.length = (Machine.startedDirect cmd s).rem :=
    hpay ▸ startedDirect_rem hc (h.encoder.rem_of_awaitLength hp)
  obtain ⟨hacc, hk, hk0⟩ := startedDirect_accumulator cmd h.encoder
  rw [startedDirect_eq]
  exact {
    fifo := h.fifo.congr rfl rfl rfl rfl rfl rfl rfl rfl
    frames := h.frames.congr rfl rfl rfl rfl (by simp [owed, hp])
    encoder := ⟨hacc, hk, hk0, ⟨fun _ => rfl, fun _ => rfl⟩, hlen⟩
    latch := by simp [LatchInv, hq]
    transfer := ⟨Nat.zero_le 4, fun _ => Nat.zero_lt_succ 3⟩
    wait := waitInv_of_awake rfl }

theorem BlockInv.directUnit {s : State} {e : Word} {rest : List Word} (h : BlockInv s) (hp : s.phase = .direct)
    (he : s.dpay = e :: rest) : BlockInv (unitStep e { Machine.asSequencer s with dpay := rest }) where
  fifo := FifoInv.unitStep (s := { Machine.asSequencer s with dpay := rest })
    (h.fifo.congr rfl rfl rfl rfl rfl rfl rfl rfl) e
  frames := h.frames.congr (by simp) (by simp) (by simp) (by simp) (by simp [owed, hp])
  encoder := by
    obtain ⟨hacc, hk, hrem⟩ := unitStep_accumulator e (s := { Machine.asSequencer s with dpay := rest }) h.encoder.k_lt
    have hlen : rest.length + 1 = s.rem := by rw [← h.encoder.dpay_of_direct hp, he, List.length_cons]
    unfold EncoderInv
    simp only [unitStep_unit, unitStep_rem, unitStep_phase, unitStep_dstate, unitStep_dpay]
    refine ⟨hacc, hk, hrem, h.encoder.direct_iff, ?_⟩
    simp only [asSequencer_phase, asSequencer_rem, hp]
    omega
  latch := by
    have hd := h.encoder.direct_iff.mp hp
    simpa [LatchInv, hd] using h.latch
  transfer := TransferInv.unitStep (s := { Machine.asSequencer s with dpay := rest }) h.transfer e
  wait := waitInv_of_awake ((unitStep_cwait _ _).trans (h.wait.awake_of_phase (by simp [hp])))

theorem BlockInv.finished {s : State} (h : BlockInv s) (hp : s.phase = .direct) (hr : s.rem = 0) :
    BlockInv { Machine.asSequencer s with phase := .awaitLength, dstate := .done } where
  fifo := h.fifo.congr rfl rfl rfl rfl rfl rfl rfl rfl
  frames := h.frames.congr rfl rfl rfl rfl (by simp [owed, hp])
  encoder := h.encoder.of_no_body hr rfl rfl rfl rfl (.inl rfl) (by simp)
  latch := by
    have hq : s.dreq ≠ none := by simpa only [LatchInv, h.encoder.direct_iff.mp hp] using h.latch
    exact ⟨hq, List.eq_nil_of_length_eq_zero ((h.encoder.dpay_of_direct hp).trans hr)⟩
  transfer := h.transfer
  wait := waitInv_of_awake (h.wait.awake_of_phase (by simp [hp]))

/-- Every step of the sequencer keeps the clauses. -/
theorem SequencerEffect.blockInv {s t : State} (h : SequencerEffect s t) (hs : BlockInv s) : BlockInv t := by
  cases h with
  | hold => exact hs
  | suspend _ hp hb hn _ => exact hs.suspended hp hb hn
  | frame len _ hp _ hn hl hpeek => exact hs.startedFrame hp hn hl hpeek
  | marker _ hp _ hn hpeek => exact hs.afterMarker hp hn hpeek
  | character c _ hp _ hn hpeek => exact hs.afterCharacter hp hn hpeek
  | direct cmd _ hp _ hd hq => exact hs.startedDirect hp hd hq
  | frameByte b _ hp _ hr hn hpeek => exact hs.afterFrameByte hp hn hr hpeek
  | directUnit e rest _ hp _ _ he => exact hs.directUnit hp he
  | finish _ hp _ hr => exact hs.finished hp hr

/-! ### The controller's, the client's and the host's turns -/

/-- A handshake of a transfer in progress (40_word_transport.md R103): the byte index stays below 4 until the last one. -/
theorem BlockInv.handshake {s : State} (h : BlockInv s) (hb : s.tbusy = true) (hx : s.hidx < 4) :
    BlockInv (handshake s) := by
  have hawake : s.cwait = false := h.wait.awake hb
  refine h.of_same (handshake_same s) ?_ (waitInv_of_awake (by rw [handshake_same s]; exact hawake))
  unfold Machine.handshake
  dsimp only
  split
  · exact ⟨hx, nofun⟩
  next hlast => exact ⟨hx, fun _ => Nat.lt_of_le_of_ne hx hlast⟩

theorem BlockInv.wordWrite {s : State} (h : BlockInv s) (hb : s.tbusy = true) : BlockInv (wordWrite s) := by
  obtain ⟨hx, -⟩ := h.transfer
  exact h.of_same rfl ⟨hx, nofun⟩ (waitInv_of_awake (h.wait.awake hb))

/-- The client takes its completion: the latch is empty again. -/
theorem BlockInv.completionTaken {s : State} (h : BlockInv s) (hd : s.dstate = .done) :
    BlockInv { s with dreq := none, dpay := [], dstate := .none } where
  fifo := h.fifo.congr rfl rfl rfl rfl rfl rfl rfl rfl
  frames := h.frames.congr rfl rfl rfl rfl rfl
  encoder := h.encoder.of_latch (by simp [hd]) (by simp) none []
  latch := ⟨rfl, rfl⟩
  transfer := h.transfer
  wait := h.wait

/-- After INIT every turn keeps the clauses. -/
theorem runTurn_blockInv {tn : Turn} {s t : State} (hi : s.inited = true) (hs : BlockInv s) (h : runTurn tn s = .next t) :
    BlockInv t := by
  cases tn with
  | command tr =>
    rcases commandTurn_effect h with rfl | heff
    · exact hs
    · exact heff.blockInv hi (hs.of_unread rfl rfl rfl)
  | sequencer d => exact (sequencerTurn_effect h).blockInv hs
  | controller =>
    rcases controllerTurn_cases h with rfl | ⟨-, -, -, rfl⟩ | ⟨-, hb, -, -, hx, rfl⟩ | ⟨-, hb, -, -, rfl⟩
    · exact hs
    · exact hs.escalate
    · exact hs.handshake hb hx
    · exact hs.wordWrite hb
  | client =>
    rcases clientTurn_cases h with rfl | ⟨-, hd, rfl⟩
    · exact hs
    · exact hs.completionTaken hd
  | host =>
    rcases hostTurn_cases h with rfl | ⟨-, -, rfl⟩
    · exact hs
    · exact hs.of_unread rfl rfl rfl
  | tick =>
    rcases tickTurn_cases h with rfl | ⟨-, -, -, rfl⟩
    · exact hs
    · exact BlockInv.escalate (s := { s with tticks := s.tticks + 1 }) (hs.of_unread rfl rfl rfl)

/-! ### INIT (70_reset_and_hazards.md R230) -/

/-- The table of 10_state.md R43 meets every clause: nothing is held, owed, latched or in progress. -/
theorem blockInv_initialised {n : Nat} {s : State} (hlow : 2 ≤ n) (hhigh : n ≤ s.params.capmax) :
    BlockInv (initialised n s) where
  fifo := {
    capLow := hlow
    capHigh := hhigh
    rdLt := by change 0 < n; omega
    wrEq := (Nat.zero_mod n).symm
    cntLe := Nat.zero_le n
    totals := rfl
    wf := rfl
    inside := fun a ha => absurd rfl ha
    written := nofun }
  frames := ⟨Nat.le_refl 0, wholeUnits_nil⟩
  encoder := ⟨fun _ => rfl, perWord_pos .one, fun _ => rfl, ⟨nofun, nofun⟩, rfl⟩
  latch := ⟨rfl, rfl⟩
  transfer := ⟨Nat.zero_le 4, nofun⟩
  wait := waitInv_of_awake rfl

/-- A channel that is busy when INIT completes holds a value that was never written (log 10). -/
theorem channelInv_initialised (n : Nat) (s : State) : ChannelInv (initialised n s) := by
  refine ⟨if (initialised n s).chBusy then [(initialised n s).chData] else [], ?_, ?_⟩
  · split <;> simp
  · simp [initialised]

theorem Initialises.inv {tn : Turn} {tr : Transaction} {n : Half} {s t : State} (h : Initialises tn tr n s t) : Inv t := by
  obtain ⟨-, -, -, hlow, hhigh, rfl⟩ := h
  refine ((blockInv_initialised (s := presented tr s) hlow hhigh).respond 1).inv ?_ (by rw [respond_grant]; rfl)
  simpa [ChannelInv] using channelInv_initialised n.toNat (presented tr s)

/-! ### The step (O54) -/

/-- Settles O54: before INIT a step leaves the block not initialised or is INIT; after it the turn keeps the clauses about the
block's inside, moves the channel in order, and leaves the write port free. -/
theorem stepKeepsTheInvariant : Obligations.StepKeepsTheInvariant := by
  unfold Obligations.StepKeepsTheInvariant
  intro s t hs h
  rcases step_settings h with hk | ⟨tr, n, hn⟩
  · cases hi : s.inited with
    | false => exact inv_of_not_initialised (hk.inited.trans hi)
    | true =>
      have hturn := runTurn_of_step h
      have hpop : (popTurn s).inited = true := by simpa using hi
      have hblock := runTurn_blockInv hpop (hs.block hi).popTurn hturn
      obtain ⟨stale, hlen, hchannel⟩ := hs.channel hi
      have hmove := (runTurn_channelMove hpop hturn).inOrder (stale := stale) (by simpa using hchannel)
      exact hblock.inv ⟨stale, hlen, hmove⟩ (hk.grant.trans (hs.portIdle hi))
  · exact hn.inv

end Sys2Proof.Machine
end

section
/-! What a step does to the bytes held: nothing, one byte taken off the front, or one whole unit put at the back. -/

namespace Sys2Proof.Machine

/-! ### The queue's moves (20_memory.md R61, 42_fifo.md R160) -/

/-- What a turn after INIT can do to the bytes held. -/
inductive QueueMove (s t : State) : Prop where
  /-- Nothing. -/
  | keeps : held t = held s → QueueMove s t
  /-- The sequencer takes the oldest byte. -/
  | takes (b : Byte) : held s = b :: held t → QueueMove s t
  /-- A producer appends a whole frame or raw character. -/
  | appends (u : FifoUnit) : FifoUnit.ok u → held t = held s ++ FifoUnit.bytes u → QueueMove s t

theorem QueueMove.refl (s : State) : QueueMove s s := .keeps rfl

/-- A move from a state with the same bytes held. -/
theorem QueueMove.of_held_eq {s s' t : State} (h : QueueMove s' t) (he : held s' = held s) : QueueMove s t := by
  cases h with
  | keeps hk => exact .keeps (hk.trans he)
  | takes b hb => exact .takes b (he.symm.trans hb)
  | appends u hu ha => exact .appends u hu (by rw [ha, he])

theorem SameQueueAndEncoder.held_eq {s t : State} (h : SameQueueAndEncoder s t) : held t = held s := by
  rw [h]
  exact held_congr rfl rfl rfl rfl

theorem SameQueueAndEncoder.queueMove {s t : State} (h : SameQueueAndEncoder s t) : QueueMove s t := .keeps h.held_eq

/-- The bytes of a unit that fits are held behind the ones held before. -/
theorem QueueMove.of_enqueued {s : State} {u : FifoUnit} (hf : FifoInv s) (hu : FifoUnit.ok u)
    (hfit : s.cnt + (FifoUnit.bytes u).length ≤ s.cap) (v : Word) :
    QueueMove s (respond v (enqueued (FifoUnit.bytes u) s)) :=
  .appends u hu (by rw [(respond_same v _).held_eq, held_enqueued, held_putAll _ s hf.rdLt hf.wrEq hfit])

/-- After INIT a command on a port puts a whole unit at the back or leaves the bytes held. -/
theorem PortEffect.queueMove {s t : State} (h : PortEffect s t) (hi : s.inited = true) (hf : FifoInv s) :
    QueueMove s t := by
  cases h with
  | hold => exact .refl s
  | refused r => exact .keeps rfl
  | result v _ => exact (respond_same v s).queueMove
  | enqueued u v _ hu hfit => exact .of_enqueued hf hu hfit v
  | latched cmd _ _ _ => exact .keeps rfl
  | initialised n hn _ _ => rw [hi] at hn; cases hn

/-- A sequencer's step that reads a byte takes the oldest one; its other steps leave the bytes held. -/
theorem SequencerEffect.queueMove {s t : State} (h : SequencerEffect s t) (hf : FifoInv s) : QueueMove s t := by
  cases h with
  | hold => exact .refl s
  | suspend _ _ _ _ _ => exact .keeps rfl
  | frame len _ _ _ hn _ hpeek => exact .takes len (held_of_taken hf hn hpeek rfl)
  | marker _ _ _ hn hpeek =>
    refine .takes 0 (held_of_taken hf hn hpeek ?_)
    unfold afterMarker
    split <;> rfl
  | character c _ _ _ hn hpeek => exact .takes c (held_of_taken hf hn hpeek rfl)
  | direct cmd _ _ _ _ _ =>
    rw [startedDirect_eq]
    exact .keeps rfl
  | frameByte b _ _ _ _ hn hpeek => exact .takes b (held_of_taken hf hn hpeek (held_unitStep _ _))
  | directUnit e rest _ _ _ _ _ => exact .keeps (held_unitStep _ _)
  | finish _ _ _ _ => exact .keeps rfl

/-- Every turn after INIT moves the queue; the controller, the client, the host and the tick source leave it. -/
theorem runTurn_queueMove {tn : Turn} {s t : State} (hi : s.inited = true) (hf : FifoInv s)
    (h : runTurn tn s = .next t) : QueueMove s t := by
  cases tn with
  | command tr =>
    rcases commandTurn_effect h with rfl | heff
    · exact .refl t
    · exact (heff.queueMove hi (hf.congr rfl rfl rfl rfl rfl rfl rfl rfl)).of_held_eq rfl
  | sequencer d => exact (sequencerTurn_effect h).queueMove hf
  | controller =>
    rcases controllerTurn_cases h with rfl | ⟨-, -, -, rfl⟩ | ⟨-, -, -, -, -, rfl⟩ | ⟨-, -, -, -, rfl⟩
    · exact .refl t
    · exact (escalate_same s).queueMove
    · exact (handshake_same s).queueMove
    · exact .keeps rfl
  | client => rcases clientTurn_cases h with rfl | ⟨-, -, rfl⟩ <;> exact .keeps rfl
  | host => rcases hostTurn_cases h with rfl | ⟨-, -, rfl⟩ <;> exact .keeps rfl
  | tick =>
    rcases tickTurn_cases h with rfl | ⟨-, -, -, rfl⟩
    · exact .refl t
    · exact (escalate_same { s with tticks := s.tticks + 1 }).queueMove.of_held_eq rfl

/-! ### The step (O56) -/

/-- Settles O56: fetching the turn leaves the bytes held and the FIFO's invariant, and the turn is one move of the queue. -/
theorem queueOrderIsKept : Obligations.QueueOrderIsKept := by
  unfold Obligations.QueueOrderIsKept
  intro s t hs hi h
  have hmove : QueueMove (popTurn s) t :=
    runTurn_queueMove (by simpa using hi) (hs.block hi).popTurn.fifo (runTurn_of_step h)
  cases hmove.of_held_eq (popTurn_same s).held_eq with
  | keeps hk => exact .inl hk
  | takes b hb => exact .inr (.inl ⟨b, hb⟩)
  | appends u hu ha => exact .inr (.inr ⟨u, hu, ha⟩)

end Sys2Proof.Machine
end

section
/-! A body's words as the encoder packs them, and where each unit stands in them. -/

namespace Sys2Proof.Machine

/-! ### The unit rule and the closed form (41_frame_encoder.md R124 to R126) -/

/-- Units that fill a word, or that are the body's last ones, make its first word. -/
theorem packBody_append {u : UnitSize} {ys zs : List Word} (hne : ys ≠ [])
    (hl : ys.length = u.perWord ∨ (ys.length ≤ u.perWord ∧ zs = [])) :
    packBody u (ys ++ zs) = packWord u ys :: packBody u zs := by
  obtain ⟨htake, hdrop⟩ : (ys ++ zs).take u.perWord = ys ∧ (ys ++ zs).drop u.perWord = zs := by
    rcases hl with hfull | ⟨hle, rfl⟩
    · exact ⟨List.take_left' hfull, List.drop_left' hfull⟩
    · rw [List.append_nil]
      exact ⟨List.take_of_length_le hle, List.drop_of_length_le hle⟩
  cases ys with
  | nil => exact absurd rfl hne
  | cons y ys =>
    rw [List.cons_append] at htake hdrop ⊢
    rw [packBody_cons, htake, hdrop]

/-- A unit that fills the word or is the last one yields a word, and the next one begins empty. -/
theorem packRest_emits {u : UnitSize} (acc e : Word) {k : Nat} {es : List Word}
    (h : k + 1 = u.perWord ∨ es.length = 0) :
    packRest u acc k (e :: es) = align (shiftIn u acc e) (k + 1) u :: packRest u 0 0 es := by
  simp only [packRest, packUnit, if_pos h, Option.toList_some, List.singleton_append]

/-- Any other unit stays in the accumulator. -/
theorem packRest_keeps {u : UnitSize} (acc e : Word) {k : Nat} {es : List Word}
    (h : ¬ (k + 1 = u.perWord ∨ es.length = 0)) :
    packRest u acc k (e :: es) = packRest u (shiftIn u acc e) (k + 1) es := by
  simp only [packRest, packUnit, if_neg h, Option.toList_none, List.nil_append]

/-- With the units `ys` in the accumulator, the words still to come are those of `ys` and the units `xs` to come. No word is
being built once no unit is to come. -/
theorem packRest_eq_packBody {u : UnitSize} {acc : Word} {ys xs : List Word} (hacc : AccHolds u acc ys)
    (hl : ys.length < u.perWord) (hlast : xs = [] → ys = []) (hs : ∀ e ∈ ys ++ xs, e.toNat < 2 ^ (8 * u.bytes)) :
    packRest u acc ys.length xs = packBody u (ys ++ xs) := by
  induction xs generalizing acc ys with
  | nil =>
    rw [hlast rfl]
    rfl
  | cons e es ih =>
    rw [List.append_cons] at hs ⊢
    have hacc' : AccHolds u (shiftIn u acc e) (ys ++ [e]) := accHolds_shiftIn hacc hl (hs e (by simp))
    have hlen : (ys ++ [e]).length = ys.length + 1 := List.length_append
    by_cases hfull : ys.length + 1 = u.perWord ∨ es.length = 0
    · have hword : align (shiftIn u acc e) (ys.length + 1) u = packWord u (ys ++ [e]) :=
        hlen ▸ align_of_accHolds hacc' (by omega) (fun x hx => hs x (List.mem_append_left _ hx))
      have hrest : packRest u 0 0 es = packBody u es :=
        ih (accHolds_nil u) (perWord_pos u) (fun _ => rfl) (fun x hx => hs x (List.mem_append_right _ hx))
      have hsplit : (ys ++ [e]).length = u.perWord ∨ ((ys ++ [e]).length ≤ u.perWord ∧ es = []) := by
        rw [hlen, ← List.length_eq_zero_iff]
        omega
      rw [packRest_emits acc e hfull, packBody_append (by simp) hsplit, hword, hrest]
    · obtain ⟨hopen, hmore⟩ := not_or.mp hfull
      rw [packRest_keeps acc e hfull, ← hlen]
      exact ih hacc' (by omega) (fun h => absurd (by rw [h]; rfl) hmore) hs

/-! ### Unit i of a body (20_memory.md R53) -/

/-- Word `q` of a body is made of the units from `q * (4/u)` on. -/
theorem packBody_getElem? {u : UnitSize} {xs : List Word} {q : Nat} (h : q * u.perWord < xs.length) :
    (packBody u xs)[q]? = some (packWord u ((xs.drop (q * u.perWord)).take u.perWord)) := by
  induction q generalizing xs with
  | zero =>
    cases xs with
    | nil => exact absurd h (Nat.not_lt_zero _)
    | cons x xs => simp [packBody_cons]
  | succ q ih =>
    cases xs with
    | nil => exact absurd h (Nat.not_lt_zero _)
    | cons x xs =>
      rw [Nat.succ_mul] at h
      rw [packBody_cons, List.getElem?_cons_succ, ih (by rw [List.length_drop]; omega), List.drop_drop, Nat.succ_mul,
        Nat.add_comm]

/-- Unit `j` of a body word stands at the bits from `8u*j` up. -/
theorem packWord_getUnit {u : UnitSize} {ys : List Word} {j : Nat} (hj : j < ys.length) (hl : ys.length ≤ u.perWord)
    (hs : ∀ e ∈ ys, e.toNat < 2 ^ (8 * u.bytes)) :
    (packWord u ys).toNat / 2 ^ (8 * u.bytes * j) % 2 ^ (8 * u.bytes) = ys[j].toNat := by
  rw [packWord_toNat u ys hl hs, unitsValue_get u ys j hj hs]

/-- Settles O6: the encoder's words are those of the closed form, unit `i` is unit `i % (4/u)` of the units that make word
`i / (4/u)`, and a body word holds its units from the low bits up. -/
theorem bodyUnitsStandLittleEndian : Obligations.BodyUnitsStandLittleEndian := by
  unfold Obligations.BodyUnitsStandLittleEndian
  intro u xs i hi hs
  have hpack : packRest u 0 0 xs = packBody u xs := packRest_eq_packBody (accHolds_nil u) (perWord_pos u) (fun _ => rfl) hs
  have hdiv : i / u.perWord * u.perWord + i % u.perWord = i := Nat.div_add_mod' i u.perWord
  have hmod : i % u.perWord < u.perWord := Nat.mod_lt i (perWord_pos u)
  have hj : i % u.perWord < ((xs.drop (i / u.perWord * u.perWord)).take u.perWord).length := by
    rw [List.length_take, List.length_drop]
    omega
  rw [hpack, packBody_getElem? (by omega), Option.map_some, packWord_getUnit hj (List.length_take_le _ _)
    (fun e he => hs e (List.mem_of_mem_drop (List.mem_of_mem_take he)))]
  simp [hdiv]

end Sys2Proof.Machine
end

section
/-! The fields of the encoded words, and the three decoders on what the encoder gives. -/

namespace Sys2Proof

/-! ### The fields of an encoded command word (30_encoding.md R71) -/

@[simp] theorem opField_encZ (op : Nat) (h : op < 16) : opField (encZ op) = op := by
  simp [opField, h]

@[simp] theorem formatZ_encZ (op : Nat) (h : op < 16) : formatZ (encZ op) = true := by
  simp [formatZ, h]

@[simp] theorem opField_encC (op : Nat) (c : Byte) (h : op < 16) : opField (encC op c) = op := (encC_fields op c h).1

@[simp] theorem formatC_encC (op : Nat) (c : Byte) (h : op < 16) : formatC (encC op c) = true := (encC_fields op c h).2.1

@[simp] theorem cField_encC (op : Nat) (c : Byte) (h : op < 16) : cField (encC op c) = c := (encC_fields op c h).2.2

@[simp] theorem opField_encN (op : Nat) (n : Half) (h : op < 16) : opField (encN op n) = op := (encN_fields op n h).1

@[simp] theorem formatN_encN (op : Nat) (n : Half) (h : op < 16) : formatN (encN op n) = true := (encN_fields op n h).2.1

@[simp] theorem nField_encN (op : Nat) (n : Half) (h : op < 16) : nField (encN op n) = n := (encN_fields op n h).2.2

@[simp] theorem opField_encT (op : Nat) (id : BitVec 24) (h : op < 16) : opField (encT op id) = op := (encT_fields op id h).1

@[simp] theorem formatT_encT (op : Nat) (id : BitVec 24) (h : op < 16) : formatT (encT op id) = true :=
  (encT_fields op id h).2.1

@[simp] theorem idField_encT (op : Nat) (id : BitVec 24) (h : op < 16) : idField (encT op id) = id :=
  (encT_fields op id h).2.2

@[simp] theorem opField_encReserved (op : Nat) (r : BitVec 28) (h : op < 16) : opField (encReserved op r) = op := by
  simp [opField, h]

@[simp] theorem restField_encReserved (op : Nat) (r : BitVec 28) (h : op < 16) : restField (encReserved op r) = r := by
  have hr := r.isLt
  apply BitVec.eq_of_toNat_eq
  simp [restField, h]; omega

/-! ### A word is its fields, where its format's bits are 0 (30_encoding.md R71, R74) -/

theorem encZ_of_format {w : Word} {op : Nat} (hop : opField w = op) (hf : formatZ w = true) : encZ op = w := by
  have hw : w.toNat / 16 = 0 := by simpa [formatZ] using hf
  subst hop
  apply BitVec.eq_of_toNat_eq
  simp [encZ, opField]; omega

theorem encC_of_format {w : Word} {op : Nat} (hop : opField w = op) (hf : formatC w = true) : encC op (cField w) = w := by
  obtain ⟨hhigh, hz4⟩ : w.toNat / 65536 = 0 ∧ z4Field w = 0 := by simpa [formatC] using hf
  unfold z4Field at hz4
  subst hop
  apply BitVec.eq_of_toNat_eq
  simp [encC, opField, cField]; omega

theorem encN_of_format {w : Word} {op : Nat} (hop : opField w = op) (hf : formatN w = true) : encN op (nField w) = w := by
  have hw : w.toNat / 16 % 4096 = 0 := by simpa [formatN] using hf
  subst hop
  apply BitVec.eq_of_toNat_eq
  simp [encN, opField, nField]; omega

theorem encT_of_format {w : Word} {op : Nat} (hop : opField w = op) (hf : formatT w = true) : encT op (idField w) = w := by
  have hz4 : z4Field w = 0 := by simpa [formatT] using hf
  unfold z4Field at hz4
  subst hop
  apply BitVec.eq_of_toNat_eq
  simp [encT, opField, idField]; omega

/-- A reserved opcode has no must-be-zero bit. -/
theorem encReserved_of_opField {w : Word} {op : Nat} (hop : opField w = op) : encReserved op (restField w) = w := by
  subst hop
  apply BitVec.eq_of_toNat_eq
  simp [encReserved, opField, restField]; omega

/-! ### The fields of an encoded header word (30_encoding.md R76, R77) -/

@[simp] theorem tagField_traceHeader (id : BitVec 24) : tagField (traceHeader id) = 0 := by
  simp [tagField]

@[simp] theorem idField_traceHeader (id : BitVec 24) : idField (traceHeader id) = id := by
  apply BitVec.eq_of_toNat_eq
  simp [idField]

@[simp] theorem tagField_bodyHeader (kind : BodyKind) (n : Half) : tagField (bodyHeader kind n) = 1 := by
  cases kind <;> simp [tagField, BodyKind.tagBits] <;> omega

@[simp] theorem cField_bodyHeader (kind : BodyKind) (n : Half) :
    cField (bodyHeader kind n) = BitVec.ofNat 8 (kind.tagBits.toNat / 256) := by
  apply BitVec.eq_of_toNat_eq
  cases kind <;> simp [cField, BodyKind.tagBits] <;> omega

@[simp] theorem nField_bodyHeader (kind : BodyKind) (n : Half) : nField (bodyHeader kind n) = n := by
  have ht := tagBits_lt kind
  have hn := n.isLt
  apply BitVec.eq_of_toNat_eq
  simp [nField]; omega

@[simp] theorem tagField_charHeader (c : Byte) : tagField (charHeader c) = 2 := by
  simp [tagField]

/-! ### Each space's decoder on the encoder's words -/

theorem decodeCommand_of_encode {i : Instr} {w : Word} {p : Payload} (h : encode i = .command w p) :
    decodeCommand w p = .ok i := by
  cases i
  case free | deq => cases h; simp [decodeCommand]
  case enqc c | putc c | echar c => cases h; simp [decodeCommand]
  case enqf n q | putb n q | eascii n q | ehex1 n q | ehex2 n q | ehex4 n q => cases h; simp [decodeCommand]
  case init n => cases h; simp [decodeCommand]
  case etrace id => cases h; simp [decodeCommand]
  case reserved0 r | reservedE r => cases h; simp [decodeCommand]
  case sendword v => cases h; simp [decodeCommand]
  all_goals cases h

/-- A body message's header decodes to its own instruction, told apart by WIDTH (30_encoding.md R79). -/
theorem decodeHeader_bodyHeader (kind : BodyKind) (n : Half) (units : List Word) :
    decodeHeader (bodyHeader kind n) = .ok (Machine.headerInstr (.body kind n units)) := by
  cases kind <;> simp [decodeHeader, Machine.headerInstr, BodyKind.tagBits]

theorem decodeHeader_of_encode {i : Instr} {w : Word} (h : encode i = .header w) : decodeHeader w = .ok i := by
  cases i
  case hdrTrace id => cases h; simp [decodeHeader]
  case hdrAscii n => cases h; exact decodeHeader_bodyHeader .ascii n []
  case hdrHex1 n => cases h; exact decodeHeader_bodyHeader .hex1 n []
  case hdrHex2 n => cases h; exact decodeHeader_bodyHeader .hex2 n []
  case hdrHex4 n => cases h; exact decodeHeader_bodyHeader .hex4 n []
  case hdrChar c =>
    cases h
    have hc : BitVec.ofNat 8 ((charHeader c).toNat / 2 ^ charShift) = c := by
      apply BitVec.eq_of_toNat_eq
      simp [charShift]; omega
    simp only [decodeHeader, tagField_charHeader, hc]
  all_goals cases h

theorem decodeFifo_frame {b : Byte} (hb : b ≠ 0) (l : List Byte) : decodeFifo (b :: l) = .ok (.qfFrame b, l) := if_neg hb

theorem decodeFifo_marker (c : Byte) (l : List Byte) : decodeFifo (0 :: c :: l) = .ok (.qfChar c, l) := rfl

theorem decodeFifo_of_encode {i : Instr} {bs : List Byte} (hi : i.encodable = true) (h : encode i = .fifo bs) :
    decodeFifo bs = .ok (i, []) := by
  cases i
  case qfFrame len => cases h; exact decodeFifo_frame (of_decide_eq_true hi) []
  case qfChar c => cases h; exact decodeFifo_marker c []
  all_goals cases h

/-! ### The round trip (O1) -/

/-- Settles O1, space by space. -/
theorem everyInstructionDecodesBack : Obligations.EveryInstructionDecodesBack := by
  unfold Obligations.EveryInstructionDecodesBack
  intro i hi
  cases he : encode i with
  | command w p => exact decodeCommand_of_encode he
  | header w => exact decodeHeader_of_encode he
  | fifo bs => rw [decode, decodeFifo_of_encode hi he]; rfl

/-! ### The one reading of a command word (O2) -/

/-- What a format's guard lets through is the guarded instruction, and the guard held. -/
theorem encode_of_guarded {b : Bool} {a i : Instr} {e : DecodeError} {w : Word} {p : Payload}
    (h : (if b = true then .ok a else .error e : Except DecodeError Instr) = .ok i)
    (ha : b = true → encode a = .command w p) : ∃ q, encode i = .command w q := by
  split at h
  next hb => cases h; exact ⟨p, ha hb⟩
  next => cases h

theorem opField_lt (w : Word) : opField w < 16 := Nat.mod_lt _ (by decide)

/-- Settles O2: by the opcode, whose format requires every bit to be 0 that is in no operand. -/
theorem commandWordHasOneReading : Obligations.CommandWordHasOneReading := by
  unfold Obligations.CommandWordHasOneReading
  intro w p i h
  have hlt := opField_lt w
  unfold decodeCommand at h
  split at h
  next hop => cases h; exact ⟨_, by rw [encode, encReserved_of_opField hop]⟩
  next hop => exact encode_of_guarded h fun hf => by rw [encode, encZ_of_format hop hf]
  next hop => exact encode_of_guarded h fun hf => by rw [encode, encN_of_format hop hf]
  next hop => exact encode_of_guarded h fun hf => by rw [encode, encC_of_format hop hf]
  next hop => exact encode_of_guarded h fun hf => by rw [encode, encC_of_format hop hf]
  next hop => exact encode_of_guarded h fun hf => by rw [encode, encN_of_format hop hf]
  next hop => exact encode_of_guarded h fun hf => by rw [encode, encZ_of_format hop hf]
  next hop =>
    split at h
    next hf =>
      split at h
      next v => cases h; exact ⟨_, by rw [encode, encZ_of_format hop hf]⟩
      next => cases h
    next => cases h
  next hop => exact encode_of_guarded h fun hf => by rw [encode, encT_of_format hop hf]
  next hop => exact encode_of_guarded h fun hf => by rw [encode, encN_of_format hop hf]
  next hop => exact encode_of_guarded h fun hf => by rw [encode, encN_of_format hop hf]
  next hop => exact encode_of_guarded h fun hf => by rw [encode, encN_of_format hop hf]
  next hop => exact encode_of_guarded h fun hf => by rw [encode, encN_of_format hop hf]
  next hop => exact encode_of_guarded h fun hf => by rw [encode, encC_of_format hop hf]
  next hop => cases h; exact ⟨_, by rw [encode, encReserved_of_opField hop]⟩
  next =>
    have hop : opField w = 15 := by grind
    exact encode_of_guarded h fun hf => by rw [encode, encN_of_format hop hf]

/-! ### The words of the spec's vectors (O3) -/

/-- Settles O3: each line is the decoder run on one word of 95_test_vectors.md. -/
theorem specWordsDecode : Obligations.SpecWordsDecode := by
  unfold Obligations.SpecWordsDecode
  decide

end Sys2Proof
end

section
/-! A step that presents a command word, and a step of the sequencer that reads a FIFO form: which instruction is executed. -/

namespace Sys2Proof.Machine

theorem step_of_scheduled {s : State} {t : Turn} {rest : List Turn} (hmark : s.mark = none) (hinbox : s.inbox = t :: rest) :
    step s = runTurn t { s with inbox := rest } := stepTakesTheNextTurn.1 s t rest hmark hinbox

/-! ### The command presented (O51) -/

theorem portFree_of_idle {s : State} (tr : Transaction) (h : s.grant = none) : portFree tr s = true := by
  unfold portFree
  rw [h]
  cases tr.port <;> rfl

theorem clientHolds_iff {tr : Transaction} {s : State} :
    clientHolds tr s = true ↔ tr.agent = .client ∧ s.inited = true ∧ s.dstate ≠ .none := by
  simp [clientHolds, latchFull, and_assoc]

/-- A transaction that neither its agent nor the port holds back executes the instruction its word decodes to. -/
theorem commandTurn_of_decodes {tr : Transaction} {s : State} {i : Instr} (ha : agentExists s tr.agent = true)
    (hp : portFree tr s = true) (hc : clientHolds tr s = false) (hd : decodeCommand tr.word tr.payload = .ok i) :
    commandTurn tr s = exec i (presented tr s) := by
  simp only [commandTurn, presented, ha, hp, hc, hd, Bool.true_eq_false, Bool.false_eq_true, if_false]

/-- The held client's word is not looked at (log 22). -/
theorem commandTurn_of_clientHolds {tr : Transaction} {s : State} (ha : agentExists s tr.agent = true)
    (hp : portFree tr s = true) (hc : clientHolds tr s = true) : commandTurn tr s = .next s := by
  simp only [commandTurn, ha, hp, hc, Bool.true_eq_false, if_false, if_true, hold]

/-- Settles O51: the agent exists and the port is free, so only the client's hold on a full latch stands before the decoder. -/
theorem stepExecutesThePresentedCommand : Obligations.StepExecutesThePresentedCommand := by
  unfold Obligations.StepExecutesThePresentedCommand
  intro s tr rest i hmark hgrant hinbox hagent
  have hport : portFree tr { s with inbox := rest } = true := portFree_of_idle tr hgrant
  rw [step_of_scheduled hmark hinbox]
  constructor
  · intro hfree hdec
    exact commandTurn_of_decodes hagent hport (Bool.eq_false_iff.mpr fun hc => hfree (clientHolds_iff.mp hc)) hdec
  · intro hclient hinit hfull
    exact commandTurn_of_clientHolds hagent hport (clientHolds_iff.mpr ⟨hclient, hinit, hfull⟩)

/-! ### The FIFO form read (O52) -/

theorem decodeFifo_ok_cases {bs tail : List Byte} {i : Instr} (h : decodeFifo bs = .ok (i, tail)) :
    (∃ b, b ≠ 0 ∧ bs = b :: tail ∧ i = .qfFrame b) ∨ ∃ c, bs = 0 :: c :: tail ∧ i = .qfChar c := by
  unfold decodeFifo at h
  split at h
  next => cases h
  next b rest =>
    split at h
    next hb =>
      subst hb
      split at h
      next => cases h
      next c rest' => cases h; exact .inr ⟨c, rfl, rfl⟩
    next hb => cases h; exact .inl ⟨b, hb, rfl, rfl⟩

theorem fetchBytes_of_awaitLength {s : State} (hp : s.phase = .awaitLength) :
    fetchBytes s = [peek s s.rd, peek s (adv s s.rd)] := by
  simp only [fetchBytes, hp]

theorem fetchBytes_of_streamChar {s : State} (hp : s.phase = .streamChar) : fetchBytes s = [0, peek s s.rd] := by
  simp only [fetchBytes, hp]

theorem fifoStep_of_decodes {s : State} {i : Instr} {tail : List Byte} (h : decodeFifo (fetchBytes s) = .ok (i, tail)) :
    fifoStep s = exec i (asSequencer s) := by
  simp only [fifoStep, h]

/-- At a boundary the two bytes fetched name the unit that the bytes held begin with: a length byte by itself, a marker with
the character behind it. -/
theorem fifoStep_of_held {s : State} {i : Instr} {tail : List Byte} (hf : FifoInv s) (hp : s.phase = .awaitLength)
    (h : decodeFifo (held s) = .ok (i, tail)) : fifoStep s = exec i (asSequencer s) := by
  rcases decodeFifo_ok_cases h with ⟨b, hb, hheld, rfl⟩ | ⟨c, hheld, rfl⟩
  · apply fifoStep_of_decodes
    rw [fetchBytes_of_awaitLength hp, peek_head hf.rdLt hheld]
    exact decodeFifo_frame hb _
  · have hc : peek s (adv s s.rd) = c := peek_of_held (j := 1) (by rw [hheld]; rfl)
    apply fifoStep_of_decodes
    rw [fetchBytes_of_awaitLength hp, peek_head hf.rdLt hheld, hc]
    exact decodeFifo_marker c _

/-- After a marker the oldest byte held is the character. -/
theorem fifoStep_of_streamChar {s : State} {c : Byte} {tail : List Byte} (hf : FifoInv s) (hp : s.phase = .streamChar)
    (h : held s = c :: tail) : fifoStep s = exec (.qfChar c) (asSequencer s) := by
  apply fifoStep_of_decodes
  rw [fetchBytes_of_streamChar hp, peek_head hf.rdLt h]
  exact decodeFifo_marker c _

theorem cnt_pos_of_held {s : State} {b : Byte} {l : List Byte} (h : held s = b :: l) : 0 < s.cnt := by
  rw [← held_length, h]
  exact Nat.succ_pos _

/-- The sequencer's turn at a boundary with a byte held, the FIFO chosen (43_consumer.md R175). -/
theorem sequencerTurn_boundary {s : State} (hi : s.inited = true) (hb : s.tbusy = false) (hp : s.phase = .awaitLength)
    (hn : 0 < s.cnt) : sequencerTurn false s = fifoStep s := by
  simp [sequencerTurn, boundaryStep, hi, hb, hp, hn]

theorem sequencerTurn_streamChar {s : State} (d : Bool) (hi : s.inited = true) (hb : s.tbusy = false)
    (hp : s.phase = .streamChar) (hn : 0 < s.cnt) : sequencerTurn d s = fifoStep s := by
  simp [sequencerTurn, hi, hb, hp, hn]

theorem FifoInv.withInbox {s : State} (h : FifoInv s) (ts : List Turn) : FifoInv { s with inbox := ts } :=
  h.congr rfl rfl rfl rfl rfl rfl rfl rfl

/-- Settles O52: the turn is the FIFO's step, and the bytes it fetches name the form that the bytes held begin with. -/
theorem stepExecutesTheFifoForm : Obligations.StepExecutesTheFifoForm := by
  unfold Obligations.StepExecutesTheFifoForm
  constructor
  · intro s rest i tail hmark hinit hbusy hfifo hphase hinbox hdec
    have hn : 0 < s.cnt := by
      rcases decodeFifo_ok_cases hdec with ⟨b, -, hheld, -⟩ | ⟨c, hheld, -⟩
      · exact cnt_pos_of_held hheld
      · exact cnt_pos_of_held hheld
    calc step s = sequencerTurn false { s with inbox := rest } := step_of_scheduled hmark hinbox
      _ = fifoStep { s with inbox := rest } := sequencerTurn_boundary hinit hbusy hphase hn
      _ = _ := fifoStep_of_held (hfifo.withInbox rest) hphase hdec
  · intro s d rest c tail hmark hinit hbusy hfifo hphase hinbox hheld
    calc step s = sequencerTurn d { s with inbox := rest } := step_of_scheduled hmark hinbox
      _ = fifoStep { s with inbox := rest } := sequencerTurn_streamChar d hinit hbusy hphase (cnt_pos_of_held hheld)
      _ = _ := fifoStep_of_streamChar (hfifo.withInbox rest) hphase hheld

end Sys2Proof.Machine
end

section
/-! The words as the host reassembles them from the channel's values. -/

namespace Sys2Proof.Machine

/-! ### Four bytes and their word (40_word_transport.md R110, R111) -/

/-- Bit `i` of byte `j` of a word, shifted back into its place. -/
theorem getLsbD_placedByte (w : Word) (j : Nat) {i : Nat} (hi : i < 32) :
    (((wordByte w j).setWidth 32 : Word) <<< (8 * j)).getLsbD i = (decide (8 * j ≤ i ∧ i < 8 * j + 8) && w.getLsbD i) := by
  rw [wordByte_eq, BitVec.getLsbD_shiftLeft, BitVec.getLsbD_setWidth, BitVec.getLsbD_setWidth, BitVec.getLsbD_ushiftRight]
  by_cases hj : 8 * j ≤ i
  · have hplace : 8 * j + (i - 8 * j) = i := by omega
    have hlane : (i - 8 * j < 8) ↔ (i < 8 * j + 8) := by omega
    have hword : i - 8 * j < 32 := by omega
    simp [hi, hj, hplace, hlane, hword]
  · simp [hj, Nat.lt_of_not_le hj]

/-- A word is its four bytes, each in its place: every bit lies in exactly one of the four lanes. -/
theorem or_placedBytes (w : Word) :
    ((wordByte w 0).setWidth 32 ||| ((wordByte w 1).setWidth 32 <<< 8) ||| ((wordByte w 2).setWidth 32 <<< 16) |||
      ((wordByte w 3).setWidth 32 <<< 24) : Word) = w := by
  apply BitVec.eq_of_getLsbD_eq
  intro i hi
  have h0 := getLsbD_placedByte w 0 hi
  have h1 := getLsbD_placedByte w 1 hi
  have h2 := getLsbD_placedByte w 2 hi
  have h3 := getLsbD_placedByte w 3 hi
  simp only [Nat.mul_zero, BitVec.shiftLeft_zero] at h0
  rw [BitVec.getLsbD_or, BitVec.getLsbD_or, BitVec.getLsbD_or, h0, h1, h2, h3, ← Bool.and_or_distrib_right,
    ← Bool.and_or_distrib_right, ← Bool.and_or_distrib_right]
  have hlane : (0 ≤ i ∧ i < 0 + 8) ∨ (8 * 1 ≤ i ∧ i < 8 * 1 + 8) ∨ (8 * 2 ≤ i ∧ i < 8 * 2 + 8) ∨
      (8 * 3 ≤ i ∧ i < 8 * 3 + 8) := by omega
  rcases hlane with h | h | h | h <;> simp [h]

theorem reassemble_channelValues (v : Variant) (w : Word) (rest : List Word) :
    reassemble v (channelValues v w ++ rest) = w :: reassemble v rest := by
  cases v with
  | modern =>
    show _ :: reassembleBytes rest = w :: reassembleBytes rest
    rw [or_placedBytes]
  | legacy => rfl

/-- Settles O7, word by word: the host takes back each word in front of the values of the rest. -/
theorem variantsDeliverTheSameWords : Obligations.VariantsDeliverTheSameWords := by
  unfold Obligations.VariantsDeliverTheSameWords
  intro v ws
  induction ws with
  | nil => cases v <;> rfl
  | cons w ws ih => rw [List.flatMap_cons, reassemble_channelValues, ih]

end Sys2Proof.Machine
end

section
/-! The controller, the host and the tick source, turn by turn: the state each of their turns answers, and a word's whole way
across the channel. -/

namespace Sys2Proof.Machine

/-! ### The start of a transfer (O31) -/

/-- Settles O31: the encoder's SENDWORD is admitted, and the transfer in progress alone decides between start and hold. -/
theorem sendwordStartsTheTransfer : Obligations.SendwordStartsTheTransfer := by
  unfold Obligations.SendwordStartsTheTransfer
  rintro s v ⟨hinit, hissuer⟩
  have hexec : exec (.sendword v) s = if s.tbusy then hold s else .next (emit v s) := by
    simp only [exec, execSendword, admission_sequencer true hinit hissuer rfl, admitted_none]
  constructor
  · intro hbusy
    rw [hexec, hbusy]
    rfl
  · intro hbusy
    rw [hexec, hbusy]
    rfl

/-! ### The controller's turn (40_word_transport.md R102 to R104) -/

theorem runTurn_controller_idle {s : State} (ht : s.tbusy = false) : runTurn .controller s = .next s := by
  simp [runTurn, controllerTurn, ht, hold]

theorem runTurn_controller_busy {s : State} (hi : s.inited = true) (ht : s.tbusy = true) (hb : s.chBusy = true) :
    runTurn .controller s = .next (escalate s) := by
  simp [runTurn, controllerTurn, hi, ht, hb]

theorem runTurn_controller_modern {s : State} (hi : s.inited = true) (ht : s.tbusy = true) (hx : s.hidx < 4)
    (hb : s.chBusy = false) (hv : s.params.variant = .modern) : runTurn .controller s = .next (handshake s) := by
  simp [runTurn, controllerTurn, hi, ht, hx, hb, hv]

theorem runTurn_controller_legacy {s : State} (hi : s.inited = true) (ht : s.tbusy = true) (hb : s.chBusy = false)
    (hv : s.params.variant = .legacy) : runTurn .controller s = .next (wordWrite s) := by
  simp [runTurn, controllerTurn, hi, ht, hb, hv]

/-- The handshake field by field, its last byte and the others at once (40_word_transport.md R103). -/
theorem handshake_eq {s : State} (ht : s.tbusy = true) (hv : s.params.variant = .modern) :
    handshake s = { s with
      chData := (wordByte s.tword s.hidx).setWidth 32, chBusy := true, chOther := 0,
      wire := s.wire ++ [(wordByte s.tword s.hidx).setWidth 32], hidx := s.hidx + 1,
      tbusy := if s.hidx + 1 = 4 then false else true, tier := if s.hidx + 1 = 4 then s.tier else .fast,
      tticks := if s.hidx + 1 = 4 then s.tticks else 0 } := by
  by_cases hlast : s.hidx + 1 = 4
  · simp only [handshake, channelWrite, hv, hlast, if_true]
  · simp only [handshake, channelWrite, hv, hlast, if_false, ht]

/-- The LEGACY write field by field: CHS keeps its other bits (40_word_transport.md R104). -/
theorem wordWrite_eq {s : State} (hv : s.params.variant = .legacy) :
    wordWrite s = { s with chData := s.tword, chBusy := true, wire := s.wire ++ [s.tword], tbusy := false } := by
  simp only [wordWrite, channelWrite, hv]

/-- Settles O45. -/
theorem legacyWriteSendsTheWord : Obligations.LegacyWriteSendsTheWord := by
  unfold Obligations.LegacyWriteSendsTheWord
  intro s hi ht hb hv
  rw [runTurn_controller_legacy hi ht hb hv, wordWrite_eq hv]

/-! ### What the MODERN register reads after a write (30_encoding.md R84) -/

theorem getLsbD_regMask (p : Params) {i : Nat} (hi : i < 32) : (regMask p).getLsbD i = decide (i < p.chRegWidth.bits) := by
  rw [regMask, BitVec.getLsbD_ofNat, Nat.testBit_two_pow_sub_one]
  simp [hi]

/-- A byte in the data lane of a register that has the whole lane is not cut. -/
theorem lane_and_regMask {p : Params} (b : Byte) (hlane : p.mDataLsb.val + 8 ≤ p.chRegWidth.bits) :
    ((b.setWidth 32 : Word) <<< p.mDataLsb.val) &&& regMask p = (b.setWidth 32 : Word) <<< p.mDataLsb.val := by
  apply BitVec.eq_of_getLsbD_eq
  intro i hi
  rw [BitVec.getLsbD_and, getLsbD_regMask p hi]
  by_cases hin : i < p.chRegWidth.bits
  · simp [hin]
  · have hout : 8 ≤ i - p.mDataLsb.val := by omega
    simp [hin, BitVec.getLsbD_of_ge b _ hout]

theorem byte_and_dataField (b : Byte) : (b.setWidth 32 : Word) &&& 0xFF = b.setWidth 32 := by
  apply BitVec.eq_of_toNat_eq
  have hb := b.isLt
  simp [Nat.and_two_pow_sub_one_eq_mod _ 8]
  omega

theorem lane_le_of_legal {p : Params} (h : p.legal = true) : p.mDataLsb.val + 8 ≤ p.chRegWidth.bits := by
  simp only [Params.legal, Bool.and_eq_true, decide_eq_true_eq] at h
  obtain ⟨⟨⟨-, hlane⟩, -⟩, -⟩ := h
  exact hlane

/-- A channel with BUSY 1, a byte of data and the other bits 0 reads as the value a handshake writes. -/
theorem channelRead_of_written {s : State} (b : Byte) (hv : s.params.variant = .modern) (hl : s.params.legal = true)
    (hb : s.chBusy = true) (hd : s.chData = b.setWidth 32) (ho : s.chOther = 0) :
    channelRead s = channelWriteValue s.params b := by
  have hzeros (x : Word) : (0 &&& ~~~(laneMask s.params)) ||| x = x := by simp
  simp only [channelRead, busyBit, putBit, hv, hb, hd, ho, byte_and_dataField, hzeros,
    lane_and_regMask b (lane_le_of_legal hl), if_true, channelWriteValue]

/-- Settles O44: the turn is a handshake, and the register then reads the value that a handshake writes. -/
theorem modernHandshakeWritesOneByte : Obligations.ModernHandshakeWritesOneByte := by
  unfold Obligations.ModernHandshakeWritesOneByte
  intro s b hi ht hx hb hv hbyte
  rw [← wordByte_eq] at hbyte
  subst hbyte
  refine ⟨_, (runTurn_controller_modern hi ht hx hb hv).trans (congrArg _ (handshake_eq ht hv)), rfl, fun hl => ?_⟩
  exact channelRead_of_written (wordByte s.tword s.hidx) hv hl rfl rfl rfl

/-! ### The wait on BUSY (40_word_transport.md R102, R106) -/

/-- After INIT no command on a port writes BUSY. -/
theorem PortEffect.chBusy_eq {s t : State} (h : PortEffect s t) (hi : s.inited = true) : t.chBusy = s.chBusy := by
  cases h with
  | hold => rfl
  | refused r => rfl
  | result v _ => simp
  | enqueued u v _ _ _ => simp
  | latched cmd _ _ _ => rfl
  | initialised n hn _ _ => rw [hi] at hn; cases hn

theorem SequencerEffect.chBusy_eq {s t : State} (h : SequencerEffect s t) : t.chBusy = s.chBusy := by
  cases h with
  | direct cmd _ _ _ _ _ => cases cmd <;> rfl
  | marker _ _ _ _ _ => unfold afterMarker; split <;> rfl
  | frameByte b _ _ _ _ _ _ => simp [afterFrameByte]
  | directUnit e rest _ _ _ _ _ => simp
  | _ => rfl

/-- No turn but the host's clears BUSY: the controller writes only when it reads 0, and no other turn touches it. -/
theorem runTurn_keeps_busy {tn : Turn} {s t : State} (hi : s.inited = true) (hb : s.chBusy = true) (hne : tn ≠ .host)
    (h : runTurn tn s = .next t) : t.chBusy = true := by
  cases tn with
  | host => exact absurd rfl hne
  | command tr =>
    rcases commandTurn_effect h with rfl | heff
    · exact hb
    · exact (heff.chBusy_eq hi).trans hb
  | sequencer d => exact (sequencerTurn_effect h).chBusy_eq.trans hb
  | controller =>
    rcases controllerTurn_cases h with rfl | ⟨-, -, -, rfl⟩ | ⟨-, -, hfree, -, -, -⟩ | ⟨-, -, hfree, -, -⟩
    · exact hb
    · rw [escalate_chBusy, hb]
    · rw [hb] at hfree; cases hfree
    · rw [hb] at hfree; cases hfree
  | client => rcases clientTurn_cases h with rfl | ⟨-, -, rfl⟩ <;> exact hb
  | tick =>
    rcases tickTurn_cases h with rfl | ⟨-, -, -, rfl⟩
    · exact hb
    · rw [escalate_chBusy, hb]

/-- Settles O46: a poll of a busy channel is the tier's rule alone, and only the host's turn can clear BUSY. -/
theorem busyPollChangesOnlyTheTimer : Obligations.BusyPollChangesOnlyTheTimer := by
  unfold Obligations.BusyPollChangesOnlyTheTimer
  refine ⟨fun s hi ht hb => ?_, fun s ht => runTurn_controller_idle ht, pollBusy_eq, fun s t hi hb h hfree => ?_⟩
  · exact ⟨escalate s, runTurn_controller_busy hi ht hb, escalate_eq s⟩
  · by_contra hne
    have hbusy : t.chBusy = true := runTurn_keeps_busy (by simpa using hi) (by simpa using hb) hne (runTurn_of_step h)
    rw [hfree] at hbusy
    cases hbusy

/-- Settles O47: a tick of a wait counts and then applies the tier's rule to the new count; any other tick holds. -/
theorem tierTurnsSlowAtTheThreshold : Obligations.TierTurnsSlowAtTheThreshold := by
  unfold Obligations.TierTurnsSlowAtTheThreshold
  constructor
  · intro s hi ht hb
    have hwait : runTurn .tick s = .next (escalate { s with tticks := s.tticks + 1 }) := by
      simp [runTurn, tickTurn, hi, ht, hb]
    rw [hwait, escalate_eq, escalate_tier]
  · rintro s (ht | hb)
    · simp [holds, runTurn, tickTurn, ht, hold]
    · simp [holds, runTurn, tickTurn, hb, hold]

/-! ### A word's way across the channel (O49) -/

theorem runTurn_host_busy {s : State} (hi : s.inited = true) (hb : s.chBusy = true) :
    runTurn .host s = .next { s with hostrx := s.hostrx ++ [s.chData], chBusy := false } := by
  simp [runTurn, hostTurn, hi, hb]

theorem runTurns_cons {tn : Turn} {s t : State} (ts : List Turn) (h : runTurn tn s = .next t) :
    runTurns (tn :: ts) s = runTurns ts t := by
  simp only [runTurns, h]

/-- The state once the next byte of a MODERN transfer, not its last, is written and the host has taken it. -/
def byteCrossed (s : State) : State :=
  { s with
    chData := (wordByte s.tword s.hidx).setWidth 32, chBusy := false, chOther := 0,
    wire := s.wire ++ [(wordByte s.tword s.hidx).setWidth 32],
    hostrx := s.hostrx ++ [(wordByte s.tword s.hidx).setWidth 32], hidx := s.hidx + 1, tier := .fast, tticks := 0 }

/-- A poll and a take move one byte that is not the last, and the channel is free for the next one. -/
theorem runTurns_byte {s : State} (ts : List Turn) (hi : s.inited = true) (ht : s.tbusy = true) (hx : s.hidx < 3)
    (hb : s.chBusy = false) (hv : s.params.variant = .modern) :
    runTurns (.controller :: .host :: ts) s = runTurns ts (byteCrossed s) := by
  have hnotlast : ¬ s.hidx + 1 = 4 := by omega
  have hpoll := runTurn_controller_modern hi ht (by omega) hb hv
  have htake := runTurn_host_busy (s := handshake s) (by rw [handshake_eq ht hv, hi]) (by rw [handshake_eq ht hv])
  rw [runTurns_cons _ hpoll, runTurns_cons _ htake, handshake_eq ht hv]
  simp only [byteCrossed, hnotlast, if_false, ht]

/-- Three bytes cross, and the fourth handshake finds the channel free. -/
theorem runTurns_word_modern {s : State} (hi : s.inited = true) (ht : s.tbusy = true) (hx : s.hidx = 0)
    (hb : s.chBusy = false) (hv : s.params.variant = .modern) :
    runTurns [.controller, .host, .controller, .host, .controller, .host, .controller] s =
      .next (handshake (byteCrossed (byteCrossed (byteCrossed s)))) := by
  have h1 : (byteCrossed s).hidx = 1 := congrArg (· + 1) hx
  have h2 : (byteCrossed (byteCrossed s)).hidx = 2 := congrArg (· + 1) h1
  have h3 : (byteCrossed (byteCrossed (byteCrossed s))).hidx = 3 := congrArg (· + 1) h2
  calc
    _ = runTurns [.controller, .host, .controller, .host, .controller] (byteCrossed s) :=
      runTurns_byte _ hi ht (by omega) hb hv
    _ = runTurns [.controller, .host, .controller] (byteCrossed (byteCrossed s)) :=
      runTurns_byte (s := byteCrossed s) _ hi ht (by omega) rfl hv
    _ = runTurns [.controller] (byteCrossed (byteCrossed (byteCrossed s))) :=
      runTurns_byte (s := byteCrossed (byteCrossed s)) _ hi ht (by omega) rfl hv
    _ = _ := runTurns_cons [] (runTurn_controller_modern hi ht (by omega) rfl hv)

/-- Settles O49: in MODERN three bytes cross and the fourth handshake ends the transfer; in LEGACY the one write does. -/
theorem wordCrossesTheChannelWhole : Obligations.WordCrossesTheChannelWhole := by
  unfold Obligations.WordCrossesTheChannelWhole
  intro s hi ht hx hb
  cases hv : s.params.variant with
  | modern =>
    refine ⟨_, runTurns_word_modern hi ht hx hb hv, ?_⟩
    rw [handshake_eq (s := byteCrossed (byteCrossed (byteCrossed s))) ht hv]
    simp [byteCrossed, channelValues, hx]
  | legacy =>
    refine ⟨_, runTurns_cons [] (runTurn_controller_legacy hi ht hb hv), ?_⟩
    rw [wordWrite_eq hv]
    simp [channelValues]

end Sys2Proof.Machine
end

section
/-! A body word by word: how many words there are, and that the host's unpacking gives the units back. -/

namespace Sys2Proof.Machine

/-! ### Splitting a body into its words (41_frame_encoder.md R126) -/

/-- Induction over a body's words: units that fill a word, or that are the body's last ones, in front of the rest. -/
theorem body_induction (u : UnitSize) {P : List Word → Prop} (nil : P [])
    (word : ∀ ys zs, ys ≠ [] → (ys.length = u.perWord ∨ (ys.length ≤ u.perWord ∧ zs = [])) → P zs → P (ys ++ zs))
    (xs : List Word) : P xs := by
  have hp := perWord_pos u
  induction hn : xs.length using Nat.strong_induction_on generalizing xs with
  | _ n ih =>
    by_cases hne : xs = []
    · rw [hne]; exact nil
    · have hlen : 0 < xs.length := List.length_pos_iff.mpr hne
      have hrest : P (xs.drop u.perWord) := ih _ (by rw [List.length_drop]; omega) _ rfl
      rw [← List.take_append_drop u.perWord xs]
      refine word _ _ (by simp [hne]; omega) ?_ hrest
      rw [List.length_take, ← List.length_eq_zero_iff, List.length_drop]
      omega

/-- Units that make one word are counted as one word, before the words of the rest. -/
theorem bodyWords_add {u : UnitSize} {m n : Nat} (hm : 0 < m) (h : m = u.perWord ∨ (m ≤ u.perWord ∧ n = 0)) :
    bodyWords u (m + n) = bodyWords u n + 1 := by
  cases u <;> simp only [bodyWords, UnitSize.perWord, UnitSize.bytes] at * <;> omega

theorem length_packBody (u : UnitSize) (xs : List Word) : (packBody u xs).length = bodyWords u xs.length := by
  induction xs using body_induction u with
  | nil => cases u <;> rfl
  | word ys zs hne hl ih =>
    have hpos : 0 < ys.length := List.length_pos_iff.mpr hne
    rw [packBody_append hne hl, List.length_cons, ih, List.length_append,
      bodyWords_add hpos (by rwa [List.length_eq_zero_iff])]

/-! ### The encoder's packing (O5) -/

/-- From an empty accumulator the encoder yields the words of the closed form. -/
theorem packRest_zero {u : UnitSize} {xs : List Word} (hs : ∀ e ∈ xs, e.toNat < 2 ^ (8 * u.bytes)) :
    packRest u 0 0 xs = packBody u xs :=
  packRest_eq_packBody (accHolds_nil u) (perWord_pos u) (fun _ => rfl) hs

/-- Settles O5: the packing is the closed form's with nothing in the accumulator, and the words are counted one by one. -/
theorem encoderPacksAsClosedForm : Obligations.EncoderPacksAsClosedForm := by
  unfold Obligations.EncoderPacksAsClosedForm
  intro u xs hs
  exact ⟨packRest_zero hs, length_packBody u xs⟩

/-! ### The host's unpacking (30_encoding.md R79) -/

theorem length_unpackWord (u : UnitSize) (w : Word) : (unpackWord u w).length = u.perWord := by simp [unpackWord]

/-- A body word unpacks to its units, and then to zeros where it was not full. -/
theorem take_unpackWord_packWord {u : UnitSize} {ys : List Word} (hl : ys.length ≤ u.perWord)
    (hs : ∀ e ∈ ys, e.toNat < 2 ^ (8 * u.bytes)) : (unpackWord u (packWord u ys)).take ys.length = ys := by
  apply List.ext_getElem
  · rw [List.length_take, length_unpackWord, Nat.min_eq_left hl]
  · intro j _ hj
    simp [unpackWord, packWord_getUnit hj hl hs]

/-- The words of a body unpack to its units; what the last word has past them is cut off. -/
theorem take_flatMap_unpackWord_packBody {u : UnitSize} {xs : List Word} (hs : ∀ e ∈ xs, e.toNat < 2 ^ (8 * u.bytes)) :
    ((packBody u xs).flatMap (unpackWord u)).take xs.length = xs := by
  induction xs using body_induction u with
  | nil => rfl
  | word ys zs hne hl ih =>
    have hys := take_unpackWord_packWord (u := u) (ys := ys) (by omega) (fun e he => hs e (List.mem_append_left _ he))
    rw [packBody_append hne hl, List.flatMap_cons, List.length_append]
    rcases hl with hfull | ⟨hle, rfl⟩
    · have hword : unpackWord u (packWord u ys) = ys := by
        rwa [hfull, List.take_of_length_le (length_unpackWord u _).le] at hys
      rw [hword, List.take_length_add_append, ih (fun e he => hs e (List.mem_append_right _ he))]
    · simpa [packBody_nil] using hys

theorem decodeBody_packBody {kind : BodyKind} {units : List Word} (rest : List Word)
    (hs : ∀ e ∈ units, e.toNat < 2 ^ (8 * kind.unit.bytes)) :
    decodeBody kind units.length (packBody kind.unit units ++ rest) = some (.body kind units, rest) := by
  have hlen := length_packBody kind.unit units
  simp only [decodeBody]
  rw [if_pos (by rw [List.length_append]; omega), List.take_left' hlen, List.drop_left' hlen,
    take_flatMap_unpackWord_packBody hs]

/-! ### The message read back (O4) -/

theorem decodeMessage_bodyHeader (kind : BodyKind) (n : Half) (ws : List Word) :
    decodeMessage (bodyHeader kind n :: ws) = decodeBody kind n.toNat ws := by
  simp only [decodeMessage, decodeHeader_bodyHeader kind n []]
  cases kind <;> rfl

theorem decodeMessage_traceHeader (id : BitVec 24) (ws : List Word) :
    decodeMessage (traceHeader id :: ws) = some (.trace id, ws) := by
  simp only [decodeMessage, decodeHeader_of_encode (i := .hdrTrace id) rfl]

theorem decodeMessage_charHeader (c : Byte) (ws : List Word) :
    decodeMessage (charHeader c :: ws) = some (.char c, ws) := by
  simp only [decodeMessage, decodeHeader_of_encode (i := .hdrChar c) rfl]

/-- What the encoder accepts of a body message. -/
theorem messageOk_body_iff {kind : BodyKind} {units : List Word} :
    Message.ok (.body kind units) = true ↔ units.length ≤ 65535 ∧ ∀ e ∈ units, e.toNat < 2 ^ (8 * kind.unit.bytes) := by
  simp only [Message.ok, Bool.and_eq_true, decide_eq_true_eq, List.all_eq_true]

/-- Settles O4: the header names the message, and for one with a body the count it carries is the number of units, which its
words unpack to. -/
theorem messageDecodesBack : Obligations.MessageDecodesBack := by
  unfold Obligations.MessageDecodesBack
  intro m rest hm
  cases m with
  | trace id => exact decodeMessage_traceHeader id rest
  | char c => exact decodeMessage_charHeader c rest
  | body kind units =>
    obtain ⟨hlen, hs⟩ := messageOk_body_iff.mp hm
    have hcount : (BitVec.ofNat 16 units.length).toNat = units.length := Nat.mod_eq_of_lt (by omega)
    rw [messageWords, List.cons_append, decodeMessage_bodyHeader, hcount, decodeBody_packBody rest hs]

end Sys2Proof.Machine
end

section
/-! The encoder inside a message: the state each of its steps answers, and the words issued and still owed along them. -/

namespace Sys2Proof.Machine

/-! ### The words of one unit step (41_frame_encoder.md R124) -/

/-- A unit step issues the words that its unit yields, and leaves the accumulator for the units after it. -/
theorem issued_unitStep {s : State} (e : Word) {es : List Word} (hb : s.tbusy = false) (hr : s.rem = es.length + 1) :
    issued (unitStep e s) ++ packRest s.unit (unitStep e s).acc (unitStep e s).k es =
      packRest s.unit s.acc s.k (e :: es) := by
  have hrem : s.rem - 1 = es.length := by omega
  by_cases hfull : s.k + 1 = s.unit.perWord ∨ es.length = 0
  · rw [packRest_emits s.acc e hfull, unitStep_emits e s (hrem ▸ hfull)]
    rfl
  · rw [packRest_keeps s.acc e hfull, unitStep_keeps e s (hrem ▸ hfull)]
    simp [issued, hb]

/-! ### The sequencer's turn inside a message (43_consumer.md R176) -/

theorem runTurn_frameStep {s : State} (d : Bool) (hi : s.inited = true) (hb : s.tbusy = false) (hp : s.phase = .streamFrame)
    (hr : 0 < s.rem) (hn : 0 < s.cnt) : runTurn (.sequencer d) s = frameStep s := by
  simp [runTurn, sequencerTurn, hi, hb, hp, hr, hn]

theorem runTurn_directUnit {s : State} (d : Bool) (hi : s.inited = true) (hb : s.tbusy = false) (hp : s.phase = .direct)
    (hr : 0 < s.rem) {e : Word} {rest : List Word} (he : s.dpay = e :: rest) :
    runTurn (.sequencer d) s = .next (unitStep e { asSequencer s with dpay := rest }) := by
  simp [runTurn, sequencerTurn, directUnit, hi, hb, hp, hr, he]

theorem runTurn_directFinish {s : State} (d : Bool) (hi : s.inited = true) (hb : s.tbusy = false) (hp : s.phase = .direct)
    (hr : s.rem = 0) :
    runTurn (.sequencer d) s = .next { asSequencer s with phase := .awaitLength, dstate := .done } := by
  simp [runTurn, sequencerTurn, directFinish, hi, hb, hp, hr]

theorem runTurn_directStart {s : State} (hi : s.inited = true) (hb : s.tbusy = false) (hp : s.phase = .awaitLength)
    (hd : s.dstate = .pending) {cmd : DirectCmd} (hq : s.dreq = some cmd) :
    runTurn (.sequencer true) s = .next (startedDirect cmd s) := by
  have hturn : runTurn (.sequencer true) s = directStart s := by
    simp [runTurn, sequencerTurn, boundaryStep, hi, hb, hp, hd]
  rw [hturn]
  unfold directStart
  split
  next cmd' hq' =>
    obtain rfl : cmd = cmd' := Option.some.inj (hq.symm.trans hq')
    exact exec_headerInstr (s := asSequencer { s with phase := .direct, dstate := .active, cwait := false }) cmd hi rfl hb
  next hnone => rw [hq] at hnone; cases hnone

/-- Under the FIFO's invariant the frame body step takes the oldest byte held (43_consumer.md R172). -/
theorem frameStep_of_inv {s : State} (h : FifoInv s) (hn : 0 < s.cnt) :
    ∃ b, frameStep s = .next (afterFrameByte b s) ∧ held s = b :: held (afterFrameByte b s) := by
  obtain ⟨b, htake, hheld, -⟩ := take_of_inv (s := asSequencer s) (h.congr rfl rfl rfl rfl rfl rfl rfl rfl) hn
  refine ⟨b, by rw [frameStep, htake]; rfl, ?_⟩
  rw [afterFrameByte, held_unitStep]
  exact hheld

/-! ### The words owed (O34) -/

theorem bodyOwed_of_direct {s : State} (hp : s.phase = .direct) : bodyOwed s = packRest s.unit s.acc s.k s.dpay := by
  simp only [bodyOwed, hp]

theorem bodyOwed_of_streamFrame {s : State} (hp : s.phase = .streamFrame) :
    bodyOwed s = packRest s.unit s.acc s.k (((held s).take s.rem).map (·.setWidth 32)) := by
  simp only [bodyOwed, hp]

/-- What a frame owes after a byte, in one form: with the last byte taken it owes nothing, whatever the accumulator. -/
theorem bodyOwed_afterFrameByte (b : Byte) (s : State) :
    bodyOwed (afterFrameByte b s) =
      packRest s.unit (afterFrameByte b s).acc (afterFrameByte b s).k
        (((held (afterFrameByte b s)).take (s.rem - 1)).map (·.setWidth 32)) := by
  have hunit : (afterFrameByte b s).unit = s.unit := by simp [afterFrameByte]
  have hrem : (afterFrameByte b s).rem = s.rem - 1 := by simp [afterFrameByte]
  have hphase : (afterFrameByte b s).phase = if s.rem = 1 then .awaitLength else .streamFrame := by simp [afterFrameByte]
  by_cases hlast : s.rem = 1
  · rw [if_pos hlast] at hphase
    simp [bodyOwed, hphase, hlast, packRest]
  · rw [if_neg hlast] at hphase
    rw [bodyOwed_of_streamFrame hphase, hunit, hrem]

theorem frameByte_conserves {s : State} {b : Byte} (hb : s.tbusy = false) (hp : s.phase = .streamFrame) (hr : 0 < s.rem)
    (hc : s.rem ≤ s.cnt) (hh : held s = b :: held (afterFrameByte b s)) :
    issued (afterFrameByte b s) ++ bodyOwed (afterFrameByte b s) = bodyOwed s := by
  have hlen : s.cnt = (held (afterFrameByte b s)).length + 1 := by rw [← held_length s, hh, List.length_cons]
  have htake : (held s).take s.rem = b :: (held (afterFrameByte b s)).take (s.rem - 1) := by
    rw [hh, List.take_cons hr]
  rw [bodyOwed_afterFrameByte, bodyOwed_of_streamFrame hp, htake, List.map_cons]
  refine issued_unitStep (s := { taken b (asSequencer s) with phase := _ }) _ hb ?_
  change s.rem = _
  rw [List.length_map, List.length_take]
  omega

theorem directUnit_conserves {s : State} {e : Word} {rest : List Word} (hb : s.tbusy = false) (hp : s.phase = .direct)
    (he : s.dpay = e :: rest) (hlen : s.dpay.length = s.rem) :
    issued (unitStep e { asSequencer s with dpay := rest }) ++ bodyOwed (unitStep e { asSequencer s with dpay := rest }) =
      bodyOwed s := by
  have hrem : s.rem = rest.length + 1 := by rw [← hlen, he, List.length_cons]
  rw [bodyOwed_of_direct (by simpa using hp), bodyOwed_of_direct hp, unitStep_unit, unitStep_dpay, he]
  exact issued_unitStep (s := { asSequencer s with dpay := rest }) e hb hrem

/-- Settles O34: in either phase the turn is one unit step, and the units it leaves are those that were to come after its own. -/
theorem bodyWordsAreConserved : Obligations.BodyWordsAreConserved := by
  unfold Obligations.BodyWordsAreConserved
  rintro s d hs hi hb hr (hp | hp)
  · obtain ⟨howed, -⟩ := hs.frames hi
    have hc : s.rem ≤ s.cnt := by simpa only [owed, hp] using howed
    obtain ⟨b, hstep, hheld⟩ := frameStep_of_inv (hs.fifo hi) (Nat.lt_of_lt_of_le hr hc)
    exact ⟨_, (runTurn_frameStep d hi hb hp hr (Nat.lt_of_lt_of_le hr hc)).trans hstep,
      frameByte_conserves hb hp hr hc hheld⟩
  · have hlen := (hs.encoder hi).dpay_of_direct hp
    cases he : s.dpay with
    | nil => rw [← hlen, he] at hr; exact absurd hr (Nat.lt_irrefl 0)
    | cons e rest => exact ⟨_, runTurn_directUnit d hi hb hp hr he, directUnit_conserves hb hp he hlen⟩

/-! ### A direct command's whole message (O35) -/

/-- A four-byte unit is a body word by itself. -/
theorem packBody_four (xs : List Word) : packBody .four xs = xs := by
  induction xs with
  | nil => rfl
  | cons x xs ih =>
    rw [packBody_cons]
    simp [UnitSize.perWord, packWord, ih]

theorem LatchInv.of_pending {s : State} (h : LatchInv s) (hd : s.dstate = .pending) {cmd : DirectCmd}
    (hq : s.dreq = some cmd) : cmdOk cmd ∧ s.dpay = directPayload cmd := by
  obtain ⟨cmd', hq', hc, hpay⟩ : ∃ cmd', s.dreq = some cmd' ∧ cmdOk cmd' ∧ s.dpay = directPayload cmd' := by
    simpa only [LatchInv, hd] using h
  obtain rfl : cmd = cmd' := Option.some.inj (hq.symm.trans hq')
  exact ⟨hc, hpay⟩

/-- The header of an accepted command counts its units. -/
theorem cmdOk_body_count {kind : BodyKind} {n : Half} {units : List Word} (h : cmdOk (.body kind n units)) :
    BitVec.ofNat 16 units.length = n := by
  obtain ⟨hlen, -⟩ := h
  rw [hlen, BitVec.ofNat_toNat, BitVec.setWidth_eq]

/-- The start step of an accepted command issues its header and owes the rest of its message (41_frame_encoder.md R134). -/
theorem startedDirect_words {s : State} {cmd : DirectCmd} (hc : cmdOk cmd) (hpay : s.dpay = directPayload cmd) :
    issued (startedDirect cmd s) ++ bodyOwed (startedDirect cmd s) = messageWords (messageOf cmd) := by
  cases cmd with
  | trace id =>
    change [traceHeader id] ++ packRest s.unit s.acc s.k s.dpay = [traceHeader id]
    rw [hpay]
    rfl
  | char c =>
    change [charHeader c] ++ packRest s.unit s.acc s.k s.dpay = [charHeader c]
    rw [hpay]
    rfl
  | body kind n units =>
    have hcount := cmdOk_body_count hc
    obtain ⟨-, hok⟩ := hc
    obtain ⟨-, hs⟩ := messageOk_body_iff.mp hok
    change bodyHeader kind n :: packRest kind.unit 0 0 s.dpay = bodyHeader kind _ :: packBody kind.unit units
    rw [hpay, hcount, directPayload, packRest_zero hs]

/-- Settles O35: the turn is the latched command's start step, and its words are those of the command's message, which the
headers' formats write out. -/
theorem directMessageIsIssuedWhole : Obligations.DirectMessageIsIssuedWhole := by
  unfold Obligations.DirectMessageIsIssuedWhole
  intro s cmd hs hi hb hp hd hq
  obtain ⟨hc, hpay⟩ := (hs.latch hi).of_pending hd hq
  have hwords := startedDirect_words hc hpay
  refine ⟨_, runTurn_directStart hi hb hp hd hq, by rw [startedDirect_eq], by rw [startedDirect_eq], ?_, hwords.symm⟩
  rw [hwords]
  cases cmd with
  | trace id => rfl
  | char c => rfl
  | body kind n units =>
    rw [messageOf, messageWords, cmdOk_body_count hc]
    cases kind with
    | hex4 => rw [BodyKind.unit, packBody_four]; rfl
    | _ => rfl

/-! ### The direct body step, field by field (O32) -/

theorem perWord_eq_div (u : UnitSize) : u.perWord = 4 / u.bytes := by cases u <;> rfl

/-- Settles O32: the unit step's two cases, at the head of the payload, and the finish step. -/
theorem directUnitStepPacksAndFinishes : Obligations.DirectUnitStepPacksAndFinishes := by
  unfold Obligations.DirectUnitStepPacksAndFinishes
  constructor
  · rintro s d e rest acc hi hp hb hr he rfl
    have hturn := runTurn_directUnit d hi hb hp hr he
    have hlast : s.rem = 1 ↔ s.rem - 1 = 0 := by omega
    rw [← perWord_eq_div, hlast]
    constructor
    · intro hfull
      exact hturn.trans (congrArg _ (unitStep_emits e { asSequencer s with dpay := rest } hfull))
    · intro hopen hmore
      rw [Ne, hlast] at hmore
      exact hturn.trans (congrArg _ (unitStep_keeps e { asSequencer s with dpay := rest } (not_or.mpr ⟨hopen, hmore⟩)))
  · intro s d hi hp hb hr
    exact runTurn_directFinish d hi hb hp hr

end Sys2Proof.Machine
end

section
/-! The direct port and the header step: the state each direct command, the client's turn and each header form answers, and the
sequencer's wait on a transfer. -/

namespace Sys2Proof.Machine

/-! ### The latch (41_frame_encoder.md R121) -/

/-- A direct command at the empty latch is accepted, or refused for its payload. -/
theorem directCommand_empty {s : State} (h : byClient s) (hd : s.dstate = .none) (payloadOk : Bool) (cmd : DirectCmd) :
    directCommand payloadOk cmd s = if payloadOk then .next (latch cmd s) else .next (marked .payloadLength s) := by
  have hempty : latchFull s = false := by simp [latchFull, hd]
  cases payloadOk <;> simp [directCommand, admission_of_byClient h, hempty]

/-- A direct command at the full latch holds, whatever its payload (log 22). -/
theorem directCommand_full {s : State} (h : byClient s) (hd : s.dstate ≠ .none) (payloadOk : Bool) (cmd : DirectCmd) :
    directCommand payloadOk cmd s = .next s := by
  have hfull : latchFull s = true := by simp [latchFull, hd]
  simp [directCommand, admission_of_byClient h, hfull, hold]

/-- The empty payload of a body command reads alike, whatever its unit type (60_exceptions.md R209). -/
theorem directCommand_no_units {p q : Payload} (u : UnitSize) (kind : BodyKind) (s : State) (hp : p.units = [])
    (hq : q.units = []) :
    directCommand (p.matchesCount u 0) (.body kind 0 p.units) s =
      directCommand (q.matchesCount u 0) (.body kind 0 q.units) s := by
  rw [matchesCount_empty u hp, matchesCount_empty u hq, hp, hq]

/-- A payload of `n` units of the size is accepted with its units. -/
theorem directCommand_matches {s : State} (h : byClient s) (hd : s.dstate = .none) {u : UnitSize} {n : Nat} {p : Payload}
    (cmd : DirectCmd) (hp : p.unitSize = u ∧ p.units.length = n) :
    directCommand (p.matchesCount u n) cmd s = .next (latch cmd s) := by
  rw [directCommand_empty h hd, if_pos (matchesCount_iff.mpr (.inl hp))]

/-- Any other payload but the empty one is refused. -/
theorem directCommand_mismatch {s : State} (h : byClient s) (hd : s.dstate = .none) {u : UnitSize} {n : Nat} {p : Payload}
    (cmd : DirectCmd) (hne : ¬ (n = 0 ∧ p.units = [])) (hp : ¬ (p.unitSize = u ∧ p.units.length = n)) :
    directCommand (p.matchesCount u n) cmd s = .next (marked .payloadLength s) := by
  rw [directCommand_empty h hd, if_neg (fun hm => (matchesCount_iff.mp hm).elim hp hne)]

/-- Settles O28: the latch is empty, so each command is accepted exactly if its payload is `n` units of its size or empty. -/
theorem directCommandsAreLatched : Obligations.DirectCommandsAreLatched := by
  unfold Obligations.DirectCommandsAreLatched
  intro s h hd
  refine ⟨fun id => directCommand_empty h hd true _, fun n l hl => ?_, fun n l hl => ?_, fun n l hl => ?_, fun n l hl => ?_,
    fun c => directCommand_empty h hd true _, fun p hp => ⟨?_, ?_, ?_, ?_⟩,
    fun n p hne => ⟨fun hp => ⟨?_, ?_⟩, fun hp => ?_, fun hp => ?_⟩⟩
  · exact directCommand_matches h hd (.body .ascii n _) (unitSize_one_iff.mpr ⟨l, rfl, hl⟩)
  · exact directCommand_matches h hd (.body .hex1 n _) (unitSize_one_iff.mpr ⟨l, rfl, hl⟩)
  · exact directCommand_matches h hd (.body .hex2 n _) (unitSize_two_iff.mpr ⟨l, rfl, hl⟩)
  · exact directCommand_matches h hd (.body .hex4 n _) (unitSize_four_iff.mpr ⟨l, rfl, hl⟩)
  · exact directCommand_no_units .one .ascii s hp rfl
  · exact directCommand_no_units .one .hex1 s hp rfl
  · exact directCommand_no_units .two .hex2 s hp rfl
  · exact directCommand_no_units .four .hex4 s hp rfl
  · exact directCommand_mismatch h hd _ hne (mt unitSize_one_iff.mp hp)
  · exact directCommand_mismatch h hd _ hne (mt unitSize_one_iff.mp hp)
  · exact directCommand_mismatch h hd _ hne (mt unitSize_two_iff.mp hp)
  · exact directCommand_mismatch h hd _ hne (mt unitSize_four_iff.mp hp)

theorem runTurn_client_done {s : State} (hi : s.inited = true) (hd : s.dstate = .done) :
    runTurn .client s = .next { s with dreq := none, dpay := [], dstate := .none } := by
  simp [runTurn, clientTurn, hi, hd]

theorem runTurn_client_not_done {s : State} (hd : s.dstate ≠ .done) : runTurn .client s = .next s := by
  simp [runTurn, clientTurn, hd, hold]

/-- Settles O29: the hold comes before the payload's check, and the client's turn waits for the status DONE. -/
theorem fullLatchHoldsTheClient : Obligations.FullLatchHoldsTheClient := by
  unfold Obligations.FullLatchHoldsTheClient
  constructor
  · intro s h hd
    have hholds := directCommand_full h hd
    exact ⟨fun _ => hholds _ _, fun _ _ => hholds _ _, fun _ _ => hholds _ _, fun _ _ => hholds _ _, fun _ _ => hholds _ _,
      fun _ => hholds _ _⟩
  · intro s hi
    exact ⟨runTurn_client_done hi, runTurn_client_not_done⟩

/-! ### The header step (41_frame_encoder.md R122) -/

/-- Settles O30: each header form is the header step of a direct command, whose header and body set-up are written out. -/
theorem headerStepIssuesTheHeader : Obligations.HeaderStepIssuesTheHeader := by
  unfold Obligations.HeaderStepIssuesTheHeader
  rintro s ⟨hi, hs⟩ hb
  have hstep (cmd : DirectCmd) := exec_headerInstr cmd hi hs hb
  exact ⟨fun id => hstep (.trace id), fun n => hstep (.body .ascii n []), fun n => hstep (.body .hex1 n []),
    fun n => hstep (.body .hex2 n []), fun n => hstep (.body .hex4 n []), fun c => hstep (.char c)⟩

/-! ### The wait for the transfer (41_frame_encoder.md R123) -/

theorem runTurn_sequencer_busy {s : State} (d : Bool) (hb : s.tbusy = true) : runTurn (.sequencer d) s = .next s := by
  simp [runTurn, sequencerTurn, hb, hold]

/-- Settles O41: the transfer in progress disables every phase alike; its last write is the fourth handshake in MODERN and the
only write in LEGACY. -/
theorem sequencerWaitsForTheTransfer : Obligations.SequencerWaitsForTheTransfer := by
  unfold Obligations.SequencerWaitsForTheTransfer
  refine ⟨fun s d hb => runTurn_sequencer_busy d hb, fun s hi hb hfree hlast => ?_⟩
  cases hv : s.params.variant with
  | legacy => exact ⟨_, runTurn_controller_legacy hi hb hfree hv, rfl⟩
  | modern =>
    have hx : s.hidx = 3 := hlast.resolve_left (by simp [hv])
    refine ⟨_, runTurn_controller_modern hi hb (by omega) hfree hv, ?_⟩
    rw [handshake_eq hb hv]
    simp [hx]

end Sys2Proof.Machine
end

section
/-! The FIFO's commands of a producer and the sequencer's DEQ: the state each answers, and how an enqueue ends the sequencer's
wait. -/

namespace Sys2Proof.Machine

/-! ### A producer's command after INIT (44_producer_port.md R185, 60_exceptions.md R212) -/

theorem respond_byProducer {i : Nat} {s : State} (h : byProducer i s) (v : Word) : respond v s = answered i v s :=
  respond_of_producer v (by rw [h.2])

theorem byProducer.enqueued {i : Nat} {s : State} (h : byProducer i s) (bs : List Byte) : byProducer i (enqueued bs s) := by
  simpa [byProducer] using h

/-- The operand range and the payload are all that can refuse it. -/
theorem admitted_byProducer {i : Nat} {s : State} (h : byProducer i s) (rangeOk payloadOk : Bool) (f : State → Result) :
    admitted (admission .producer false rangeOk payloadOk s) f s =
      if rangeOk = false then .next (marked .operandRange s)
      else if payloadOk = false then .next (marked .payloadLength s)
      else f s := by
  rw [admission_of_byProducer h]
  cases rangeOk <;> cases payloadOk <;> rfl

theorem exec_free {i : Nat} {s : State} (h : byProducer i s) :
    exec .free s = .next (answered i (BitVec.ofInt 32 (freeSpace s)) s) := by
  rw [← respond_byProducer h]
  exact admitted_byProducer h true true (fun s => .next (respond (BitVec.ofInt 32 (freeSpace s)) s))

theorem exec_enqf {i : Nat} {s : State} (h : byProducer i s) (n : Half) (p : Payload) :
    exec (.enqf n p) s =
      if decide (1 ≤ n.toNat ∧ n.toNat ≤ 255) = false then .next (marked .operandRange s)
      else if p.matchesCount .one n.toNat = false then .next (marked .payloadLength s)
      else enqueueOrDrop (frameBytes n.toNat p.byteList) 1 0 s :=
  admitted_byProducer h _ _ _

theorem exec_enqc {i : Nat} {s : State} (h : byProducer i s) (c : Byte) :
    exec (.enqc c) s = enqueueOrDrop (charBytes c) 1 0 s := admitted_byProducer h true true _

theorem exec_putc {i : Nat} {s : State} (h : byProducer i s) (c : Byte) :
    exec (.putc c) s = enqueueOrDrop (charBytes c) (c.setWidth 32) 0xFFFFFFFF s := admitted_byProducer h true true _

theorem exec_putb {i : Nat} {s : State} (h : byProducer i s) (n : Half) (p : Payload) :
    exec (.putb n p) s =
      if p.matchesCount .one n.toNat = false then .next (marked .payloadLength s)
      else putBytes n.toNat p.byteList s :=
  admitted_byProducer h true _ _

/-! ### FREE (O8) -/

theorem freeSpace_word {s : State} (h : s.cnt ≤ s.cap) :
    BitVec.ofInt 32 (freeSpace s) = BitVec.ofNat 32 (s.cap - s.cnt) := by
  rw [freeSpace, ← Nat.cast_sub h, BitVec.ofInt_natCast]

/-- Settles O8: FREE is admitted, and within the capacity the free space is the difference of the two counts. -/
theorem freeReturnsFreeSpace : Obligations.FreeReturnsFreeSpace := by
  unfold Obligations.FreeReturnsFreeSpace
  intro s i h hcnt
  rw [exec_free h, freeSpace_word hcnt]

/-! ### All or nothing (42_fifo.md R156) -/

/-- Putting bytes changes the storage, the write index and the two counts of bytes in. -/
theorem putAll_eq (bs : List Byte) (s : State) :
    putAll bs s = { s with buf := (putAll bs s).buf, wr := (putAll bs s).wr, cnt := s.cnt + bs.length,
                           nin := s.nin + bs.length } := by
  induction bs generalizing s with
  | nil => rfl
  | cons b bs ih =>
    refine (ih (put b s)).trans ?_
    simp only [put, putAll, List.length_cons, Nat.add_assoc, Nat.add_comm 1]

theorem answered_held (i : Nat) (v : Word) (s : State) : held (answered i v s) = held s := held_congr rfl rfl rfl rfl

/-- Bytes that fit stand behind the ones held, each at its own index, and the rest of the storage and the state stays. -/
theorem enqueuedTo_answered {s : State} {bs : List Byte} (hs : FifoInv s) (hfit : bs.length + s.cnt ≤ s.cap) (i : Nat)
    (v : Word) : enqueuedTo s (answered i v (enqueued bs s)) i bs v := by
  refine ⟨?_, ?_, fun j hj => ?_, fun a ha => ?_⟩
  · rw [answered_held, held_enqueued, held_putAll bs s hs.rdLt hs.wrEq (by omega)]
  · rw [← putAll_wr bs s hs.wrLt, enqueued, putAll_eq bs s]
    rfl
  · rw [answered_buf, enqueued_buf, putAll_read_same bs s hs.wrLt (by omega) hj, List.getElem?_eq_getElem hj]
  · rw [answered_buf, enqueued_buf, putAll_read_other bs s hs.wrLt]
    rintro j hj rfl
    exact ha (List.mem_map.mpr ⟨j, List.mem_range.mpr hj, rfl⟩)

/-- EMPTY and FULL after an enqueue of at least one byte (10_state.md R29). -/
theorem enqueuedTo.flags {s t : State} {i : Nat} {bs : List Byte} {v : Word} (h : enqueuedTo s t i bs v) (hne : 0 < bs.length) :
    isEmpty t = false ∧ (isFull t = true ↔ s.cap - s.cnt = bs.length) := by
  obtain ⟨-, ht, -, -⟩ := h
  have hcnt : t.cnt = s.cnt + bs.length := by rw [ht]
  have hcap : t.cap = s.cap := by rw [ht]
  simp only [isEmpty, isFull, hcnt, hcap, decide_eq_false_iff_not, decide_eq_true_eq]
  omega

/-- Bytes that fit are enqueued with the response of success. -/
theorem enqueueOrDrop_fits_answered {i : Nat} {s : State} (h : byProducer i s) (hs : FifoInv s) (bs : List Byte)
    (hfit : bs.length + s.cnt ≤ s.cap) (okResp failResp : Word) :
    enqueueOrDrop bs okResp failResp s = .next (answered i okResp (enqueued bs s)) := by
  rw [enqueueOrDrop_fits _ _ hs hfit, respond_byProducer (h.enqueued bs)]

theorem enqueueOrDrop_enqueues {i : Nat} {s : State} (h : byProducer i s) (hs : FifoInv s) (bs : List Byte)
    (hne : 0 < bs.length) (hfit : bs.length + s.cnt ≤ s.cap) (okResp failResp : Word) :
    ∃ t, enqueueOrDrop bs okResp failResp s = .next t ∧ enqueuedTo s t i bs okResp ∧
      isEmpty t = false ∧ (isFull t = true ↔ s.cap - s.cnt = bs.length) := by
  have hto := enqueuedTo_answered hs hfit i okResp
  exact ⟨_, enqueueOrDrop_fits_answered h hs bs hfit okResp failResp, hto, hto.flags hne⟩

/-- Bytes that do not fit change the response alone. -/
theorem enqueueOrDrop_drops_answered {i : Nat} {s : State} (h : byProducer i s) (bs : List Byte)
    (hfull : s.cap < bs.length + s.cnt) (okResp failResp : Word) :
    enqueueOrDrop bs okResp failResp s = .next (answered i failResp s) := by
  rw [enqueueOrDrop_drops _ _ hfull, respond_byProducer h]

/-! ### ENQF (O9) and ENQC (O10) -/

theorem exec_enqf_out_of_range {i : Nat} {s : State} (h : byProducer i s) {n : Half} (p : Payload)
    (hn : ¬ (1 ≤ n.toNat ∧ n.toNat ≤ 255)) : exec (.enqf n p) s = .next (marked .operandRange s) := by
  rw [exec_enqf h, if_pos (decide_eq_false hn)]

theorem exec_enqf_mismatch {i : Nat} {s : State} (h : byProducer i s) {n : Half} {p : Payload}
    (hn : 1 ≤ n.toNat ∧ n.toNat ≤ 255) (hp : p.matchesCount .one n.toNat = false) :
    exec (.enqf n p) s = .next (marked .payloadLength s) := by
  rw [exec_enqf h, if_neg (by simpa using hn), if_pos hp]

theorem exec_enqf_matches {i : Nat} {s : State} (h : byProducer i s) {n : Half} {p : Payload}
    (hn : 1 ≤ n.toNat ∧ n.toNat ≤ 255) (hp : p.matchesCount .one n.toNat = true) :
    exec (.enqf n p) s = enqueueOrDrop (frameBytes n.toNat p.byteList) 1 0 s := by
  rw [exec_enqf h, if_neg (by simpa using hn), if_neg (by simp [hp])]

/-- A payload of `n` bytes is what ENQF and PUTB match. -/
theorem matchesCount_of_bytes {n : Nat} {l : List Byte} (hl : l.length = n) : (Payload.bytes l).matchesCount .one n = true :=
  matchesCount_iff.mpr (.inl (unitSize_one_iff.mpr ⟨l, rfl, hl⟩))

/-- For a positive count nothing else is; the empty list counts 0 units of any size. -/
theorem matchesCount_of_not_bytes {n : Nat} {p : Payload} (hn : 1 ≤ n) (hp : ¬ ∃ l, p = .bytes l ∧ l.length = n) :
    p.matchesCount .one n = false := by
  rw [Bool.eq_false_iff]
  intro hm
  rcases matchesCount_iff.mp hm with hu | ⟨hz, -⟩
  · exact hp (unitSize_one_iff.mp hu)
  · omega

theorem length_frameBytes {n : Nat} {l : List Byte} (hl : l.length = n) : (frameBytes n l).length = n + 1 :=
  congrArg (· + 1) hl

/-- Settles O9: the range is tested before the payload, and a frame of the right payload is enqueued whole or dropped. -/
theorem enqfIsAllOrNothing : Obligations.EnqfIsAllOrNothing := by
  unfold Obligations.EnqfIsAllOrNothing
  intro s i n p h
  refine ⟨exec_enqf_out_of_range h p, fun h1 h255 hp => ?_, ?_, ?_⟩
  · exact exec_enqf_mismatch h ⟨h1, h255⟩ (matchesCount_of_not_bytes h1 hp)
  · rintro l h1 h255 rfl hl hfull
    rw [exec_enqf_matches h ⟨h1, h255⟩ (matchesCount_of_bytes hl)]
    exact enqueueOrDrop_drops_answered h (frameBytes n.toNat l) (length_frameBytes hl ▸ hfull) 1 0
  · rintro l h1 h255 rfl hl hfit hs
    have hlen := length_frameBytes hl
    rw [exec_enqf_matches h ⟨h1, h255⟩ (matchesCount_of_bytes hl), eq_comm (a := n.toNat + 1), ← hlen]
    exact enqueueOrDrop_enqueues h hs (frameBytes n.toNat l) (Nat.succ_pos _) (hlen ▸ hfit) 1 0

/-- Settles O10: ENQC is the all-or-nothing enqueue of two bytes. -/
theorem enqcIsAllOrNothing : Obligations.EnqcIsAllOrNothing := by
  unfold Obligations.EnqcIsAllOrNothing
  intro s i c h
  rw [exec_enqc h]
  exact ⟨fun hfull => enqueueOrDrop_drops_answered h (charBytes c) hfull 1 0,
    fun hfit hs => enqueueOrDrop_enqueues h hs (charBytes c) Nat.two_pos hfit 1 0⟩

/-! ### Producer commands complete (O14) -/

/-- What a command of producer `i` that is not refused leaves: its response, and bytes enqueued or none. -/
inductive ProducerAnswer (i : Nat) (s : State) : State → Prop where
  | response (v : Word) : ProducerAnswer i s (answered i v s)
  | enqueued (bs : List Byte) (v : Word) : ProducerAnswer i s (answered i v (enqueued bs s))

theorem enqueueOrDrop_completes {i : Nat} {s : State} (h : byProducer i s) (hs : FifoInv s) (bs : List Byte)
    (okResp failResp : Word) : ∃ t, enqueueOrDrop bs okResp failResp s = .next t ∧ ProducerAnswer i s t := by
  rcases Nat.lt_or_ge s.cap (bs.length + s.cnt) with hfull | hfit
  · exact ⟨_, enqueueOrDrop_drops_answered h bs hfull _ _, .response _⟩
  · exact ⟨_, enqueueOrDrop_fits_answered h hs bs hfit _ _, .enqueued _ _⟩

/-- PUTB writes the truncated frame, the separator, or nothing (44_producer_port.md R187). -/
theorem putBytes_completes {i : Nat} {s : State} (h : byProducer i s) (hs : FifoInv s) (n : Nat) (l : List Byte) :
    ∃ t, putBytes n l s = .next t ∧ ProducerAnswer i s t := by
  simp only [putBytes]
  split
  · rw [enqueue_of_inv hs]
    refine ⟨_, rfl, ?_⟩
    rw [respond_byProducer (h.enqueued _)]
    exact .enqueued _ _
  · split
    · exact enqueueOrDrop_completes h hs _ _ _
    · rw [respond_byProducer h]
      exact ⟨_, rfl, .response 0⟩

/-- An answer gives the producer its response; the mark, the phase, the transfer and BUSY stay, and no byte held is lost. -/
theorem ProducerAnswer.frame {i : Nat} {s t : State} (h : ProducerAnswer i s t) :
    (∃ v, respOf t i = some v) ∧ t.mark = s.mark ∧ t.phase = s.phase ∧ t.tbusy = s.tbusy ∧ t.chBusy = s.chBusy ∧
      s.cnt ≤ t.cnt := by
  cases h with
  | response v => exact ⟨⟨v, find_setResp _ i v⟩, rfl, rfl, rfl, rfl, le_refl _⟩
  | enqueued bs v => exact ⟨⟨v, find_setResp _ i v⟩, by simp, by simp, by simp, by simp, by simp⟩

/-- Settles O14: no well-formed producer command is refused, and each is a response alone or an enqueue with its response. -/
theorem producerCommandsNeverWait : Obligations.ProducerCommandsNeverWait := by
  unfold Obligations.ProducerCommandsNeverWait
  intro s i c h hs hwf hc
  have hanswer : ∃ t, exec c s = .next t ∧ ProducerAnswer i s t := by
    rcases hc with rfl | ⟨n, p, rfl⟩ | ⟨b, rfl⟩ | ⟨b, rfl⟩ | ⟨n, p, rfl⟩
    · exact ⟨_, exec_free h, .response _⟩
    · simp only [Instr.wellFormed, hasUnits_eq_matchesCount, Bool.and_eq_true, decide_eq_true_eq] at hwf
      obtain ⟨hn, hp⟩ := hwf
      rw [exec_enqf_matches h hn hp]
      exact enqueueOrDrop_completes h hs _ _ _
    · rw [exec_enqc h]
      exact enqueueOrDrop_completes h hs _ _ _
    · rw [exec_putc h]
      exact enqueueOrDrop_completes h hs _ _ _
    · simp only [Instr.wellFormed, hasUnits_eq_matchesCount] at hwf
      rw [exec_putb h, if_neg (by simp [hwf])]
      exact putBytes_completes h hs _ _
  obtain ⟨t, hexec, ht⟩ := hanswer
  exact ⟨t, hexec, ht.frame⟩

/-! ### DEQ (O16) -/

theorem exec_deq {s : State} (h : bySequencer s) :
    exec .deq s = if s.cnt = 0 then .next { s with cwait := true } else andThen (take s) (fun r => .next r.2) := by
  simp only [exec, execDeq, admission_sequencer true h.1 h.2 rfl, admitted_none, suspend]

/-- Settles O16: with a byte held DEQ is a take, which under the FIFO's invariant yields the oldest one. -/
theorem deqTakesTheOldestByte : Obligations.DeqTakesTheOldestByte := by
  unfold Obligations.DeqTakesTheOldestByte
  intro s h hs
  rw [exec_deq h]
  constructor
  · intro hn
    obtain ⟨b, htake, hheld, -⟩ := take_of_inv hs hn
    refine ⟨b, taken b s, ?_, hheld, rfl⟩
    rw [if_neg (by omega), htake]
    rfl
  · intro hz
    rw [if_pos hz]

/-! ### The sequencer's suspension (O42) -/

/-- On an empty FIFO with no command pending the suspend step is the only one, until it is taken (43_consumer.md R176). -/
theorem runTurn_sequencer_empty {s : State} (d : Bool) (hi : s.inited = true) (hb : s.tbusy = false)
    (hp : s.phase = .awaitLength) (hn : s.cnt = 0) (hd : s.dstate ≠ .pending) :
    runTurn (.sequencer d) s = if s.cwait = false then .next { s with cwait := true } else .next s := by
  simp [runTurn, sequencerTurn, boundaryStep, suspend, hold, hi, hb, hp, hn, hd]

theorem markerStep_of_inv {s : State} (hs : FifoInv s) (hn : 0 < s.cnt) :
    ∃ b, markerStep (asSequencer s) = .next (afterMarker b s) := by
  obtain ⟨b, htake, -⟩ := take_of_inv (s := asSequencer s) (hs.congr rfl rfl rfl rfl rfl rfl rfl rfl) hn
  refine ⟨b, ?_⟩
  rw [markerStep, htake]
  rfl

theorem afterMarker_cnt (b : Byte) (s : State) : (afterMarker b s).cnt = s.cnt - 1 := by
  unfold afterMarker
  split <;> rfl

theorem afterMarker_cwait (b : Byte) (s : State) : (afterMarker b s).cwait = false := by
  unfold afterMarker
  split <;> rfl

/-- At a boundary with a raw character at the head, the sequencer's turn takes its marker. -/
theorem runTurn_sequencer_marker {s : State} (hi : s.inited = true) (hb : s.tbusy = false) (hp : s.phase = .awaitLength)
    (hs : FifoInv s) {c : Byte} {l : List Byte} (hheld : held s = 0 :: c :: l) :
    ∃ b, runTurn (.sequencer false) s = .next (afterMarker b s) := by
  have hn := cnt_pos_of_held hheld
  obtain ⟨b, hmarker⟩ := markerStep_of_inv hs hn
  refine ⟨b, ?_⟩
  calc runTurn (.sequencer false) s = fifoStep s := sequencerTurn_boundary hi hb hp hn
    _ = exec (.qfChar c) (asSequencer s) := fifoStep_of_held hs hp (hheld ▸ decodeFifo_marker c l)
    _ = markerStep (asSequencer s) := exec_qfChar_marker hi hp hb hn
    _ = .next (afterMarker b s) := hmarker

theorem held_of_empty {s : State} (hn : s.cnt = 0) : held s = [] := by
  rw [held, hn, List.range_zero, List.map_nil]

/-- After a raw character is enqueued on the empty FIFO, its marker is what the sequencer's turn takes. -/
theorem runTurn_sequencer_after_char {s : State} (i : Nat) (c : Byte) (v : Word) (hi : s.inited = true) (hb : s.tbusy = false)
    (hp : s.phase = .awaitLength) (hn : s.cnt = 0) (hs : FifoInv s) :
    ∃ b, runTurn (.sequencer false) (answered i v (enqueued (charBytes c) s)) =
      .next (afterMarker b (answered i v (enqueued (charBytes c) s))) := by
  have hfit : s.cnt + (charBytes c).length ≤ s.cap := by rw [hn]; exact hs.capLow
  refine runTurn_sequencer_marker (c := c) (l := []) (by simpa using hi) (by simpa using hb) (by simpa using hp)
    ((hs.enqueued (charBytes c) hfit).congr rfl rfl rfl rfl rfl rfl rfl rfl) ?_
  rw [answered_held, held_enqueued, held_putAll _ s hs.rdLt hs.wrEq hfit, held_of_empty hn]
  rfl

theorem length_unitBytes_pos (u : FifoUnit) : 0 < (FifoUnit.bytes u).length := by
  cases u <;> exact Nat.succ_pos _

/-- After INIT a command on a port that adds bytes leaves the wait bit 0, and one that adds none leaves the bit (log 21). -/
theorem PortEffect.cwait {s t : State} (h : PortEffect s t) (hi : s.inited = true) :
    (t.cnt ≠ s.cnt → t.cwait = false) ∧ (t.cnt = s.cnt → t.cwait = s.cwait) := by
  cases h with
  | hold => exact ⟨absurd rfl, fun _ => rfl⟩
  | refused r => exact ⟨absurd rfl, fun _ => rfl⟩
  | result v _ => exact ⟨absurd (respond_cnt v s), fun _ => respond_cwait v s⟩
  | enqueued u v _ _ _ =>
    have hpos := length_unitBytes_pos u
    simp only [respond_cnt, respond_cwait, enqueued_cnt, enqueued_cwait]
    exact ⟨fun _ => trivial, fun heq => by omega⟩
  | latched cmd _ _ _ => exact ⟨absurd rfl, fun _ => rfl⟩
  | initialised n hn _ _ => rw [hi] at hn; cases hn

/-- Settles O42: the suspend step and its hold; PUTC into the empty FIFO leaves a marker at the head, which the sequencer's
turn takes; and the wait bit over every effect of a command on a port. -/
theorem sequencerSuspendsOnEmptyFifo : Obligations.SequencerSuspendsOnEmptyFifo := by
  unfold Obligations.SequencerSuspendsOnEmptyFifo
  refine ⟨fun s d hi hb hp hn hd => ?_, fun s c i h hs hb hp hn => ?_, fun s t c i h _ hexec => ?_⟩
  · have hturn := runTurn_sequencer_empty d hi hb hp hn hd
    exact ⟨fun hw => hturn.trans (if_pos hw), fun hw => hturn.trans (if_neg (by simp [hw]))⟩
  · have hfit : (charBytes c).length + s.cnt ≤ s.cap := by rw [hn]; exact hs.capLow
    obtain ⟨b, hturn⟩ := runTurn_sequencer_after_char i c (c.setWidth 32) h.1 hb hp hn hs
    have hpos : 0 < (answered i (c.setWidth 32) (enqueued (charBytes c) s)).cnt := by simp [charBytes]
    refine ⟨_, _, (exec_putc h c).trans (enqueueOrDrop_fits_answered h hs (charBytes c) hfit _ _), hpos, by simp, hturn, ?_,
      afterMarker_cwait _ _⟩
    rw [afterMarker_cnt, Nat.sub_add_cancel hpos]
  · exact (exec_port_effect (by simp [h.2]) hexec).cwait h.1

end Sys2Proof.Machine
end

section
/-! The consumer sequencer and the FIFO's forms: the state each form's step answers by the byte at the head, the words of a frame
and of a raw character, the frame body step, and the choice at a boundary. -/

namespace Sys2Proof.Machine

/-! ### The byte at the head (42_fifo.md R155) -/

theorem FifoInv.asSequencer {s : State} (h : FifoInv s) : FifoInv (asSequencer s) := h.congr rfl rfl rfl rfl rfl rfl rfl rfl

theorem asSequencer_of_bySequencer {s : State} (h : bySequencer s) : asSequencer s = s := by
  rw [asSequencer, ← h.2]

theorem held_eq_cons_of_pos {s : State} (hn : 0 < s.cnt) : ∃ b l, held s = b :: l :=
  List.exists_cons_of_length_pos (by rwa [held_length])

theorem cnt_pos_of_decodeFifo {s : State} {i : Instr} {tail : List Byte} (h : decodeFifo (held s) = .ok (i, tail)) :
    0 < s.cnt := by
  rcases decodeFifo_ok_cases h with ⟨b, -, hh, -⟩ | ⟨c, hh, -⟩ <;> exact cnt_pos_of_held hh

/-- A take answers the byte at the head and leaves the others. -/
theorem take_of_held {s : State} {b : Byte} {l : List Byte} (hs : FifoInv s) (hh : held s = b :: l) :
    take s = .ok (b, taken b s) ∧ held (taken b s) = l := by
  obtain ⟨b', htake, hheld, -⟩ := take_of_inv hs (cnt_pos_of_held hh)
  obtain ⟨rfl, rfl⟩ := List.cons.inj (hh.symm.trans hheld)
  exact ⟨htake, rfl⟩

/-! ### The marker step, by the parameter (43_consumer.md R173) -/

theorem markerStep_of_take {s : State} {b : Byte} (h : take (asSequencer s) = .ok (b, taken b (asSequencer s))) :
    markerStep (asSequencer s) = .next (afterMarker b s) := by
  rw [markerStep, h]
  rfl

theorem afterMarker_silent {s : State} (b : Byte) (h : s.params.emptyAsciiBeforeChar = false) :
    afterMarker b s = { taken b (asSequencer s) with phase := .streamChar } := if_neg (by simp [h])

/-- With the parameter set it issues the header of an empty AsciiText. -/
theorem afterMarker_announced {s : State} (b : Byte) (h : s.params.emptyAsciiBeforeChar = true) :
    afterMarker b s = emit 0x00000001 { taken b (asSequencer s) with phase := .streamChar } := if_pos h

theorem afterMarker_phase (b : Byte) (s : State) : (afterMarker b s).phase = .streamChar := by
  unfold afterMarker
  split <;> rfl

theorem held_afterMarker (b : Byte) (s : State) : held (afterMarker b s) = held (taken b s) := by
  unfold afterMarker
  split <;> rfl

/-! ### The FIFO's step, by the byte at the head (43_consumer.md R170 to R174) -/

section
variable {s : State} {b : Byte} {l : List Byte} (hs : FifoInv s) (hi : s.inited = true) (hb : s.tbusy = false)
include hs hi hb

/-- A byte other than 0 is a frame's length. -/
theorem fifoStep_frame (hp : s.phase = .awaitLength) (hh : held s = b :: l) (hz : b ≠ 0) :
    fifoStep s = .next (startedFrame b s) := by
  rw [fifoStep_of_held hs hp (hh ▸ decodeFifo_frame hz l), exec_qfFrame_sequencer hi hp hb (cnt_pos_of_held hh) hz,
    (take_of_held hs.asSequencer hh).1]
  rfl

/-- A 0 is a marker, whatever byte stands behind it. -/
theorem fifoStep_marker (hp : s.phase = .awaitLength) (hh : held s = 0 :: l) : fifoStep s = .next (afterMarker 0 s) := by
  have hfetch : fetchBytes s = [0, peek s (adv s s.rd)] := by rw [fetchBytes_of_awaitLength hp, peek_head hs.rdLt hh]
  rw [fifoStep_of_decodes (hfetch ▸ decodeFifo_marker _ []), exec_qfChar_marker hi hp hb (cnt_pos_of_held hh)]
  exact markerStep_of_take (take_of_held hs.asSequencer hh).1

/-- After a marker the byte is the character. -/
theorem fifoStep_character (hp : s.phase = .streamChar) (hh : held s = b :: l) :
    fifoStep s = .next (afterCharacter b s) := by
  rw [fifoStep_of_streamChar hs hp hh, exec_qfChar_character hi hp hb (cnt_pos_of_held hh), characterStep,
    (take_of_held hs.asSequencer hh).1]
  rfl

/-- At a boundary the FIFO's step begins a unit, so it leaves the boundary. -/
theorem fifoStep_leaves_boundary (hp : s.phase = .awaitLength) (hn : 0 < s.cnt) :
    ∃ t, fifoStep s = .next t ∧ t.phase ≠ .awaitLength := by
  obtain ⟨b, l, hh⟩ := held_eq_cons_of_pos hn
  by_cases hz : b = 0
  · subst hz
    exact ⟨_, fifoStep_marker hs hi hb hp hh, by simp [afterMarker_phase]⟩
  · exact ⟨_, fifoStep_frame hs hi hb hp hh hz, nofun⟩

end

/-! ### A frame's whole message (O38) -/

/-- A frame's length byte counts its payload. -/
theorem lengthByte_toNat {l : List Byte} (h : l.length ≤ 255) : (BitVec.ofNat 8 l.length).toNat = l.length :=
  Nat.mod_eq_of_lt (by omega)

/-- The length step of a frame whose payload is held behind its length byte issues the header of the payload's message and
owes its body. -/
theorem startedFrame_words {s : State} {l rest : List Byte} (hlen : l.length ≤ 255)
    (hh : held (startedFrame (BitVec.ofNat 8 l.length) s) = l ++ rest) :
    issued (startedFrame (BitVec.ofNat 8 l.length) s) ++ bodyOwed (startedFrame (BitVec.ofNat 8 l.length) s) =
      messageWords (.body .ascii (l.map (·.setWidth 32))) := by
  have hrem : (startedFrame (BitVec.ofNat 8 l.length) s).rem = l.length := lengthByte_toNat hlen
  have hcount : (BitVec.ofNat 8 l.length).setWidth 16 = BitVec.ofNat 16 l.length := by
    apply BitVec.eq_of_toNat_eq
    rw [BitVec.toNat_setWidth, lengthByte_toNat hlen, BitVec.toNat_ofNat]
  have hsmall : ∀ e ∈ l.map (·.setWidth 32), e.toNat < 2 ^ (8 * UnitSize.one.bytes) := by
    simpa only [Payload.units, List.all_eq_true, decide_eq_true_eq] using (units_small (matchesCount_of_bytes (l := l) rfl)).2
  rw [bodyOwed_of_streamFrame rfl, hh, hrem, List.take_left, messageWords, List.length_map, ← hcount]
  exact congrArg _ (packRest_zero hsmall)

/-- Settles O38: the byte at the head is the payload's length, which is not 0, so the turn is the frame's length step. -/
theorem frameIsSentAsItsMessage : Obligations.FrameIsSentAsItsMessage := by
  unfold Obligations.FrameIsSentAsItsMessage
  intro s l rest hs hi hb hp hlow hhigh hh
  have hz : BitVec.ofNat 8 l.length ≠ 0 := by
    intro h0
    have hlen := lengthByte_toNat hhigh
    rw [h0] at hlen
    change 0 = l.length at hlen
    omega
  have hheld : held (startedFrame (BitVec.ofNat 8 l.length) s) = l ++ rest := (take_of_held (hs.fifo hi) hh).2
  refine ⟨_, ?_, rfl, hheld, startedFrame_words hhigh hheld⟩
  exact (sequencerTurn_boundary hi hb hp (cnt_pos_of_held hh)).trans (fifoStep_frame (hs.fifo hi) hi hb hp hh hz)

/-! ### A raw character's message (O39) -/

/-- Settles O39: the marker's turn issues nothing and leaves the character at the head, whose turn issues its header. -/
theorem characterIsSentAsSingleChar : Obligations.CharacterIsSentAsSingleChar := by
  unfold Obligations.CharacterIsSentAsSingleChar
  intro s c rest hs hi hb hp hsilent hh
  have hfifo := hs.fifo hi
  have hn := cnt_pos_of_held hh
  have hmarker := (sequencerTurn_boundary hi hb hp hn).trans (fifoStep_marker hfifo hi hb hp hh)
  have hfifo' : FifoInv (afterMarker 0 s) := ((hs.block hi).afterMarker hp hn (peek_head hfifo.rdLt hh)).fifo
  have hp' := afterMarker_phase 0 s
  have hh' : held (afterMarker 0 s) = c :: rest := (held_afterMarker 0 s).trans (take_of_held hfifo hh).2
  have hi' : (afterMarker 0 s).inited = true := by rw [afterMarker_silent 0 hsilent]; exact hi
  have hb' : (afterMarker 0 s).tbusy = false := by rw [afterMarker_silent 0 hsilent]; exact hb
  have hcharacter := (sequencerTurn_streamChar false hi' hb' hp' (cnt_pos_of_held hh')).trans
    (fifoStep_character hfifo' hi' hb' hp' hh')
  exact ⟨_, _, hmarker, by rw [issued, hb']; rfl, hp', hcharacter, rfl, rfl, (take_of_held hfifo' hh').2⟩

/-! ### The frame body step, field by field (O33) -/

/-- The state of a frame body step but for the accumulator and the word issued. -/
def frameByteTaken (b : Byte) (s : State) : State :=
  { taken b (asSequencer s) with rem := s.rem - 1, phase := if s.rem = 1 then .awaitLength else .streamFrame }

theorem held_afterFrameByte (b : Byte) (s : State) : held (afterFrameByte b s) = held (frameByteTaken b s) := by
  rw [afterFrameByte, held_unitStep]
  rfl

/-- The byte that fills a word, or is the frame's last, issues the word. -/
theorem afterFrameByte_emits {s : State} (b : Byte) (h : s.k + 1 = s.unit.perWord ∨ s.rem - 1 = 0) :
    afterFrameByte b s =
      emit (align (shiftIn s.unit s.acc (b.setWidth 32)) (s.k + 1) s.unit) { frameByteTaken b s with acc := 0, k := 0 } :=
  unitStep_emits _ { taken b (asSequencer s) with phase := _ } h

/-- Any other byte stays in the accumulator. -/
theorem afterFrameByte_keeps {s : State} (b : Byte) (h : ¬ (s.k + 1 = s.unit.perWord ∨ s.rem - 1 = 0)) :
    afterFrameByte b s =
      { frameByteTaken b s with acc := shiftIn s.unit s.acc (b.setWidth 32), k := s.k + 1 } :=
  unitStep_keeps _ { taken b (asSequencer s) with phase := _ } h

theorem FramesInv.rem_le_of_streamFrame {s : State} (h : FramesInv s) (hp : s.phase = .streamFrame) : s.rem ≤ s.cnt := by
  simpa only [owed, hp] using h.1

/-- Settles O33: the invariant gives the unit size and the bytes, and the step is the unit step's two cases on the oldest one. -/
theorem frameBodyStepPacks : Obligations.FrameBodyStepPacks := by
  unfold Obligations.FrameBodyStepPacks
  intro s d hs hi hp hb
  obtain ⟨hu, hr, -⟩ := (hs.encoder hi).of_streamFrame hp
  have hc := (hs.frames hi).rem_le_of_streamFrame hp
  have hn : 0 < s.cnt := Nat.lt_of_lt_of_le hr hc
  have hlast : s.rem = 1 ↔ s.rem - 1 = 0 := by omega
  obtain ⟨b, hstep, hheld⟩ := frameStep_of_inv (hs.fifo hi) hn
  rw [held_afterFrameByte] at hheld
  have hturn := (runTurn_frameStep d hi hb hp hr hn).trans hstep
  have hword : s.unit.perWord = 4 := by rw [hu]; rfl
  refine ⟨hr, hc, hu, b, _, frameByteTaken b s, hheld, rfl, rfl, fun hfull => ?_, fun hopen hmore => ?_⟩
  · rw [hturn, afterFrameByte_emits b (hword ▸ hfull.imp_right hlast.mp), hu]
    rfl
  · rw [hturn, afterFrameByte_keeps b (hword ▸ not_or.mpr ⟨hopen, mt hlast.mpr hmore⟩), hu]
    rfl

/-! ### The FIFO's forms as the sequencer executes them (O36, O37) -/

/-- Settles O36: the form takes the byte at the head, and its length operand sets up the body and the header. -/
theorem frameFormStartsAsciiText : Obligations.FrameFormStartsAsciiText := by
  unfold Obligations.FrameFormStartsAsciiText
  intro s len h hp hb hn hz hs
  obtain ⟨b, l, hh⟩ := held_eq_cons_of_pos hn
  have hexec := exec_qfFrame_sequencer h.1 hp hb hn hz
  rw [asSequencer_of_bySequencer h, (take_of_held hs hh).1] at hexec
  exact ⟨b, by rw [hh]; rfl, hexec⟩

theorem FramesInv.cnt_pos_of_streamChar {s : State} (h : FramesInv s) (hp : s.phase = .streamChar) : 1 ≤ s.cnt := by
  simpa only [owed, hp] using h.1

/-- Settles O37: the invariant owes the character after a marker, and the form's step is the marker's or the character's, by the
phase. -/
theorem charFormTakesMarkerThenCharacter : Obligations.CharFormTakesMarkerThenCharacter := by
  unfold Obligations.CharFormTakesMarkerThenCharacter
  refine ⟨fun s hs hi hp => (hs.frames hi).cnt_pos_of_streamChar hp, fun s c h hb hn hs => ?_⟩
  obtain ⟨b, l, hh⟩ := held_eq_cons_of_pos hn
  have hself := asSequencer_of_bySequencer h
  obtain ⟨htake, -⟩ := take_of_held hs hh
  have hmarker (hp : s.phase = .awaitLength) : exec (.qfChar c) s = .next (afterMarker b s) := by
    have hexec := (exec_qfChar_marker (c := c) h.1 hp hb hn).trans (markerStep_of_take (b := b) (by rwa [hself]))
    rwa [hself] at hexec
  refine ⟨b, taken b s, by rw [hh]; rfl, rfl, fun hp hsilent => ?_, fun hp hannounced => ?_, fun hp => ?_⟩
  · rw [hmarker hp, afterMarker_silent b hsilent, hself]
  · rw [hmarker hp, afterMarker_announced b hannounced, hself]
    rfl
  · have hexec := exec_qfChar_character (c := c) h.1 hp hb hn
    rw [hself, characterStep, htake] at hexec
    exact hexec

/-! ### The open choice at a boundary (O40) -/

/-- Settles O40: the turn that prefers the direct command is its start step, whose result is that of its header form, and the
other turn is the FIFO's step on the form that the bytes held begin with. -/
theorem boundaryChoiceIsOpen : Obligations.BoundaryChoiceIsOpen := by
  unfold Obligations.BoundaryChoiceIsOpen
  intro s cmd i rest hs hi hb hp hd hq hdec
  constructor
  · exact (runTurn_directStart hi hb hp hd hq).trans
      (exec_headerInstr (s := asSequencer { s with phase := .direct, dstate := .active, cwait := false }) cmd hi rfl hb).symm
  · exact (sequencerTurn_boundary hi hb hp (cnt_pos_of_decodeFifo hdec)).trans (fifoStep_of_held hs hp hdec)

end Sys2Proof.Machine
end

section
/-! Where the sequencer has no step: only at a boundary with nothing to take and nothing pending, and during a transfer. -/

namespace Sys2Proof.Machine

/-! ### At a boundary (43_consumer.md R175, R176) -/

/-- At a boundary where the direct command is preferred, its start step (43_consumer.md R175). -/
theorem runTurn_preferDirect {s : State} (hi : s.inited = true) (hb : s.tbusy = false) (hp : s.phase = .awaitLength)
    (hd : s.dstate = .pending) : runTurn (.sequencer true) s = directStart s := by
  simp [runTurn, sequencerTurn, boundaryStep, hi, hb, hp, hd]

/-- The start step of a pending command leaves the boundary. -/
theorem directStart_leaves_boundary {s : State} (hi : s.inited = true) (hb : s.tbusy = false) (hp : s.phase = .awaitLength)
    (hd : s.dstate = .pending) (hl : LatchInv s) : ∃ t, directStart s = .next t ∧ t.phase ≠ .awaitLength := by
  obtain ⟨cmd, hq, -⟩ : ∃ cmd, s.dreq = some cmd ∧ cmdOk cmd ∧ s.dpay = directPayload cmd := by
    simpa only [LatchInv, hd] using hl
  refine ⟨startedDirect cmd s, (runTurn_preferDirect hi hb hp hd).symm.trans (runTurn_directStart hi hb hp hd hq), ?_⟩
  rw [startedDirect_eq]
  nofun

/-- A step that leaves the phase is no hold. -/
theorem ne_next_of_leaves {s : State} {p : Phase} {r : Result} (hp : s.phase = p) (h : ∃ t, r = .next t ∧ t.phase ≠ p) :
    r ≠ .next s := by
  rintro rfl
  obtain ⟨t, ht, hne⟩ := h
  cases ht
  exact hne hp

theorem runTurn_boundary {s : State} (d : Bool) (hi : s.inited = true) (hb : s.tbusy = false) (hp : s.phase = .awaitLength) :
    runTurn (.sequencer d) s = boundaryStep d s := by
  simp [runTurn, sequencerTurn, hi, hb, hp]

/-- Of the boundary's choices only the last, with nothing to take, nothing pending and the suspend step taken, changes
nothing. -/
theorem boundaryStep_holds {s : State} {d : Bool} (hs : BlockInv s) (hi : s.inited = true) (hb : s.tbusy = false)
    (hp : s.phase = .awaitLength) (h : boundaryStep d s = .next s) :
    s.cnt = 0 ∧ s.cwait = true ∧ s.dstate ≠ .pending := by
  have hdirect (hd : s.dstate = .pending) : directStart s ≠ .next s :=
    ne_next_of_leaves hp (directStart_leaves_boundary hi hb hp hd hs.latch)
  unfold boundaryStep at h
  split at h
  next hd => exact absurd h (hdirect (of_decide_eq_true (Bool.and_eq_true_iff.mp hd).2))
  next =>
    split at h
    next hn => exact absurd h (ne_next_of_leaves hp (fifoStep_leaves_boundary hs.fifo hi hb hp hn))
    next hn =>
      split at h
      next hw =>
        have hwait : true = s.cwait := congrArg State.cwait (Host.Outcome.next.inj h)
        rw [hw] at hwait
        cases hwait
      next hw =>
        split at h
        next hd => exact absurd h (hdirect hd)
        next hd => exact ⟨by omega, by simpa using hw, hd⟩

/-! ### Inside a message (10_state.md R45) -/

/-- Inside a frame the turn takes a byte. -/
theorem streamFrame_not_holds {s : State} (d : Bool) (hs : BlockInv s) (hi : s.inited = true) (hb : s.tbusy = false)
    (hp : s.phase = .streamFrame) : ¬ holds (.sequencer d) s := by
  obtain ⟨-, hr, -⟩ := hs.encoder.of_streamFrame hp
  have hn : 0 < s.cnt := Nat.lt_of_lt_of_le hr (hs.frames.rem_le_of_streamFrame hp)
  obtain ⟨b, hstep, hheld⟩ := frameStep_of_inv hs.fifo hn
  intro h
  have hsame : afterFrameByte b s = s :=
    Host.Outcome.next.inj (((runTurn_frameStep d hi hb hp hr hn).trans hstep).symm.trans h)
  rw [hsame] at hheld
  exact List.cons_ne_self _ _ hheld.symm

/-- After a marker the turn takes the character, which is held. -/
theorem streamChar_not_holds {s : State} (d : Bool) (hs : BlockInv s) (hi : s.inited = true) (hb : s.tbusy = false)
    (hp : s.phase = .streamChar) : ¬ holds (.sequencer d) s := by
  have hn := hs.frames.cnt_pos_of_streamChar hp
  obtain ⟨c, l, hh⟩ := held_eq_cons_of_pos hn
  have hturn := (sequencerTurn_streamChar d hi hb hp hn).trans (fifoStep_character hs.fifo hi hb hp hh)
  exact ne_next_of_leaves hp ⟨_, hturn, nofun⟩

/-- Inside a direct command the turn takes a unit or finishes the command. -/
theorem direct_not_holds {s : State} (d : Bool) (hs : BlockInv s) (hi : s.inited = true) (hb : s.tbusy = false)
    (hp : s.phase = .direct) : ¬ holds (.sequencer d) s := by
  have hlen := hs.encoder.dpay_of_direct hp
  cases he : s.dpay with
  | nil =>
    have hr : s.rem = 0 := by rw [← hlen, he]; rfl
    exact ne_next_of_leaves hp ⟨_, runTurn_directFinish d hi hb hp hr, nofun⟩
  | cons e rest =>
    have hr : 0 < s.rem := by rw [← hlen, he]; exact Nat.succ_pos _
    intro h
    have hsame : unitStep e { asSequencer s with dpay := rest } = s :=
      Host.Outcome.next.inj ((runTurn_directUnit d hi hb hp hr he).symm.trans h)
    have hpay : rest = s.dpay := (unitStep_dpay e _).symm.trans (congrArg State.dpay hsame)
    exact List.cons_ne_self e rest (he.symm.trans hpay.symm)

/-! ### The turn that changes nothing (O43) -/

/-- Settles O43, phase by phase: inside a unit or a direct command the invariant has the byte or the unit that the turn takes,
and at a boundary the turn holds in its last choice only. -/
theorem sequencerHoldsOnlyOnEmptyOrTransfer : Obligations.SequencerHoldsOnlyOnEmptyOrTransfer := by
  unfold Obligations.SequencerHoldsOnlyOnEmptyOrTransfer
  intro s d hinv hi h
  have hs := hinv.block hi
  by_cases hb : s.tbusy = true
  · exact .inl hb
  · rw [Bool.not_eq_true] at hb
    cases hp : s.phase with
    | awaitLength => exact .inr ⟨rfl, boundaryStep_holds hs hi hb hp ((runTurn_boundary d hi hb hp).symm.trans h)⟩
    | streamFrame => exact absurd h (streamFrame_not_holds d hs hi hb hp)
    | streamChar => exact absurd h (streamChar_not_holds d hs hi hb hp)
    | direct => exact absurd h (direct_not_holds d hs hi hb hp)

end Sys2Proof.Machine
end

section
/-! The producer front end: what PUTC answers, what PUTB answers in each case of its truncated length, and the bounds of PUTB's
result. -/

namespace Sys2Proof.Machine

/-! ### PUTC (O11) -/

/-- The failure indicator is no character (44_producer_port.md R186). -/
theorem charResponse_ne_failure (c : Byte) : (c.setWidth 32 : Word) ≠ 0xFFFFFFFF := by
  have hc := c.isLt
  bv_omega

/-- Settles O11: PUTC is the all-or-nothing enqueue of two bytes, with the character as its response. -/
theorem putcReturnsCharacterOrFailure : Obligations.PutcReturnsCharacterOrFailure := by
  unfold Obligations.PutcReturnsCharacterOrFailure
  refine ⟨fun s i c h => ⟨fun hfit hs => ?_, fun hfull => ?_, charResponse_ne_failure c⟩,
    fun s c hi => exec_before_init hi nofun⟩
  · rw [exec_putc h]
    exact enqueueOrDrop_enqueues h hs (charBytes c) Nat.two_pos hfit _ _
  · rw [exec_putc h]
    exact enqueueOrDrop_drops_answered h (charBytes c) hfull _ _

/-! ### The payload of PUTB (60_exceptions.md R209) -/

theorem exec_putb_bytes {i : Nat} {s : State} (h : byProducer i s) {n : Half} {l : List Byte} (hl : l.length = n.toNat) :
    exec (.putb n (.bytes l)) s = putBytes n.toNat l s := by
  rw [exec_putb h, if_neg (by simp [matchesCount_of_bytes hl]), Payload.byteList]

theorem exec_putb_mismatch {i : Nat} {s : State} (h : byProducer i s) {n : Half} {p : Payload}
    (hp : ¬ ∃ l, p = .bytes l ∧ l.length = n.toNat) (hne : ¬ (n.toNat = 0 ∧ p.units = [])) :
    exec (.putb n p) s = .next (marked .payloadLength s) := by
  have hmatch : p.matchesCount .one n.toNat = false :=
    Bool.eq_false_iff.mpr fun hm => (matchesCount_iff.mp hm).elim (mt unitSize_one_iff.mp hp) hne
  rw [exec_putb h, if_pos hmatch]

theorem byteList_of_no_units {p : Payload} (h : p.units = []) : p.byteList = [] :=
  List.eq_nil_of_length_eq_zero (matchesCount_bytes (matchesCount_empty .one h))

/-- The empty payload reads alike, whatever its unit type and whoever issues the command. -/
theorem exec_putb_no_units {p q : Payload} (s : State) (hp : p.units = []) (hq : q.units = []) :
    exec (.putb 0 p) s = exec (.putb 0 q) s := by
  change admitted (admission .producer false true (p.matchesCount .one 0) s) (putBytes 0 p.byteList) s =
    admitted (admission .producer false true (q.matchesCount .one 0) s) (putBytes 0 q.byteList) s
  rw [matchesCount_empty .one hp, matchesCount_empty .one hq, byteList_of_no_units hp, byteList_of_no_units hq]

/-! ### PUTB by its truncated length (44_producer_port.md R187, R188) -/

theorem truncLen_zero_lt_one (f : Int) : truncLen 0 f < 1 := by
  unfold truncLen
  omega

/-- The bounds of a truncated length that is no drop. -/
theorem truncLen_bounds {n t : Nat} {f : Int} (ht : truncLen n f = t) : t ≤ min n 255 ∧ (t : Int) + 1 ≤ f := by
  unfold truncLen at ht
  omega

theorem length_truncatedFrame {t : Nat} {f : Int} {l : List Byte} (ht : truncLen l.length f = t) :
    (frameBytes t (l.take t)).length = t + 1 :=
  length_frameBytes (List.length_take_of_le ((truncLen_bounds ht).1.trans (Nat.min_le_left _ _)))

/-- PUTB writes the truncated frame, and the FIFO has room for it. -/
theorem putBytes_frame {i t : Nat} {s : State} (h : byProducer i s) (hs : FifoInv s) {l : List Byte}
    (ht : truncLen l.length (freeSpace s) = t) (hpos : 1 ≤ t) :
    ∃ u, putBytes l.length l s = .next u ∧ enqueuedTo s u i (frameBytes t (l.take t)) (BitVec.ofNat 32 t) := by
  have hfit : (frameBytes t (l.take t)).length + s.cnt ≤ s.cap := by
    obtain ⟨-, hroom⟩ := truncLen_bounds ht
    rw [length_truncatedFrame ht]
    unfold freeSpace at hroom
    omega
  refine ⟨_, ?_, enqueuedTo_answered hs hfit i _⟩
  have hposInt : (1 : Int) ≤ t := by omega
  simp only [putBytes, ht, if_pos hposInt, Int.toNat_natCast, enqueue_of_inv hs, BitVec.ofInt_natCast, andThen,
    respond_byProducer (h.enqueued _)]

/-- With no byte requested PUTB is the all-or-nothing enqueue of the separator. -/
theorem putBytes_zero (l : List Byte) (s : State) : putBytes 0 l s = enqueueOrDrop (charBytes 0x0A) 0 0 s := by
  simp only [putBytes, if_neg (not_le.mpr (truncLen_zero_lt_one _)), if_true]

theorem putBytes_drops {i : Nat} {s : State} (h : byProducer i s) {n : Nat} (l : List Byte) (hn : n ≠ 0)
    (ht : truncLen n (freeSpace s) < 1) : putBytes n l s = .next (answered i 0 s) := by
  simp only [putBytes, if_neg (not_le.mpr ht), if_neg hn, respond_byProducer h]

/-- Settles O12: of `n` bytes PUTB is the frame, the separator or the drop by the truncated length, and any other payload but
the empty one is refused. -/
theorem putbTruncatesOrDrops : Obligations.PutbTruncatesOrDrops := by
  unfold Obligations.PutbTruncatesOrDrops
  refine ⟨?_, fun s i n p h hp hne => exec_putb_mismatch h hp hne, fun s p hp => exec_putb_no_units s hp rfl,
    fun s n p hi => exec_before_init hi nofun⟩
  rintro s i n l f t h hl rfl rfl
  rw [exec_putb_bytes h hl, ← hl]
  refine ⟨fun (ht : 1 ≤ truncLen l.length (freeSpace s)) hs => ?_, fun hn hfit hs => ?_, fun hn hfull => ?_,
    fun hn ht => putBytes_drops h l hn ht, by omega⟩
  · have hnat := (Int.toNat_of_nonneg (Int.le_of_lt ht)).symm
    exact putBytes_frame h hs hnat (Int.toNat_le_toNat ht)
  · rw [hn, putBytes_zero]
    obtain ⟨u, hu, hto, -⟩ := enqueueOrDrop_enqueues h hs (charBytes 0x0A) Nat.two_pos
      (show 2 + s.cnt ≤ s.cap by omega) 0 0
    exact ⟨u, hu, hto⟩
  · rw [hn, putBytes_zero]
    exact enqueueOrDrop_drops_answered h (charBytes 0x0A) (show s.cap < 2 + s.cnt by omega) 0 0

/-! ### The bounds of PUTB's result (O13) -/

theorem enqueuedTo.respOf {s t : State} {i : Nat} {bs : List Byte} {v : Word} (h : enqueuedTo s t i bs v) :
    respOf t i = some v := by
  obtain ⟨-, ht, -, -⟩ := h
  rw [ht]
  exact find_setResp s.resp i v

theorem enqueuedTo.counts {s t : State} {i : Nat} {bs : List Byte} {v : Word} (h : enqueuedTo s t i bs v) :
    t.nin = s.nin + bs.length ∧ t.cnt = s.cnt + bs.length := by
  obtain ⟨-, ht, -, -⟩ := h
  rw [ht]
  exact ⟨rfl, rfl⟩

/-- With a truncated length below 1 the response is 0, whether the separator is enqueued or nothing. -/
theorem putBytes_answers_zero {i : Nat} {s : State} (h : byProducer i s) (hs : FifoInv s) {n : Nat} (l : List Byte)
    (ht : truncLen n (freeSpace s) < 1) : ∃ u, putBytes n l s = .next u ∧ respOf u i = some 0 := by
  by_cases hn : n = 0
  · rw [hn, putBytes_zero]
    rcases Nat.lt_or_ge s.cap ((charBytes 0x0A).length + s.cnt) with hfull | hfit
    · exact ⟨_, enqueueOrDrop_drops_answered h _ hfull 0 0, find_setResp s.resp i 0⟩
    · exact ⟨_, enqueueOrDrop_fits_answered h hs _ hfit 0 0, find_setResp _ i 0⟩
  · exact ⟨_, putBytes_drops h l hn ht, find_setResp s.resp i 0⟩

/-- Settles O13: the result is the truncated length where that is at least 1, and 0 otherwise. -/
theorem putbResultIsBounded : Obligations.PutbResultIsBounded := by
  unfold Obligations.PutbResultIsBounded
  intro s i n l h hs hl
  rw [exec_putb_bytes h hl, ← hl]
  rcases lt_or_ge (truncLen l.length (freeSpace s)) 1 with hlow | hhigh
  · obtain ⟨u, hu, hresp⟩ := putBytes_answers_zero h hs l hlow
    exact ⟨u, 0, hu, hresp, Nat.zero_le _, le_max_right _ _, fun hr => absurd hr (Nat.lt_irrefl 0), fun _ => rfl⟩
  · obtain ⟨r, hr⟩ := Int.eq_ofNat_of_zero_le (Int.le_of_lt hhigh)
    obtain ⟨hle, hroom⟩ := truncLen_bounds hr
    obtain ⟨u, hu, hto⟩ := putBytes_frame h hs hr (by omega)
    exact ⟨u, r, hu, hto.respOf, hle, le_max_of_le_left (Int.le_sub_right_of_add_le hroom),
      fun _ => length_truncatedFrame hr ▸ hto.counts, fun hn => by omega⟩

end Sys2Proof.Machine
end

section
/-! Every instruction is an admission followed by an effect: the class its admission tests, and what an admitted effect never
does, whichever instruction it is. -/

namespace Sys2Proof.Machine

/-! ### The effect of an admitted instruction (60_exceptions.md R200, R205) -/

/-- What an admitted effect that begins in `s` ends with: the mark as it was, and no fault under the FIFO's invariant. -/
structure SafeEffect (s : State) (r : Result) : Prop where
  mark : ∀ t, r = .next t → t.mark = s.mark
  noFault : FifoInv s → ∀ e, r ≠ .fault e

theorem SafeEffect.next {s t : State} (h : t.mark = s.mark) : SafeEffect s (.next t) :=
  ⟨fun _ hr => by cases hr; exact h, fun _ _ => nofun⟩

theorem SafeEffect.hold (s : State) : SafeEffect s (hold s) := .next rfl

theorem SafeEffect.ite {s : State} {c : Prop} [Decidable c] {a b : Result} (ha : SafeEffect s a) (hb : SafeEffect s b) :
    SafeEffect s (if c then a else b) := by
  split
  · exact ha
  · exact hb

/-- Going on from an operation that under the FIFO's invariant does not fault. -/
theorem SafeEffect.andThen {α : Type} {s : State} {r : Except Fault α} {f : α → Result}
    (hf : ∀ a, r = .ok a → SafeEffect s (f a)) (hr : FifoInv s → ∃ a, r = .ok a) : SafeEffect s (andThen r f) where
  mark t h := by
    obtain ⟨a, ha, h⟩ := andThen_next h
    exact (hf a ha).mark t h
  noFault hs := by
    obtain ⟨a, ha⟩ := hr hs
    rw [ha]
    exact (hf a ha).noFault hs

theorem take_of_fifoInv {s : State} (h : FifoInv s) : take s = .ok (peek s s.rd, taken (peek s s.rd) s) := by
  simp [take, hasIndex, h.rdLt, h.capHigh, peek, taken]

/-- A step that takes a byte and then writes no mark. -/
theorem SafeEffect.take {s : State} {f : Byte × State → Result} (hf : ∀ b t, t.mark = s.mark → SafeEffect s (f (b, t))) :
    SafeEffect s (Machine.andThen (take s) f) := by
  refine .andThen (fun r hr => ?_) (fun hs => ⟨_, take_of_fifoInv hs⟩)
  rcases take_cases s with ⟨-, ht⟩ | ht
  · cases ht.symm.trans hr
    exact hf _ _ rfl
  · cases ht.symm.trans hr

theorem SafeEffect.enqueue {s : State} (bs : List Byte) (v : Word) :
    SafeEffect s (Machine.andThen (enqueue bs s) (fun t => .next (respond v t))) where
  mark t h := by
    cases enqueue_next h
    simp
  noFault hs := by
    rw [enqueue_of_inv hs]
    exact fun _ => nofun

theorem SafeEffect.enqueueOrDrop {s : State} (bs : List Byte) (okResp failResp : Word) :
    SafeEffect s (enqueueOrDrop bs okResp failResp s) := .ite (.enqueue bs okResp) (.next (respond_mark failResp s))

theorem SafeEffect.putBytes {s : State} (n : Nat) (l : List Byte) : SafeEffect s (putBytes n l s) :=
  .ite (.enqueue _ _) (.ite (.enqueueOrDrop _ _ _) (.next (respond_mark 0 s)))

/-! ### The admission of each instruction (30_encoding.md R73, 60_exceptions.md R210) -/

/-- The class whose admission the instruction meets: its opcode's class, and the sequencer's own for header words and FIFO
forms (log 19). -/
def instrClass : Instr → OpClass
  | .reserved0 _ | .reservedE _ => .reserved
  | .free | .enqf _ _ | .enqc _ | .putc _ | .putb _ _ | .init _ => .producer
  | .etrace _ | .eascii _ _ | .ehex1 _ _ | .ehex2 _ _ | .ehex4 _ _ | .echar _ => .direct
  | .deq | .sendword _ | .hdrTrace _ | .hdrAscii _ | .hdrHex1 _ | .hdrHex2 _ | .hdrHex4 _ | .hdrChar _ | .qfFrame _
  | .qfChar _ => .internal

/-- The instruction is INIT, the one admitted before INIT. -/
def isInit : Instr → Bool
  | .init _ => true
  | .reserved0 _ | .free | .enqf _ _ | .enqc _ | .putc _ | .putb _ _ | .deq | .sendword _ | .etrace _ | .eascii _ _
  | .ehex1 _ _ | .ehex2 _ _ | .ehex4 _ _ | .echar _ | .reservedE _ | .hdrTrace _ | .hdrAscii _ | .hdrHex1 _ | .hdrHex2 _
  | .hdrHex4 _ | .hdrChar _ | .qfFrame _ | .qfChar _ => false

/-- `r` is what `i` answers in `s`: its class's admission with some tests of its operands, then a safe effect. -/
def AdmittedEffect (i : Instr) (s : State) (r : Result) : Prop :=
  ∃ (rangeOk payloadOk : Bool) (f : State → Result),
    r = admitted (admission (instrClass i) (isInit i) rangeOk payloadOk s) f s ∧ SafeEffect s (f s)

theorem AdmittedEffect.of_class {i : Instr} {s : State} {c : OpClass} {init rangeOk payloadOk : Bool} {f : State → Result}
    (hc : instrClass i = c) (hi : isInit i = init) (hf : SafeEffect s (f s)) :
    AdmittedEffect i s (admitted (admission c init rangeOk payloadOk s) f s) := by
  subst hc hi
  exact ⟨rangeOk, payloadOk, f, rfl, hf⟩

theorem directCommand_admittedEffect {i : Instr} {s : State} {payloadOk : Bool} {cmd : DirectCmd} (hc : instrClass i = .direct)
    (hi : isInit i = false) : AdmittedEffect i s (directCommand payloadOk cmd s) :=
  .of_class hc hi (.ite (.hold s) (.next rfl))

theorem headerStep_admittedEffect {i : Instr} {s : State} {h : Word} {setup : State → State} (hc : instrClass i = .internal)
    (hi : isInit i = false) (hm : (setup s).mark = s.mark) : AdmittedEffect i s (headerStep h setup s) :=
  .of_class hc hi (.ite (.hold s) (.next hm))

theorem SafeEffect.markerStep (s : State) : SafeEffect s (markerStep s) := by
  refine .take fun b t hm => .next ?_
  dsimp only
  split <;> exact hm

theorem SafeEffect.characterStep {s : State} (c : Byte) : SafeEffect s (characterStep c s) := .take fun _ _ hm => .next hm

/-- The steps of the raw-character form, by the phase (43_consumer.md R173, R174). -/
theorem qfChar_admittedEffect {s : State} (c : Byte) : AdmittedEffect (.qfChar c) s (execQfChar c s) := by
  refine .of_class rfl rfl (.ite ?_ (.hold s))
  split
  · exact .markerStep s
  · exact .characterStep c
  · exact .hold s
  · exact .hold s

/-- Every instruction is its class's admission, then a safe effect. -/
theorem exec_admittedEffect (i : Instr) (s : State) : AdmittedEffect i s (exec i s) := by
  cases i with
  | reserved0 rest => exact .of_class rfl rfl (.hold s)
  | reservedE rest => exact .of_class rfl rfl (.hold s)
  | free => exact show AdmittedEffect _ s (execFree s) from .of_class rfl rfl (.next (respond_mark _ s))
  | enqf n p => exact .of_class rfl rfl (.enqueueOrDrop _ _ _)
  | enqc c => exact .of_class rfl rfl (.enqueueOrDrop _ _ _)
  | putc c => exact .of_class rfl rfl (.enqueueOrDrop _ _ _)
  | putb n p => exact .of_class rfl rfl (.putBytes _ _)
  | init n => exact show AdmittedEffect _ s (execInit n s) from .of_class rfl rfl (.next (respond_mark _ _))
  | deq => exact show AdmittedEffect _ s (execDeq s) from .of_class rfl rfl (.ite (.next rfl) (.take fun _ _ hm => .next hm))
  | sendword v => exact show AdmittedEffect _ s (execSendword v s) from .of_class rfl rfl (.ite (.hold s) (.next rfl))
  | etrace id => exact directCommand_admittedEffect rfl rfl
  | eascii n p => exact directCommand_admittedEffect rfl rfl
  | ehex1 n p => exact directCommand_admittedEffect rfl rfl
  | ehex2 n p => exact directCommand_admittedEffect rfl rfl
  | ehex4 n p => exact directCommand_admittedEffect rfl rfl
  | echar c => exact directCommand_admittedEffect rfl rfl
  | hdrTrace id => exact show AdmittedEffect _ s (execHdrTrace id s) from headerStep_admittedEffect rfl rfl rfl
  | hdrAscii n => exact headerStep_admittedEffect rfl rfl rfl
  | hdrHex1 n => exact headerStep_admittedEffect rfl rfl rfl
  | hdrHex2 n => exact headerStep_admittedEffect rfl rfl rfl
  | hdrHex4 n => exact headerStep_admittedEffect rfl rfl rfl
  | hdrChar c => exact show AdmittedEffect _ s (execHdrChar c s) from headerStep_admittedEffect rfl rfl rfl
  | qfFrame len =>
    exact show AdmittedEffect _ s (execQfFrame len s) from
      .of_class rfl rfl (.ite (.take fun _ _ hm => .next hm) (.hold s))
  | qfChar c => exact qfChar_admittedEffect c

/-- Either the instruction is refused, or it is admitted, INIT before INIT and any other after it, and its effect is safe. -/
theorem exec_cases (i : Instr) (s : State) :
    (∃ reason, exec i s = .next (marked reason s)) ∨
    (s.inited = !isInit i ∧ permitted (instrClass i) s.issuer = true ∧ SafeEffect s (exec i s)) := by
  obtain ⟨rangeOk, payloadOk, f, hexec, hf⟩ := exec_admittedEffect i s
  rcases admitted_cases (admission (instrClass i) (isInit i) rangeOk payloadOk s) f s with ⟨hadm, heq⟩ | ⟨reason, -, heq⟩
  · obtain ⟨hinit, hperm, -, -⟩ := (admission_eq_none_iff _ _ _ _ _).mp hadm
    exact .inr ⟨hinit, hperm, by rwa [hexec, heq]⟩
  · exact .inl ⟨reason, hexec.trans heq⟩

/-- A reason that stands before the operands' tests refuses the instruction, whatever its operands. -/
theorem exec_refused {i : Instr} {s : State} {reason : Reason}
    (h : ∀ rangeOk payloadOk, admission (instrClass i) (isInit i) rangeOk payloadOk s = some reason) :
    exec i s = .next (marked reason s) := by
  obtain ⟨rangeOk, payloadOk, f, hexec, -⟩ := exec_admittedEffect i s
  rw [hexec, h, admitted_some]

end Sys2Proof.Machine
end

section
/-! No step of a run raises a fault (O55): the operations that read or write the storage are the only ones that could, and
they come after an admission. -/

namespace Sys2Proof.Machine

/-! ### Executing an instruction (60_exceptions.md R200) -/

theorem isInit_iff {i : Instr} : isInit i = true ↔ ∃ n, i = .init n := by
  cases i <;> simp [isInit]

/-- INIT touches no storage, so it needs no invariant. -/
theorem exec_init_no_fault (n : Half) (s : State) (e : Fault) : exec (.init n) s ≠ .fault e := by
  change admitted (admission .producer true (decide (2 ≤ n.toNat ∧ n.toNat ≤ s.params.capmax)) true s)
    (fun s => .next (respond 1 (initialised n.toNat s))) s ≠ .fault e
  cases admission .producer true (decide (2 ≤ n.toNat ∧ n.toNat ≤ s.params.capmax)) true s <;> nofun

/-- Any other admitted instruction comes after INIT, where the FIFO's invariant holds. -/
theorem exec_no_fault (i : Instr) {s : State} (hs : s.inited = true → FifoInv s) (e : Fault) : exec i s ≠ .fault e := by
  rcases exec_cases i s with ⟨reason, heq⟩ | ⟨hinit, -, hsafe⟩
  · rw [heq]
    nofun
  · cases hi : isInit i with
    | true =>
      obtain ⟨n, rfl⟩ := isInit_iff.mp hi
      exact exec_init_no_fault n s e
    | false => exact hsafe.noFault (hs (by simpa [hi] using hinit)) e

/-! ### The agents' turns -/

theorem commandTurn_no_fault (tr : Transaction) {s : State} (hs : s.inited = true → FifoInv s) (e : Fault) :
    commandTurn tr s ≠ .fault e := by
  unfold commandTurn
  split
  · nofun
  split
  · nofun
  split
  · nofun
  dsimp only
  split
  · refine exec_no_fault _ ?_ e
    exact fun hi => (hs hi).congr rfl rfl rfl rfl rfl rfl rfl rfl
  next err _ =>
    rcases admitted_cases (illegalReason err (presented tr s)) hold (presented tr s) with ⟨-, heq⟩ | ⟨r, -, heq⟩
    · exact heq ▸ nofun
    · exact heq ▸ nofun

theorem fifoStep_no_fault {s : State} (hs : FifoInv s) (e : Fault) : fifoStep s ≠ .fault e := by
  unfold fifoStep
  split
  · exact exec_no_fault _ (fun _ => hs.asSequencer) e
  · nofun

theorem directStart_no_fault {s : State} (hs : FifoInv s) (e : Fault) : directStart s ≠ .fault e := by
  unfold directStart
  split
  · refine exec_no_fault _ ?_ e
    exact fun _ => hs.congr rfl rfl rfl rfl rfl rfl rfl rfl
  · nofun

/-- At a boundary the sequencer executes a form, starts a direct command, suspends or holds. -/
theorem boundaryStep_no_fault (d : Bool) {s : State} (hs : FifoInv s) (e : Fault) : boundaryStep d s ≠ .fault e := by
  unfold boundaryStep
  split
  · exact directStart_no_fault hs e
  split
  · exact fifoStep_no_fault hs e
  split
  · nofun
  split
  · exact directStart_no_fault hs e
  · nofun

theorem frameStep_no_fault {s : State} (hs : FifoInv s) (hn : 0 < s.cnt) (e : Fault) : frameStep s ≠ .fault e := by
  obtain ⟨b, heq, -⟩ := frameStep_of_inv hs hn
  rw [heq]
  nofun

theorem directUnit_no_fault (s : State) (e : Fault) : directUnit s ≠ .fault e := by
  unfold directUnit
  split <;> nofun

theorem sequencerTurn_no_fault (d : Bool) {s : State} (hs : s.inited = true → FifoInv s) (e : Fault) :
    sequencerTurn d s ≠ .fault e := by
  unfold sequencerTurn
  split
  next hg =>
    have hfifo := hs (Bool.and_eq_true_iff.mp hg).1
    split
    · exact boundaryStep_no_fault d hfifo e
    · split
      next hn => exact frameStep_no_fault hfifo hn.2 e
      next => nofun
    · split
      · exact fifoStep_no_fault hfifo e
      · nofun
    · split
      · exact directUnit_no_fault s e
      · nofun
  next => nofun

theorem controllerTurn_no_fault (s : State) (e : Fault) : controllerTurn s ≠ .fault e := by
  unfold controllerTurn
  split
  · split
    · nofun
    split
    · split <;> nofun
    · nofun
  · nofun

theorem clientTurn_no_fault (s : State) (e : Fault) : clientTurn s ≠ .fault e := by
  unfold clientTurn
  split <;> nofun

theorem hostTurn_no_fault (s : State) (e : Fault) : hostTurn s ≠ .fault e := by
  unfold hostTurn
  split <;> nofun

theorem tickTurn_no_fault (s : State) (e : Fault) : tickTurn s ≠ .fault e := by
  unfold tickTurn
  split <;> nofun

/-- Only commands and the sequencer reach the FIFO's storage; the other agents' turns answer a next state in any state. -/
theorem runTurn_no_fault (tn : Turn) {s : State} (hs : s.inited = true → FifoInv s) (e : Fault) :
    runTurn tn s ≠ .fault e := by
  cases tn with
  | command tr => exact commandTurn_no_fault tr hs e
  | sequencer d => exact sequencerTurn_no_fault d hs e
  | controller => exact controllerTurn_no_fault s e
  | client => exact clientTurn_no_fault s e
  | host => exact hostTurn_no_fault s e
  | tick => exact tickTurn_no_fault s e

/-! ### The step (O55) -/

theorem step_of_marked {s : State} {r : Reason} (h : s.mark = some r) : step s = .refused (.markedRun r) := by
  simp only [step, h]

/-- Settles O55: a marked run's step is refused, and any other is the fetched turn, which finds the FIFO's invariant. -/
theorem noStepOfARunFaults : Obligations.NoStepOfARunFaults := by
  unfold Obligations.NoStepOfARunFaults
  intro s e hs
  cases hmark : s.mark with
  | some r =>
    rw [step_of_marked hmark]
    nofun
  | none =>
    rw [step_of_unmarked hmark]
    exact runTurn_no_fault _ (fun hi => (hs.block (by simpa using hi)).popTurn.fifo) e

end Sys2Proof.Machine
end

section
/-! The refusals, one admission test after the other in the order of 60_exceptions.md R212, and the refusal mark. -/

namespace Sys2Proof.Machine

/-! ### Reserved opcodes (O20) and other commands before INIT (O19) -/

/-- After INIT a reserved opcode has no earlier reason, whoever issues it (log 13). -/
theorem admission_reserved {s : State} (hi : s.inited = true) (init rangeOk payloadOk : Bool) :
    admission .reserved init rangeOk payloadOk s = some .reservedOpcode := by
  simp [admission, hi, fromInterrupt]

/-- Settles O20: both rows are of the reserved class. -/
theorem reservedOpcodesAreRefused : Obligations.ReservedOpcodesAreRefused := by
  unfold Obligations.ReservedOpcodesAreRefused
  intro s rest hi
  exact ⟨exec_refused (admission_reserved hi _), exec_refused (admission_reserved hi _)⟩

/-- Settles O19: the test of the initialised bit is the first of every admission but INIT's. -/
theorem onlyInitBeforeInit : Obligations.OnlyInitBeforeInit := by
  unfold Obligations.OnlyInitBeforeInit
  intro i s hi hne
  exact exec_before_init hi hne

/-! ### Interrupt handlers (O21) -/

/-- From an interrupt handler a producer or direct command passes the test of the initialised bit only. -/
theorem admission_interrupt {c : OpClass} {init : Bool} {s : State} (hi : s.inited = true ∨ init = true)
    (hf : fromInterrupt c s.issuer = true) (rangeOk payloadOk : Bool) :
    admission c init rangeOk payloadOk s = some .interruptContext := by
  have hfirst : ¬ (s.inited = false ∧ init = false) := by
    rcases hi with hi | hi <;> simp [hi]
  rw [admission, if_neg hfirst, if_pos hf]

/-- Such a command is refused whatever its operands and its port; INIT before INIT too. -/
theorem exec_interrupt {i : Instr} {s : State} {k : Nat} (hk : s.issuer.agent = .interruptHandler k)
    (hi : s.inited = true ∨ isInit i = true) (hc : instrClass i = .producer ∨ instrClass i = .direct) :
    exec i s = .next (marked .interruptContext s) := by
  refine exec_refused (admission_interrupt hi ?_)
  rcases hc with hc | hc <;> simp [hc, fromInterrupt, hk, isInterruptHandler]

/-- Settles O21: each row named is of the producer's or the direct class. -/
theorem interruptHandlersAreRefused : Obligations.InterruptHandlersAreRefused := by
  unfold Obligations.InterruptHandlersAreRefused
  intro s k hk
  refine ⟨fun n => exec_interrupt hk (.inr rfl) (.inl rfl), fun hi => ?_⟩
  have hproducer {i : Instr} (hc : instrClass i = .producer) := exec_interrupt hk (.inl hi) (.inl hc)
  have hdirect {i : Instr} (hc : instrClass i = .direct) := exec_interrupt hk (.inl hi) (.inr hc)
  exact ⟨hproducer rfl, fun n p => hproducer rfl, fun c => hproducer rfl, fun c => hproducer rfl, fun n p => hproducer rfl,
    fun id => hdirect rfl, fun n p => hdirect rfl, fun n p => hdirect rfl, fun n p => hdirect rfl, fun n p => hdirect rfl,
    fun c => hdirect rfl⟩

/-! ### Agents and ports (O22) -/

theorem fromInterrupt_of_no_handler {i : Issuer} (h : ∀ k, i.agent ≠ .interruptHandler k) (c : OpClass) :
    fromInterrupt c i = false := by
  have hno : isInterruptHandler i.agent = false := by
    cases ha : i.agent with
    | interruptHandler k => exact absurd ha (h k)
    | producer _ | client | sequencer => rfl
  cases c <;> simp [fromInterrupt, hno]

/-- After INIT an issuer that is neither of the class nor an interrupt handler. -/
theorem admission_wrongAgent {c : OpClass} {s : State} (hi : s.inited = true) (hf : fromInterrupt c s.issuer = false)
    (hc : c ≠ .reserved) (hp : permitted c s.issuer = false) (init rangeOk payloadOk : Bool) :
    admission c init rangeOk payloadOk s = some .wrongAgent := by
  simp [admission, hi, hf, hc, hp]

theorem permitted_internal_iff {i : Issuer} : permitted .internal i = true ↔ i = ⟨.sequencer, none⟩ := by
  cases i
  simp [permitted]

/-- Only the sequencer's own agent issues an operation inside the block, an interrupt handler no more than a port
(log 13). -/
theorem exec_internal_wrongAgent {i : Instr} {s : State} (hi : s.inited = true) (hs : s.issuer ≠ ⟨.sequencer, none⟩)
    (hc : instrClass i = .internal) : exec i s = .next (marked .wrongAgent s) := by
  refine exec_refused (admission_wrongAgent hi ?_ ?_ ?_ _) <;> rw [hc]
  · rfl
  · nofun
  · exact Bool.eq_false_iff.mpr (mt permitted_internal_iff.mp hs)

/-- A command on the port of the other class. -/
theorem exec_other_port {i : Instr} {s : State} (hi : s.inited = true) (hk : ∀ k, s.issuer.agent ≠ .interruptHandler k)
    (hport : (s.issuer.port = some .direct ∧ instrClass i = .producer) ∨
      (s.issuer.port = some .producer ∧ instrClass i = .direct)) :
    exec i s = .next (marked .wrongAgent s) := by
  refine exec_refused (admission_wrongAgent hi (fromInterrupt_of_no_handler hk _) ?_ ?_ _)
  · rcases hport with ⟨-, hc⟩ | ⟨-, hc⟩ <;> simp [hc]
  · rcases hport with ⟨hp, hc⟩ | ⟨hp, hc⟩ <;> simp [hc, hp, permitted]

/-- Settles O22: DEQ and SENDWORD are of the internal class, and each other row named is of the other port's class. -/
theorem wrongAgentsAreRefused : Obligations.WrongAgentsAreRefused := by
  unfold Obligations.WrongAgentsAreRefused
  intro s hi
  refine ⟨fun hs => ⟨exec_internal_wrongAgent hi hs rfl, fun v => exec_internal_wrongAgent hi hs rfl⟩, fun hk hp => ?_,
    fun hk hp => ?_⟩
  · have hother {i : Instr} (hc : instrClass i = .producer) := exec_other_port hi hk (.inl ⟨hp, hc⟩)
    exact ⟨hother rfl, fun n p => hother rfl, fun c => hother rfl, fun c => hother rfl, fun n p => hother rfl,
      fun n => hother rfl⟩
  · have hother {i : Instr} (hc : instrClass i = .direct) := exec_other_port hi hk (.inr ⟨hp, hc⟩)
    exact ⟨fun id => hother rfl, fun n p => hother rfl, fun n p => hother rfl, fun n p => hother rfl, fun n p => hother rfl,
      fun c => hother rfl⟩

/-! ### Words that do not decode (O23) -/

/-- What refuses a command of its own class: the initialised bit, INIT's own rule, the operand range, the payload. -/
theorem admission_of_permitted {c : OpClass} {s : State} (h : permitted c s.issuer = true) (init rangeOk payloadOk : Bool) :
    admission c init rangeOk payloadOk s =
      if s.inited = false ∧ init = false then some .notInitialised
      else if init = true ∧ s.inited = true then some .reInit
      else if rangeOk = false then some .operandRange
      else if payloadOk = false then some .payloadLength
      else none := by
  have hc : c ≠ .reserved := by
    rintro rfl
    cases h
  simp only [admission, interrupt_not_permitted h, h, hc, Bool.false_eq_true, Bool.true_eq_false, if_false]

/-- A transaction that is not held back and whose word has a must-be-zero bit set meets its opcode's admission with an operand
out of range (30_encoding.md R74, log 15). -/
theorem commandTurn_of_mustBeZero {tr : Transaction} {s : State} {op : Nat} (ha : agentExists s tr.agent = true)
    (hp : portFree tr s = true) (hc : clientHolds tr s = false)
    (hd : decodeCommand tr.word tr.payload = .error (.mustBeZero op)) :
    commandTurn tr s =
      admitted (admission (opClass op) (decide (op = 15)) false true (presented tr s)) hold (presented tr s) := by
  simp only [commandTurn, presented, illegalReason, ha, hp, hc, hd, Bool.true_eq_false, Bool.false_eq_true, if_false]

/-- No client issues INIT. -/
theorem not_client_of_permitted_init {tr : Transaction} (h : permitted (opClass 15) ⟨tr.agent, some tr.port⟩ = true) :
    tr.agent ≠ .client := by
  intro ha
  rw [ha] at h
  cases h

/-- Settles O23: before INIT and at an empty latch nothing holds the issuer back, so the word meets its admission; the client
at a full latch is held before its word is looked at. -/
theorem illegalWordsAreRefused : Obligations.IllegalWordsAreRefused := by
  unfold Obligations.IllegalWordsAreRefused
  intro tr s op hgrant hagent hperm hdec
  have hport := portFree_of_idle tr hgrant
  have hword (hfree : ¬ (tr.agent = .client ∧ s.inited = true ∧ s.dstate ≠ .none)) :=
    commandTurn_of_mustBeZero hagent hport (Bool.eq_false_iff.mpr (mt clientHolds_iff.mp hfree)) hdec
  have hadm := admission_of_permitted (s := presented tr s) hperm (decide (op = 15)) false true
  rw [presented] at hadm hword
  refine ⟨fun hi hop => ?_, fun hi hop => ?_, fun hi hop => ?_, fun hi hop hlatch => ?_, fun hi hclient hfull => ?_⟩
  · rw [hword (by simp [hi]), hadm]
    simp [hi, hop]
  · rw [hword (by simp [hi]), hadm]
    simp [hi, hop]
  · subst hop
    rw [hword (fun ⟨hclient, _⟩ => not_client_of_permitted_init hperm hclient), hadm]
    simp [hi]
  · rw [hword (fun ⟨hclient, _, hfull⟩ => hfull (hlatch hclient)), hadm]
    simp [hi, hop]
  · exact commandTurn_of_clientHolds hagent hport (clientHolds_iff.mpr ⟨hclient, hi, hfull⟩)

/-! ### The refusal mark (O24) -/

theorem marked_of_marked {s : State} {r : Reason} (h : s.mark = some r) (r' : Reason) : marked r' s = s := by
  simp only [marked, h]
  rw [← h]

theorem marked_mark_of_unmarked {s : State} (h : s.mark = none) (r : Reason) : (marked r s).mark = some r := by
  simp only [marked, h]

/-- Settles O24: a further refusal keeps the mark's reason, and so does the effect of an instruction that is admitted. -/
theorem refusedRunHasNoFurtherMeaning : Obligations.RefusedRunHasNoFurtherMeaning := by
  unfold Obligations.RefusedRunHasNoFurtherMeaning
  refine ⟨fun s r h => step_of_marked h, fun s r r' h => ?_, fun i s t r h hexec => ?_⟩
  · rw [refuse_eq, marked_of_marked h]
  · rcases exec_cases i s with ⟨reason, heq⟩ | ⟨-, -, hsafe⟩
    · rw [heq, marked_of_marked h] at hexec
      cases hexec
      exact h
    · exact (hsafe.mark t hexec).trans h

/-! ### The order of the reasons (O25) -/

/-- The mark that a command leaves in an unmarked run is the reason that refuses it, if one does. -/
theorem admitted_mark {reason : Option Reason} {f : State → Result} {s t : State} (h : s.mark = none)
    (hf : SafeEffect s (f s)) (ht : admitted reason f s = .next t) : t.mark = reason := by
  rcases admitted_cases reason f s with ⟨rfl, heq⟩ | ⟨r, rfl, heq⟩
  · exact (hf.mark t (heq.symm.trans ht)).trans h
  · cases heq.symm.trans ht
    exact marked_mark_of_unmarked h r

/-- The reasons of a producer command in the order of 60_exceptions.md R212. -/
theorem admission_producer (rangeOk payloadOk : Bool) (s : State) :
    admission .producer false rangeOk payloadOk s =
      if s.inited = false then some .notInitialised
      else if isInterruptHandler s.issuer.agent = true then some .interruptContext
      else if ¬ (isProducer s.issuer.agent = true ∧ s.issuer.port = some .producer) then some .wrongAgent
      else if rangeOk = false then some .operandRange
      else if payloadOk = false then some .payloadLength
      else none := by
  have hperm : permitted .producer s.issuer = false ↔
      ¬ (isProducer s.issuer.agent = true ∧ s.issuer.port = some .producer) := by
    rw [← Bool.not_eq_true, permitted, Bool.and_eq_true, decide_eq_true_iff]
  simp only [admission, fromInterrupt, hperm, and_true, reduceCtorEq, Bool.false_eq_true, false_and, if_false]

/-- Settles O25: ENQF's enqueue writes no mark, so the mark left is its admission's reason. -/
theorem refusalsComeInTheirOrder : Obligations.RefusalsComeInTheirOrder := by
  unfold Obligations.RefusalsComeInTheirOrder
  intro s t n p hmark hexec
  have hrange : decide (1 ≤ n.toNat ∧ n.toNat ≤ 255) = false ↔ n.toNat < 1 ∨ 255 < n.toNat := by
    rw [decide_eq_false_iff_not]
    omega
  rw [admitted_mark hmark (.enqueueOrDrop _ 1 0) hexec, admission_producer, hasUnits_eq_matchesCount]
  simp only [hrange]

end Sys2Proof.Machine
end

section
/-! The condition codes of dropped and truncated commands (O15). -/

namespace Sys2Proof.Machine

/-! ### What a code says of the room (60_exceptions.md R201) -/

theorem fitCode_eq_qfDrop_iff {m : Nat} {s : State} : fitCode m s = .qfDrop ↔ s.cap < m + s.cnt := by
  rw [← not_le, ← fits_iff, fitCode]
  split
  next h => simp [h]
  next h => simp [h]

/-- PUTB is dropped where the flush separator does not fit, or where no byte of those requested does. -/
theorem putbCode_eq_qfDrop {n : Nat} {s : State} (h : putbCode n s = .qfDrop) :
    (n = 0 ∧ s.cap < 2 + s.cnt) ∨ (n ≠ 0 ∧ truncLen n (freeSpace s) < 1) := by
  unfold putbCode at h
  split at h
  next hn => exact .inl ⟨hn, fitCode_eq_qfDrop_iff.mp h⟩
  next hn =>
    split at h
    next ht => exact .inr ⟨hn, Int.lt_add_one_of_le ht⟩
    next => split at h <;> cases h

/-- PUTB is truncated where some of the bytes requested fit and not all. -/
theorem putbCode_eq_qfTrunc {n : Nat} {s : State} (h : putbCode n s = .qfTrunc) :
    ∃ t : Nat, truncLen n (freeSpace s) = t ∧ 1 ≤ t ∧ t < n := by
  unfold putbCode at h
  split at h
  next => unfold fitCode at h; split at h <;> cases h
  next =>
    split at h
    next => cases h
    next hpos =>
      split at h
      next hlt => exact ⟨(truncLen n (freeSpace s)).toNat, by omega, by omega, by omega⟩
      next => cases h

/-! ### Dropped and truncated commands (O15) -/

theorem exec_putb_dropped {i : Nat} {s : State} (h : byProducer i s) {n : Half} {l : List Byte} (hl : l.length = n.toNat)
    (hcode : putbCode n.toNat s = .qfDrop) : exec (.putb n (.bytes l)) s = .next (answered i 0 s) := by
  rw [exec_putb_bytes h hl]
  rcases putbCode_eq_qfDrop hcode with ⟨hn, hfull⟩ | ⟨hn, ht⟩
  · rw [hn, putBytes_zero]
    exact enqueueOrDrop_drops_answered h (charBytes 0x0A) hfull 0 0
  · exact putBytes_drops h l hn ht

/-- Settles O15: QF_DROP is the code of no room, where each command changes its response alone, and QF_TRUNC is the code of a
truncated length from 1 to `n - 1`, which is PUTB's response. -/
theorem droppedCommandsChangeOnlyTheResult : Obligations.DroppedCommandsChangeOnlyTheResult := by
  unfold Obligations.DroppedCommandsChangeOnlyTheResult
  intro s i h hs
  refine ⟨fun n l h1 h255 hl hcode => ?_, fun c hcode => ?_, fun c hcode => ?_, fun n l hl hcode => ?_,
    fun n l hl hcode => ?_⟩
  · rw [exec_enqf_matches h ⟨h1, h255⟩ (matchesCount_of_bytes hl)]
    exact enqueueOrDrop_drops_answered h (frameBytes n.toNat l) (length_frameBytes hl ▸ fitCode_eq_qfDrop_iff.mp hcode) 1 0
  · rw [exec_enqc h]
    exact enqueueOrDrop_drops_answered h (charBytes c) (fitCode_eq_qfDrop_iff.mp hcode) 1 0
  · rw [exec_putc h]
    exact enqueueOrDrop_drops_answered h (charBytes c) (fitCode_eq_qfDrop_iff.mp hcode) _ _
  · exact exec_putb_dropped h hl hcode
  · obtain ⟨t, ht, hpos, hlt⟩ := putbCode_eq_qfTrunc hcode
    rw [← hl] at ht
    obtain ⟨u, hu, hto⟩ := putBytes_frame h hs ht hpos
    exact ⟨u, t, by rw [exec_putb_bytes h hl, ← hl, hu], hto.respOf, hpos, hlt⟩

end Sys2Proof.Machine
end

section
/-! The end of a run: a turn of an agent without an enabled step, and what an ended run is. -/

namespace Sys2Proof.Machine

/-! ### The host's turn (O48) -/

theorem runTurn_host_free {s : State} (hb : s.chBusy = false) : runTurn .host s = .next s := by
  simp [runTurn, hostTurn, hb, hold]

/-- Settles O48. -/
theorem hostTakesTheValue : Obligations.HostTakesTheValue := by
  unfold Obligations.HostTakesTheValue
  exact ⟨fun s hi hb => runTurn_host_busy hi hb, fun s hb => runTurn_host_free hb⟩

/-! ### Turns without an enabled step (60_exceptions.md R213) -/

theorem holds_command_of_no_step {tr : Transaction} {s : State} (h : hasStep (.command tr) s = false) :
    holds (.command tr) s := by
  simp only [hasStep, Bool.not_eq_eq_eq_not, Bool.not_false, Bool.and_eq_true, Bool.or_eq_true] at h
  obtain ⟨ha, hheld⟩ := h
  by_cases hp : portFree tr s = true
  · exact commandTurn_of_clientHolds ha hp (hheld.resolve_left (by simp [hp]))
  · simp [holds, runTurn, commandTurn, ha, hp, hold]

/-- The sequencer has no step before INIT, during a transfer, at a boundary with nothing to take, and inside a message whose next
byte is not held; each is a hold. -/
theorem holds_sequencer_of_no_step {d : Bool} {s : State} (h : hasStep (.sequencer d) s = false) :
    holds (.sequencer d) s := by
  cases hg : s.inited && !s.tbusy with
  | false =>
    have hoff : ¬ (s.inited && decide (s.tbusy = false)) = true := by simpa using hg
    exact if_neg hoff
  | true =>
    obtain ⟨hi, hb⟩ : s.inited = true ∧ s.tbusy = false := by simpa using hg
    cases hp : s.phase with
    | awaitLength =>
      obtain ⟨⟨hn, hw⟩, hd⟩ : (s.cnt = 0 ∧ s.cwait = true) ∧ s.dstate ≠ .pending := by simpa [hasStep, hg, hp] using h
      exact (runTurn_sequencer_empty d hi hb hp hn hd).trans (if_neg (by simp [hw]))
    | streamFrame =>
      have hn : ¬ (0 < s.rem ∧ 0 < s.cnt) := by simpa [hasStep, hg, hp] using h
      simp only [holds, runTurn, sequencerTurn, hi, hb, hp, hn, decide_true, Bool.and_self, if_true, if_false, hold]
    | streamChar =>
      have hn : ¬ 0 < s.cnt := by simpa [hasStep, hg, hp] using h
      simp only [holds, runTurn, sequencerTurn, hi, hb, hp, hn, decide_true, Bool.and_self, if_true, if_false, hold]
    | direct => simp [hasStep, hg, hp] at h

theorem holds_client_of_no_step {s : State} (h : hasStep .client s = false) : holds .client s := by
  simp only [hasStep] at h
  simp [holds, runTurn, clientTurn, h, hold]

theorem holds_host_of_no_step {s : State} (h : hasStep .host s = false) : holds .host s := by
  simp only [hasStep] at h
  simp [holds, runTurn, hostTurn, h, hold]

theorem holds_tick_of_idle {s : State} (hb : s.tbusy = false) : holds .tick s := by
  simp [holds, runTurn, tickTurn, hb, hold]

/-- Without a transfer in progress a turn without an enabled step changes nothing. -/
theorem holds_of_no_step {t : Turn} {s : State} (hb : s.tbusy = false) (h : hasStep t s = false) : holds t s := by
  cases t with
  | command tr => exact holds_command_of_no_step h
  | sequencer d => exact holds_sequencer_of_no_step h
  | controller => exact runTurn_controller_idle hb
  | client => exact holds_client_of_no_step h
  | host => exact holds_host_of_no_step h
  | tick => exact holds_tick_of_idle hb

/-- The turn changes at most the polling timer's two fields (10_state.md R37). -/
def OnlyTimer (t : Turn) (s : State) : Prop :=
  ∃ u, runTurn t s = .next u ∧ u = { s with tier := u.tier, tticks := u.tticks }

theorem OnlyTimer.of_holds {t : Turn} {s : State} (h : holds t s) : OnlyTimer t s := ⟨s, h, rfl⟩

theorem onlyTimer_escalate (s : State) (n : Nat) :
    escalate { s with tticks := n } =
      { s with tier := (escalate { s with tticks := n }).tier, tticks := (escalate { s with tticks := n }).tticks } := by
  unfold escalate
  split <;> rfl

/-- A controller without an enabled step polls a busy channel, or has no byte left to write. -/
theorem onlyTimer_controller {s : State} (h : hasStep .controller s = false) : OnlyTimer .controller s := by
  cases hg : s.inited && s.tbusy with
  | false => exact .of_holds (by simp [holds, runTurn, controllerTurn, hg, hold])
  | true =>
    obtain ⟨hi, ht⟩ := Bool.and_eq_true_iff.mp hg
    cases hb : s.chBusy with
    | true => exact ⟨escalate s, runTurn_controller_busy hi ht hb, onlyTimer_escalate s s.tticks⟩
    | false =>
      cases hv : s.params.variant with
      | legacy => simp [hasStep, hg, hb, hv] at h
      | modern =>
        have hx : ¬ s.hidx < 4 := by simpa [hasStep, hg, hb, hv] using h
        exact .of_holds (by simp [holds, runTurn, controllerTurn, hi, ht, hb, hv, hx, hold])

theorem onlyTimer_tick (s : State) : OnlyTimer .tick s := by
  cases hg : s.inited && s.tbusy && s.chBusy with
  | false => exact .of_holds (by simp [holds, runTurn, tickTurn, hg, hold])
  | true => exact ⟨escalate { s with tticks := s.tticks + 1 }, by simp [runTurn, tickTurn, hg], onlyTimer_escalate s _⟩

theorem onlyTimer_of_no_step {t : Turn} {s : State} (h : hasStep t s = false) : OnlyTimer t s := by
  cases t with
  | command tr => exact .of_holds (holds_command_of_no_step h)
  | sequencer d => exact .of_holds (holds_sequencer_of_no_step h)
  | controller => exact onlyTimer_controller h
  | client => exact .of_holds (holds_client_of_no_step h)
  | host => exact .of_holds (holds_host_of_no_step h)
  | tick => exact onlyTimer_tick s

/-! ### The end of a run (60_exceptions.md R225) -/

/-- In an ended run no turn but a command's or the host's has a step. -/
theorem ended.no_step {hostActs : Bool} {s : State} (h : ended hostActs s) {t : Turn} (ht : ∀ tr, t ≠ .command tr)
    (hhost : t ≠ .host) : hasStep t s = false :=
  h t (fun tr htr => absurd htr (ht tr)) (fun hh => absurd hh hhost)

theorem ended.host_no_step {s : State} (h : ended true s) : hasStep .host s = false := h .host nofun (fun _ => rfl)

/-- A controller with a word to send and the channel free has a step, so an ended run has no transfer in progress. -/
theorem ended.tbusy {s : State} (h : ended true s) (hi : s.inited = true) (hx : TransferInv s) (hb : s.chBusy = false) :
    s.tbusy = false := by
  have hno := h.no_step (t := .controller) nofun nofun
  by_contra ht
  rw [Bool.not_eq_false] at ht
  obtain ⟨-, hlt⟩ := hx
  simp [hasStep, hi, ht, hb, hlt ht] at hno

/-- In a run that has ended, the host acting, nothing is held or in progress: each field that is not so gives its agent a
step. -/
theorem ended.drained {s : State} (h : ended true s) (hs : Inv s) (hi : s.inited = true) : drained s := by
  have hchannel : s.chBusy = false := by simpa [hasStep, hi] using h.host_no_step
  have hb := h.tbusy hi (hs.transfer hi) hchannel
  have hholds := holds_sequencer_of_no_step (h.no_step (t := .sequencer false) nofun nofun)
  have hidle := sequencerHoldsOnlyOnEmptyOrTransfer s false hs hi hholds
  obtain ⟨hp, hn, -, hpending⟩ := hidle.resolve_left (by simp [hb])
  have hactive := (hs.encoder hi).not_active (by simp [hp])
  have hdone : s.dstate ≠ .done := by simpa [hasStep, hi] using h.no_step (t := .client) nofun nofun
  refine ⟨hn, hp, hb, ?_, hchannel⟩
  cases hd : s.dstate with
  | none => rfl
  | pending => exact absurd hd hpending
  | active => exact absurd hd hactive
  | done => exact absurd hd hdone

/-- While BUSY is 0 the host has no step, so it makes no difference whether its step counts. -/
theorem ended.of_free_channel {s : State} (h : ended false s) (hb : s.chBusy = false) : ended true s := by
  intro t hpending _
  by_cases hhost : t = .host
  · subst hhost
    simp [hasStep, hb]
  · exact h t hpending (fun hh => absurd hh hhost)

theorem suspended_of_drained {s : State} (d : Bool) (hi : s.inited = true) (h : drained s) :
    runTurn (.sequencer d) s = .next { s with cwait := true } := by
  obtain ⟨hn, hp, hb, hd, -⟩ := h
  rw [runTurn_sequencer_empty d hi hb hp hn (by simp [hd])]
  split
  · rfl
  next hw =>
    rw [Bool.not_eq_false] at hw
    rw [← hw]

/-- Settles O60: a turn without a step is a hold, but for the polling timer during a transfer; the invariant leaves an ended run
nothing held or in progress once the host has no step; and a free channel is one on which the host has none. -/
theorem cleanEndLeavesNothingToDo : Obligations.CleanEndLeavesNothingToDo := by
  unfold Obligations.CleanEndLeavesNothingToDo
  refine ⟨fun t s h => onlyTimer_of_no_step h, ?_, fun s hs hi h => ⟨h, h.drained hs hi⟩, fun s hs hi hstuck => ?_,
    fun s d hi hdrained => ?_⟩
  · rintro t s ⟨hended, -, -, hb, -⟩ hpending
    exact holds_of_no_step hb (hended t hpending (fun _ => rfl))
  · obtain ⟨hended, hnot⟩ := hstuck
    by_contra hb
    have hacting := hended.of_free_channel (by simpa using hb)
    exact hnot ⟨hacting, hacting.drained hs hi⟩
  · have hsuspend := suspended_of_drained d hi hdrained
    obtain ⟨-, -, hb, hd, hc⟩ := hdrained
    exact ⟨runTurn_controller_idle hb, runTurn_host_free hc, runTurn_client_not_done (by simp [hd]), holds_tick_of_idle hb,
      hsuspend⟩

end Sys2Proof.Machine
end

section
/-! INIT: what admits it, the state it leaves, and that this state is the same whatever the fields held before. -/

namespace Sys2Proof.Machine

/-! ### The admission of INIT from a producer (70_reset_and_hazards.md R230, R231) -/

section
variable {s : State} {i : Nat} (hs : s.issuer = ⟨.producer i, some .producer⟩)
include hs

theorem exec_init_by_producer (n : Half) :
    exec (.init n) s = admitted
      (if s.inited = true then some .reInit
        else if decide (2 ≤ n.toNat ∧ n.toNat ≤ s.params.capmax) = false then some .operandRange
        else none)
      (fun s => .next (respond 1 (initialised n.toNat s))) s := by
  have hperm : permitted .producer s.issuer = true := by simp [hs, permitted, isProducer]
  simp [exec, execInit, admission_of_permitted hperm]

theorem exec_init_again (n : Half) (hi : s.inited = true) : exec (.init n) s = .next (marked .reInit s) := by
  rw [exec_init_by_producer hs, if_pos hi, admitted_some]

theorem exec_init_out_of_range {n : Half} (hi : s.inited = false) (hn : n.toNat < 2 ∨ s.params.capmax < n.toNat) :
    exec (.init n) s = .next (marked .operandRange s) := by
  have hout : ¬ (2 ≤ n.toNat ∧ n.toNat ≤ s.params.capmax) := by omega
  rw [exec_init_by_producer hs, if_neg (by simp [hi]), if_pos (decide_eq_false hout), admitted_some]

theorem exec_init_in_range {n : Half} (hi : s.inited = false) (hlow : 2 ≤ n.toNat) (hhigh : n.toNat ≤ s.params.capmax) :
    exec (.init n) s = .next (answered i 1 (initialised n.toNat s)) := by
  have hresp : respond 1 (initialised n.toNat s) = answered i 1 (initialised n.toNat s) :=
    respond_of_producer 1 (congrArg Issuer.agent hs)
  rw [exec_init_by_producer hs, if_neg (by simp [hi]), if_neg (by simp [hlow, hhigh]), admitted_none, hresp]

end

/-! ### The table of 10_state.md R43 (O26) -/

/-- Settles O26: the admission refuses a second INIT and then a capacity out of range; else every field is read off the table,
and a capacity of 2 or more is not the count of an empty FIFO. -/
theorem initSetsTheTable : Obligations.InitSetsTheTable := by
  unfold Obligations.InitSetsTheTable
  intro s i n hs
  refine ⟨exec_init_again hs n, exec_init_out_of_range hs, fun hi hlow hhigh =>
    ⟨_, exec_init_in_range hs hi hlow hhigh, ?_⟩⟩
  have hresp : respOf (answered i 1 (initialised n.toNat s)) i = some 1 :=
    (responsesAreKeptPerAgent (initialised n.toNat s) i i 1).1
  have hcap : 0 ≠ n.toNat := by omega
  simp only [hresp]
  simp [answered, initialised, isEmpty, isFull, hcap]

/-! ### What INIT reads (O27) -/

/-- The table reads the model's own fields and the mark, and no field of the block. -/
theorem initialised_congr {s s' : State} (n : Nat) (hmark : s'.mark = s.mark) (hissuer : s'.issuer = s.issuer)
    (hinbox : s'.inbox = s.inbox) (hdraws : s'.draws = s.draws) (hparams : s'.params = s.params) :
    initialised n s' = initialised n s := by
  simp only [initialised, hmark, hissuer, hinbox, hdraws, hparams]

/-- Settles O27: both states are admitted, and the table reads nothing in which they may differ. -/
theorem initForgetsPowerOnValues : Obligations.InitForgetsPowerOnValues := by
  unfold Obligations.InitForgetsPowerOnValues
  intro s s' n i hi hi' hs hissuer hmark hinbox hdraws hparams hlow hhigh
  refine ⟨_, exec_init_in_range hs hi hlow hhigh, ?_⟩
  rw [exec_init_in_range (hissuer.trans hs) hi' hlow (by rwa [hparams]),
    initialised_congr n.toNat hmark hissuer hinbox hdraws hparams]

end Sys2Proof.Machine
end

section
/-! What a turn does to the channel and to the word transfer, by the agent whose turn it is. -/

namespace Sys2Proof.Machine

/-! ### The moves of the channel and the transfer (40_word_transport.md R108, R109) -/

/-- What a turn after INIT can do to the channel's BUSY, data and wire and to the transfer's progress, word and byte index. -/
inductive LinkMove (tn : Turn) (s t : State) : Prop where
  /-- Nothing. -/
  | keeps : t.chBusy = s.chBusy → t.chData = s.chData → t.wire = s.wire → t.tbusy = s.tbusy → t.tword = s.tword →
      t.hidx = s.hidx → LinkMove tn s t
  /-- The sequencer has its step, which leaves the channel and may start a transfer where none is in progress. -/
  | sequences (d : Bool) : tn = .sequencer d → s.tbusy = false → t.chBusy = s.chBusy → t.chData = s.chData →
      t.wire = s.wire → LinkMove tn s t
  /-- The controller writes the free channel; the last write of the word ends the transfer. -/
  | writes : tn = .controller → s.tbusy = true → s.chBusy = false → t.chBusy = true → t.tword = s.tword →
      (t.hidx = s.hidx ∨ t.hidx = s.hidx + 1) →
      (t.tbusy = false → s.params.variant = .legacy ∨ (s.params.variant = .modern ∧ s.hidx = 3)) → LinkMove tn s t
  /-- The host frees the busy channel. -/
  | takes : tn = .host → s.chBusy = true → t.chData = s.chData → t.wire = s.wire → t.tbusy = s.tbusy →
      t.tword = s.tword → t.hidx = s.hidx → LinkMove tn s t

theorem LinkMove.refl (tn : Turn) (s : State) : LinkMove tn s s := .keeps rfl rfl rfl rfl rfl rfl

/-- A move reads neither who issues nor which turns are to come. -/
theorem LinkMove.of_unread {tn : Turn} {s t : State} {who : Issuer} {ts : List Turn} {n : Nat}
    (h : LinkMove tn { s with issuer := who, inbox := ts, draws := n } t) : LinkMove tn s t := by
  cases h with
  | keeps hb hd hw ht hv hx => exact .keeps hb hd hw ht hv hx
  | sequences d htn ht hb hd hw => exact .sequences d htn ht hb hd hw
  | writes htn ht hb hb' hv hx hlast => exact .writes htn ht hb hb' hv hx hlast
  | takes htn hb hd hw ht hv hx => exact .takes htn hb hd hw ht hv hx

theorem popTurn_eq (s : State) : popTurn s = { s with inbox := (popTurn s).inbox, draws := (popTurn s).draws } := by
  unfold popTurn
  split <;> rfl

/-! ### The agents' moves -/

/-- After INIT no command on a port touches the channel or the transfer. -/
theorem PortEffect.linkMove {s t : State} (tn : Turn) (h : PortEffect s t) (hi : s.inited = true) : LinkMove tn s t := by
  cases h with
  | hold => exact .refl tn s
  | refused r => exact .keeps rfl rfl rfl rfl rfl rfl
  | result v _ => apply LinkMove.keeps <;> simp
  | enqueued u v _ _ _ => apply LinkMove.keeps <;> simp
  | latched cmd _ _ _ => exact .keeps rfl rfl rfl rfl rfl rfl
  | initialised n hn _ _ => rw [hi] at hn; cases hn

/-- The sequencer does nothing during a transfer (41_frame_encoder.md R123). -/
theorem SequencerEffect.holds_or_idle {s t : State} (h : SequencerEffect s t) : t = s ∨ s.tbusy = false := by
  cases h with
  | hold => exact .inl rfl
  | _ => exact .inr ‹_›

/-- A move that leaves BUSY is none of the two that change it. -/
theorem ChannelMove.keeps_of_chBusy {s t : State} (h : ChannelMove s t) (hb : t.chBusy = s.chBusy) :
    t.chData = s.chData ∧ t.wire = s.wire := by
  cases h with
  | keeps _ hd hw _ => exact ⟨hd, hw⟩
  | writes hfree hbusy _ _ => rw [hfree, hbusy] at hb; cases hb
  | takes hbusy hfree _ _ => rw [hfree, hbusy] at hb; cases hb

theorem SequencerEffect.linkMove {s t : State} (d : Bool) (h : SequencerEffect s t) : LinkMove (.sequencer d) s t := by
  rcases h.holds_or_idle with rfl | ht
  · exact .refl _ t
  · obtain ⟨hd, hw⟩ := h.channelMove.keeps_of_chBusy h.chBusy_eq
    exact .sequences d rfl ht h.chBusy_eq hd hw

theorem escalate_linkMove (tn : Turn) (s : State) : LinkMove tn s (escalate s) := by
  apply LinkMove.keeps <;> simp

/-- A handshake ends the transfer only at byte index 3 (40_word_transport.md R103). -/
theorem handshake_linkMove {s : State} (ht : s.tbusy = true) (hb : s.chBusy = false) (hv : s.params.variant = .modern) :
    LinkMove .controller s (handshake s) := by
  rw [handshake_eq ht hv]
  exact .writes rfl ht hb rfl rfl (.inr rfl) (fun hend => .inr ⟨hv, by simpa using hend⟩)

theorem wordWrite_linkMove {s : State} (ht : s.tbusy = true) (hb : s.chBusy = false) (hv : s.params.variant = .legacy) :
    LinkMove .controller s (wordWrite s) := .writes rfl ht hb rfl rfl (.inl rfl) (fun _ => .inl hv)

theorem runTurn_linkMove {tn : Turn} {s t : State} (hi : s.inited = true) (h : runTurn tn s = .next t) :
    LinkMove tn s t := by
  cases tn with
  | command tr =>
    rcases commandTurn_effect h with rfl | heff
    · exact .refl _ t
    · exact (heff.linkMove _ hi).of_unread
  | sequencer d => exact (sequencerTurn_effect h).linkMove d
  | controller =>
    rcases controllerTurn_cases h with rfl | ⟨-, -, -, rfl⟩ | ⟨-, ht, hb, hv, -, rfl⟩ | ⟨-, ht, hb, hv, rfl⟩
    · exact .refl _ t
    · exact escalate_linkMove _ s
    · exact handshake_linkMove ht hb hv
    · exact wordWrite_linkMove ht hb hv
  | client =>
    rcases clientTurn_cases h with rfl | ⟨-, -, rfl⟩
    · exact .refl _ t
    · exact .keeps rfl rfl rfl rfl rfl rfl
  | host =>
    rcases hostTurn_cases h with rfl | ⟨-, hb, rfl⟩
    · exact .refl _ t
    · exact .takes rfl hb rfl rfl rfl rfl rfl
  | tick =>
    rcases tickTurn_cases h with rfl | ⟨-, -, -, rfl⟩
    · exact .refl _ t
    · apply LinkMove.keeps <;> simp

theorem step_linkMove {s t : State} (hi : s.inited = true) (h : step s = .next t) : LinkMove (nextTurn s) s t := by
  have hmove := runTurn_linkMove (by rwa [popTurn_inited]) (runTurn_of_step h)
  rw [popTurn_eq] at hmove
  exact hmove.of_unread

/-! ### Who writes the channel and who starts a transfer (O58) -/

/-- Settles O58: a step is a move of the agent whose turn it is, and each move but the controller's write leaves the channel's
data and wire, the byte index and a transfer in progress. -/
theorem channelIsWrittenOnlyWhenFree : Obligations.ChannelIsWrittenOnlyWhenFree := by
  unfold Obligations.ChannelIsWrittenOnlyWhenFree
  intro s t hi h
  cases step_linkMove hi h with
  | keeps hb hd hw ht hv hx => simp +contextual [hb, hd, hw, ht, hv, hx]
  | sequences d htn ht hb hd hw => simp +contextual [htn, ht, hb, hd, hw]
  | writes htn ht hb hb' hv hx hlast =>
    exact ⟨fun _ => ⟨hb, ht, htn⟩, fun _ _ => htn, fun hbusy => by simp [hb] at hbusy,
      fun _ => ⟨hv, fun hne => ⟨htn, hx.resolve_left hne⟩, fun hend => ⟨htn, hb, hb', hlast hend⟩⟩,
      fun hidle => by simp [ht] at hidle⟩
  | takes htn hb hd hw ht hv hx => simp +contextual [htn, hb, hd, hw, ht, hv, hx]

end Sys2Proof.Machine
end
